-- ==== Sys2Proof/Word.lean ====
section
/-! DEFINITION. The two widths the block's values have where the spec states one for data: bytes (00_scope.md R10)
and 32-bit status words (R8, `CSR_W`). Everything without a stated width is a natural number (R9, R10). -/

namespace Sys2Proof

/-- A byte, a natural in 0..255 (00_scope.md R10). Operation codes, ring cells and header fields are bytes. -/
abbrev Byte := BitVec 8

/-- A 32-bit value: `ERR_INFO`, `OVF_COUNT`, `RATE`, `CAP`, a status register, a send count (10_state.md). -/
abbrev Word := BitVec 32

end Sys2Proof
end

