-- ==== Sys2Proof/Syntax.lean ====
section
/-! DEFINITION. The operations of the block as the spec names them: the agents, the operand records, and the ONE
inductive of instructions, a constructor for each row of spec/opcode_table.json (30_encoding.md R90, R93, R106). -/

namespace Sys2Proof

/-- The four agents (00_scope.md R7). -/
inductive Agent where
  | prod | cons | host | sig
  deriving DecidableEq, Repr

/-- The names of operand fields (30_encoding.md R93). -/
inductive OperandName where
  | cap | k | b | n | min | max | p0 | s0 | p1 | s1 | e | rate | bps | code | s | found | allocOk | ok | addr | port
  deriving DecidableEq, Repr

/-- One named field of an operand record, an unsigned value (R93). -/
structure Operand where
  name : OperandName
  value : Nat
  deriving DecidableEq, Repr

/-- A transaction as it is issued: the code byte of format TXN8 and its operand record (R91). -/
structure Txn where
  code : Byte
  operands : List Operand
  deriving DecidableEq, Repr

/-- What a decoder reads: an operation (format TXN8, R91) or byte 0 of a datagram (format RATECODE8, R106). The two
formats share their bits and are told apart by where the byte stands, so the format is part of the input. -/
inductive Encoded where
  | txn (t : Txn)
  | wire (b : Byte)
  deriving DecidableEq, Repr

/-- How an operand record can fail to be one of its code (R93: "a decode error in the model's transcriber, not a
block behaviour"), and the reserved codes (R95). -/
inductive DecodeError where
  /-- A reserved operation code (R95). -/
  | reserved (code : Byte)
  /-- The field that should stand here is missing (or stands elsewhere). -/
  | missingOperand (name : OperandName)
  /-- A field after the last one of the code. -/
  | extraOperand (name : OperandName)
  /-- An operand marked N bits that is not below 2^N. -/
  | operandRange (name : OperandName)
  deriving DecidableEq, Repr

/-- The instructions. An operand marked N bits is a bit vector of N bits (a `Bool` for one bit), an operand marked ℕ a
natural (R93). `addr` is OPEN in the spec; the model takes a natural (log 8). -/
inductive Instr where
  -- RB, codes 0x00..0x0C (40_ring_buffer.md)
  | rbCreate (cap : Word)
  | rbCapacity
  | rbWritePtr
  | rbFreeCount
  | rbStore (k : Nat) (b : Byte)
  | rbAdvanceWrite (n : Nat)
  | rbSyncR2p
  | rbReadPtr
  | rbFillCount
  | rbLoad (k : Nat)
  | rbAdvanceRead (n : Nat)
  | rbSyncW2c
  | rbDestroy
  -- CP, codes 0x20..0x26 (41_capture_producer.md)
  | cpInvoke (min max : Nat)
  | cpCheck
  | cpSubreadHole (k : Nat)
  | cpSubreadAreas (k p0 s0 p1 s1 : Nat)
  | cpSubreadErr (e : Word)
  | cpCommit
  | cpOvfNotify
  -- FN, codes 0x40..0x43 (42_format_negotiator.md)
  | fnRateCode (rate : Word)
  | fnBitDepth (bps : Byte)
  | fnBuildHeader (rate : Word) (bps : Byte)
  | fnDecodeRate (code : Byte)
  -- PK, codes 0x60..0x65 (43_packetizer.md)
  | pkTop
  | pkPoll
  | pkDrain
  | pkWait
  | pkSend (s : Word)
  | pkStop
  -- CTL, codes 0x80..0x85 (44_control.md)
  | ctlReset
  | ctlConfigure (found : Bool) (rate : Word) (bps : Byte) (cap : Word) (allocOk : Bool)
  | ctlSocketOpen (ok : Bool) (addr : Nat) (port : BitVec 16)
  | ctlStart (ok : Bool)
  | ctlCancel
  | ctlCsrRead (n : Byte)
  -- the wire patterns of byte 0 of a datagram (30_encoding.md R106)
  | rate44k1 (m : BitVec 7)
  | rate48k (m : BitVec 7)
  deriving DecidableEq, Repr

end Sys2Proof
end

