-- ==== Sys2Proof/WellFormed.lean ====
section
/-! DEFINITION. What makes a transaction a record of its code (30_encoding.md R93), and an instruction one an encoder
of the spec produces. The bit vectors of `Instr` already keep an operand marked N bits below 2^N. -/

namespace Sys2Proof

/-- The width column of R93: a natural (also the OPEN `addr`, log 8) or a number of bits. -/
inductive OperandWidth where
  | nat
  | bits (n : Nat)
  deriving DecidableEq, Repr

/-- A field of R93's table: its name and its width. -/
structure OperandField where
  name : OperandName
  width : OperandWidth
  deriving DecidableEq, Repr

/-- `unit = c[7:5]` (R91). -/
def unitOf (c : Byte) : Nat := c.toNat / 32

/-- `fn = c[4:0]` (R91). -/
def fnOf (c : Byte) : Nat := c.toNat % 32

/-- The table of R93: the operand fields of each assigned code, `none` for a reserved code (R95). -/
def operandFields (c : Byte) : Option (List OperandField) :=
  match unitOf c, fnOf c with
  | 0, 0 => some [⟨.cap, .bits 32⟩]
  | 0, 1 => some []
  | 0, 2 => some []
  | 0, 3 => some []
  | 0, 4 => some [⟨.k, .nat⟩, ⟨.b, .bits 8⟩]
  | 0, 5 => some [⟨.n, .nat⟩]
  | 0, 6 => some []
  | 0, 7 => some []
  | 0, 8 => some []
  | 0, 9 => some [⟨.k, .nat⟩]
  | 0, 10 => some [⟨.n, .nat⟩]
  | 0, 11 => some []
  | 0, 12 => some []
  | 1, 0 => some [⟨.min, .nat⟩, ⟨.max, .nat⟩]
  | 1, 1 => some []
  | 1, 2 => some [⟨.k, .nat⟩]
  | 1, 3 => some [⟨.k, .nat⟩, ⟨.p0, .nat⟩, ⟨.s0, .nat⟩, ⟨.p1, .nat⟩, ⟨.s1, .nat⟩]
  | 1, 4 => some [⟨.e, .bits 32⟩]
  | 1, 5 => some []
  | 1, 6 => some []
  | 2, 0 => some [⟨.rate, .bits 32⟩]
  | 2, 1 => some [⟨.bps, .bits 8⟩]
  | 2, 2 => some [⟨.rate, .bits 32⟩, ⟨.bps, .bits 8⟩]
  | 2, 3 => some [⟨.code, .bits 8⟩]
  | 3, 0 => some []
  | 3, 1 => some []
  | 3, 2 => some []
  | 3, 3 => some []
  | 3, 4 => some [⟨.s, .bits 32⟩]
  | 3, 5 => some []
  | 4, 0 => some []
  | 4, 1 => some [⟨.found, .bits 1⟩, ⟨.rate, .bits 32⟩, ⟨.bps, .bits 8⟩, ⟨.cap, .bits 32⟩, ⟨.allocOk, .bits 1⟩]
  | 4, 2 => some [⟨.ok, .bits 1⟩, ⟨.addr, .nat⟩, ⟨.port, .bits 16⟩]
  | 4, 3 => some [⟨.ok, .bits 1⟩]
  | 4, 4 => some []
  | 4, 5 => some [⟨.n, .bits 8⟩]
  | _, _ => none

/-- A value fits a width: "an operand marked N bits must be below 2^N" (R93). -/
def OperandWidth.admits : OperandWidth → Nat → Bool
  | .nat, _ => true
  | .bits n, v => decide (v < 2 ^ n)

/-- A record has exactly these fields, in the table's order, each value of its width (log 12). -/
def recordMatches : List OperandField → List Operand → Bool
  | [], [] => true
  | f :: fs, o :: os => decide (o.name = f.name) && f.width.admits o.value && recordMatches fs os
  | _, _ => false

/-- A transaction is well formed: its code is assigned and its record is one of that code. -/
def Txn.wellFormed (t : Txn) : Bool :=
  match operandFields t.code with
  | none => false
  | some fs => recordMatches fs t.operands

/-- An instruction is well formed: a wire pattern's multiplier is one the table gives, `MULT` in 1..127
(spec/opcode_table.json; 30_encoding.md R101, R104). Every other row admits every operand value of its widths. -/
def Instr.wellFormed : Instr → Bool
  | .rate44k1 m => decide (m ≠ 0#7)
  | .rate48k m => decide (m ≠ 0#7)
  | .rbCreate _ | .rbCapacity | .rbWritePtr | .rbFreeCount | .rbStore _ _ | .rbAdvanceWrite _ | .rbSyncR2p
  | .rbReadPtr | .rbFillCount | .rbLoad _ | .rbAdvanceRead _ | .rbSyncW2c | .rbDestroy
  | .cpInvoke _ _ | .cpCheck | .cpSubreadHole _ | .cpSubreadAreas _ _ _ _ _ | .cpSubreadErr _ | .cpCommit
  | .cpOvfNotify | .fnRateCode _ | .fnBitDepth _ | .fnBuildHeader _ _ | .fnDecodeRate _
  | .pkTop | .pkPoll | .pkDrain | .pkWait | .pkSend _ | .pkStop
  | .ctlReset | .ctlConfigure _ _ _ _ _ | .ctlSocketOpen _ _ _ | .ctlStart _ | .ctlCancel | .ctlCsrRead _ => true

end Sys2Proof
end

