-- ==== Sys2Proof/Decode.lean ====
section
/-! DEFINITION. The decoder, total on every code byte and every operand record (30_encoding.md R90, R91, R95), and the
encoder written from the same table (R93, R100). -/

namespace Sys2Proof

/-- The next field of a record, which must have this name. -/
def takeNat (name : OperandName) : List Operand → Except DecodeError (Nat × List Operand)
  | [] => .error (.missingOperand name)
  | o :: rest => if o.name = name then .ok (o.value, rest) else .error (.missingOperand name)

/-- The next field of a record, which must have this name and a value of `w` bits. -/
def takeBits (name : OperandName) (w : Nat) (os : List Operand) : Except DecodeError (BitVec w × List Operand) :=
  match takeNat name os with
  | .error e => .error e
  | .ok (v, rest) => if v < 2 ^ w then .ok (BitVec.ofNat w v, rest) else .error (.operandRange name)

/-- The next field of a record, which must have this name and a value of one bit. -/
def takeBit (name : OperandName) (os : List Operand) : Except DecodeError (Bool × List Operand) :=
  match takeBits name 1 os with
  | .error e => .error e
  | .ok (v, rest) => .ok (v == 1#1, rest)

/-- The record ends here. -/
def endOf (i : Instr) : List Operand → Except DecodeError Instr
  | [] => .ok i
  | o :: _ => .error (.extraOperand o.name)

/-- The decoder of operations, by unit and function (R91, R92, R94). A code no arm names is reserved (R95). -/
def decodeTxn (t : Txn) : Except DecodeError Instr :=
  match unitOf t.code, fnOf t.code with
  | 0, 0 => do
    let (cap, os) ← takeBits .cap 32 t.operands
    endOf (.rbCreate cap) os
  | 0, 1 => endOf .rbCapacity t.operands
  | 0, 2 => endOf .rbWritePtr t.operands
  | 0, 3 => endOf .rbFreeCount t.operands
  | 0, 4 => do
    let (k, os) ← takeNat .k t.operands
    let (b, os) ← takeBits .b 8 os
    endOf (.rbStore k b) os
  | 0, 5 => do
    let (n, os) ← takeNat .n t.operands
    endOf (.rbAdvanceWrite n) os
  | 0, 6 => endOf .rbSyncR2p t.operands
  | 0, 7 => endOf .rbReadPtr t.operands
  | 0, 8 => endOf .rbFillCount t.operands
  | 0, 9 => do
    let (k, os) ← takeNat .k t.operands
    endOf (.rbLoad k) os
  | 0, 10 => do
    let (n, os) ← takeNat .n t.operands
    endOf (.rbAdvanceRead n) os
  | 0, 11 => endOf .rbSyncW2c t.operands
  | 0, 12 => endOf .rbDestroy t.operands
  | 1, 0 => do
    let (min, os) ← takeNat .min t.operands
    let (max, os) ← takeNat .max os
    endOf (.cpInvoke min max) os
  | 1, 1 => endOf .cpCheck t.operands
  | 1, 2 => do
    let (k, os) ← takeNat .k t.operands
    endOf (.cpSubreadHole k) os
  | 1, 3 => do
    let (k, os) ← takeNat .k t.operands
    let (p0, os) ← takeNat .p0 os
    let (s0, os) ← takeNat .s0 os
    let (p1, os) ← takeNat .p1 os
    let (s1, os) ← takeNat .s1 os
    endOf (.cpSubreadAreas k p0 s0 p1 s1) os
  | 1, 4 => do
    let (e, os) ← takeBits .e 32 t.operands
    endOf (.cpSubreadErr e) os
  | 1, 5 => endOf .cpCommit t.operands
  | 1, 6 => endOf .cpOvfNotify t.operands
  | 2, 0 => do
    let (rate, os) ← takeBits .rate 32 t.operands
    endOf (.fnRateCode rate) os
  | 2, 1 => do
    let (bps, os) ← takeBits .bps 8 t.operands
    endOf (.fnBitDepth bps) os
  | 2, 2 => do
    let (rate, os) ← takeBits .rate 32 t.operands
    let (bps, os) ← takeBits .bps 8 os
    endOf (.fnBuildHeader rate bps) os
  | 2, 3 => do
    let (code, os) ← takeBits .code 8 t.operands
    endOf (.fnDecodeRate code) os
  | 3, 0 => endOf .pkTop t.operands
  | 3, 1 => endOf .pkPoll t.operands
  | 3, 2 => endOf .pkDrain t.operands
  | 3, 3 => endOf .pkWait t.operands
  | 3, 4 => do
    let (s, os) ← takeBits .s 32 t.operands
    endOf (.pkSend s) os
  | 3, 5 => endOf .pkStop t.operands
  | 4, 0 => endOf .ctlReset t.operands
  | 4, 1 => do
    let (found, os) ← takeBit .found t.operands
    let (rate, os) ← takeBits .rate 32 os
    let (bps, os) ← takeBits .bps 8 os
    let (cap, os) ← takeBits .cap 32 os
    let (allocOk, os) ← takeBit .allocOk os
    endOf (.ctlConfigure found rate bps cap allocOk) os
  | 4, 2 => do
    let (ok, os) ← takeBit .ok t.operands
    let (addr, os) ← takeNat .addr os
    let (port, os) ← takeBits .port 16 os
    endOf (.ctlSocketOpen ok addr port) os
  | 4, 3 => do
    let (ok, os) ← takeBit .ok t.operands
    endOf (.ctlStart ok) os
  | 4, 4 => endOf .ctlCancel t.operands
  | 4, 5 => do
    let (n, os) ← takeBits .n 8 t.operands
    endOf (.ctlCsrRead n) os
  | _, _ => .error (.reserved t.code)

/-- The multiplier of a rate code, bits 6..0 (R100). -/
def multOf (b : Byte) : BitVec 7 := b.setWidth 7

/-- The decoder of byte 0 of a datagram: bit 7 set is the 44100 family, bit 7 clear the 48000 family (R100, R106). -/
def decodeWire (b : Byte) : Instr :=
  if b.getLsbD 7 then .rate44k1 (multOf b) else .rate48k (multOf b)

/-- The decoder. -/
def decode : Encoded → Except DecodeError Instr
  | .txn t => decodeTxn t
  | .wire b => .ok (decodeWire b)

/-- A record of one-bit fields holds 0 or 1. -/
def bitValue (v : Bool) : Nat := if v then 1 else 0

/-- The code and the operand record of an instruction, from R93's table; for a wire pattern, the byte and no operand. -/
def recordOf : Instr → Txn
  | .rbCreate cap => ⟨0x00#8, [⟨.cap, cap.toNat⟩]⟩
  | .rbCapacity => ⟨0x01#8, []⟩
  | .rbWritePtr => ⟨0x02#8, []⟩
  | .rbFreeCount => ⟨0x03#8, []⟩
  | .rbStore k b => ⟨0x04#8, [⟨.k, k⟩, ⟨.b, b.toNat⟩]⟩
  | .rbAdvanceWrite n => ⟨0x05#8, [⟨.n, n⟩]⟩
  | .rbSyncR2p => ⟨0x06#8, []⟩
  | .rbReadPtr => ⟨0x07#8, []⟩
  | .rbFillCount => ⟨0x08#8, []⟩
  | .rbLoad k => ⟨0x09#8, [⟨.k, k⟩]⟩
  | .rbAdvanceRead n => ⟨0x0A#8, [⟨.n, n⟩]⟩
  | .rbSyncW2c => ⟨0x0B#8, []⟩
  | .rbDestroy => ⟨0x0C#8, []⟩
  | .cpInvoke min max => ⟨0x20#8, [⟨.min, min⟩, ⟨.max, max⟩]⟩
  | .cpCheck => ⟨0x21#8, []⟩
  | .cpSubreadHole k => ⟨0x22#8, [⟨.k, k⟩]⟩
  | .cpSubreadAreas k p0 s0 p1 s1 => ⟨0x23#8, [⟨.k, k⟩, ⟨.p0, p0⟩, ⟨.s0, s0⟩, ⟨.p1, p1⟩, ⟨.s1, s1⟩]⟩
  | .cpSubreadErr e => ⟨0x24#8, [⟨.e, e.toNat⟩]⟩
  | .cpCommit => ⟨0x25#8, []⟩
  | .cpOvfNotify => ⟨0x26#8, []⟩
  | .fnRateCode rate => ⟨0x40#8, [⟨.rate, rate.toNat⟩]⟩
  | .fnBitDepth bps => ⟨0x41#8, [⟨.bps, bps.toNat⟩]⟩
  | .fnBuildHeader rate bps => ⟨0x42#8, [⟨.rate, rate.toNat⟩, ⟨.bps, bps.toNat⟩]⟩
  | .fnDecodeRate code => ⟨0x43#8, [⟨.code, code.toNat⟩]⟩
  | .pkTop => ⟨0x60#8, []⟩
  | .pkPoll => ⟨0x61#8, []⟩
  | .pkDrain => ⟨0x62#8, []⟩
  | .pkWait => ⟨0x63#8, []⟩
  | .pkSend s => ⟨0x64#8, [⟨.s, s.toNat⟩]⟩
  | .pkStop => ⟨0x65#8, []⟩
  | .ctlReset => ⟨0x80#8, []⟩
  | .ctlConfigure found rate bps cap allocOk =>
    ⟨0x81#8, [⟨.found, bitValue found⟩, ⟨.rate, rate.toNat⟩, ⟨.bps, bps.toNat⟩, ⟨.cap, cap.toNat⟩,
      ⟨.allocOk, bitValue allocOk⟩]⟩
  | .ctlSocketOpen ok addr port => ⟨0x82#8, [⟨.ok, bitValue ok⟩, ⟨.addr, addr⟩, ⟨.port, port.toNat⟩]⟩
  | .ctlStart ok => ⟨0x83#8, [⟨.ok, bitValue ok⟩]⟩
  | .ctlCancel => ⟨0x84#8, []⟩
  | .ctlCsrRead n => ⟨0x85#8, [⟨.n, n.toNat⟩]⟩
  | .rate44k1 m => ⟨1#1 ++ m, []⟩
  | .rate48k m => ⟨0#1 ++ m, []⟩

/-- The instruction is a wire pattern, a row of format RATECODE8 (R106). -/
def Instr.isWire : Instr → Bool
  | .rate44k1 _ | .rate48k _ => true
  | .rbCreate _ | .rbCapacity | .rbWritePtr | .rbFreeCount | .rbStore _ _ | .rbAdvanceWrite _ | .rbSyncR2p
  | .rbReadPtr | .rbFillCount | .rbLoad _ | .rbAdvanceRead _ | .rbSyncW2c | .rbDestroy
  | .cpInvoke _ _ | .cpCheck | .cpSubreadHole _ | .cpSubreadAreas _ _ _ _ _ | .cpSubreadErr _ | .cpCommit
  | .cpOvfNotify | .fnRateCode _ | .fnBitDepth _ | .fnBuildHeader _ _ | .fnDecodeRate _
  | .pkTop | .pkPoll | .pkDrain | .pkWait | .pkSend _ | .pkStop
  | .ctlReset | .ctlConfigure _ _ _ _ _ | .ctlSocketOpen _ _ _ | .ctlStart _ | .ctlCancel | .ctlCsrRead _ => false

/-- The encoder. -/
def encode (i : Instr) : Encoded :=
  if i.isWire then .wire (recordOf i).code else .txn (recordOf i)

/-- The operand record of a code whose operand values are all zero; none for a reserved code. -/
def zeroRecord (c : Byte) : List Operand :=
  match operandFields c with
  | none => []
  | some fs => fs.map fun f => ⟨f.name, 0⟩

/-- What an opcode-table word stands for: an operation's code byte with an operand record of zeros where R93 assigns
the code, otherwise byte 0 of a datagram. A row of format TXN8 fixes all eight bits, so its words are read before the
two RATECODE8 patterns, which between them match every byte (log 13). -/
def tableWord (w : Nat) : Encoded :=
  let c := BitVec.ofNat 8 w
  match operandFields c with
  | none => .wire c
  | some _ => .txn ⟨c, zeroRecord c⟩

/-- The instruction the decoder reads from an opcode-table word. Every row has eight bits. -/
def decodeTableWord (nbits w : Nat) : Option Instr :=
  if nbits = 8 ∧ w < 256 then
    match decode (tableWord w) with
    | .ok i => some i
    | .error _ => none
  else none

end Sys2Proof
end

