-- ==== Sys2Proof/Config.lean ====
section
/-! DEFINITION. The constants of 00_scope.md R8 and the model's free values. A free value has no body: nothing in
Lean can compute it, so whatever is proved holds for every choice of it. -/

namespace Sys2Proof.Config

/-- `NCH`, the channel count, "fixed at 2 (stereo)". -/
abbrev channels : Nat := 2

/-- `PAYLOAD`, payload bytes per packet. -/
abbrev payloadLen : Nat := 1152

/-- `HDR_LEN`, header bytes. -/
abbrev headerLen : Nat := 5

/-- `PKT_LEN = HDR_LEN + PAYLOAD`, datagram bytes. -/
abbrev packetLen : Nat := 1157

/-- `CHMASK`: front-left 0x01, front-right 0x02. -/
abbrev channelMask : BitVec 16 := 0x0003#16

/-- The default UDP port, `DEST_PORT` after reset (10_state.md R45). -/
abbrev defaultPort : BitVec 16 := 4010#16

/-- "30 seconds of audio": the seconds a nominal ring holds (44_control.md R231). -/
abbrev ringSeconds : Nat := 30

/-- The send count that means the send failed (30_encoding.md R93, PK_SEND). -/
abbrev sendFailed : Word := 0xFFFFFFFF#32

/-- Free value (log 7): one less than `EXIT_FAIL`. The spec leaves `EXIT_FAIL` OPEN, "any non-zero value". -/
opaque exitFailPred : Nat

/-- `EXIT_FAIL`, the exit status of a fatal error: some non-zero value (60_exceptions.md R278). -/
abbrev exitFail : Nat := exitFailPred + 1

/-- Free value (log 10): the byte that PK_SEND takes for payload index `j` of the `p`-th datagram logged when
`PAYBUF[j]` is `none`. The spec gives that byte no value, and no run reaches the case (43_packetizer.md R208). -/
opaque unfilledByte : (p j : Nat) → Byte

/-- Free value (log 8): what CTL_RESET leaves in `DEST_ADDR`, "unspecified" in 10_state.md R45, when TRACE holds `n`
entries. -/
opaque unspecifiedAddr : (n : Nat) → Nat

end Sys2Proof.Config
end

