-- ==== Sys2Proof/Machine/State.lean ====
section
/-! DEFINITION. The block's state as plain data: the record S of 10_state.md R20, field by field, and beside it the
parameters of the step relation that R46 names (the HOST's memory, the pending operations, the order of turns), which
a deterministic step has to find in the state (log 1). Reset values are those of R45. -/

namespace Sys2Proof.Machine

open Sys2Proof

/-- `PHASE` (10_state.md R21). -/
inductive Phase where
  | config | ready | running | stopped | fatal
  deriving DecidableEq, Repr

/-- `CP_STATE` (R38). -/
inductive CpState where
  | idle | check | reading | commit
  deriving DecidableEq, Repr

/-- `PK_STATE` (R39). -/
inductive PkState where
  | off | top | poll | drain | wait | send | stopping | done
  deriving DecidableEq, Repr

/-- The errors of 60_exceptions.md R261 (`NONE` is no error: it is `ERR_CODE` 0x00). -/
inductive ErrName where
  | negNoformat | negRate | negDepth | rbCreateErr | streamStartErr
  | rbOverflow | captureReadErr | txSocket | txShort
  | advWriteRange | advReadRange | storeRange | loadRange | loadUnwritten
  | ownership | illegalOp | seqErr | hostProto
  deriving DecidableEq, Repr

/-- An error with the 32-bit value `ERR_INFO` keeps (R261). -/
structure Raise where
  err : ErrName
  info : Word
  deriving DecidableEq, Repr

/-- The five bytes of `HDR`, named by their field (30_encoding.md R99). -/
structure Header where
  rateCode : Byte
  bitDepth : Byte
  channelCount : Byte
  maskHigh : Byte
  maskLow : Byte
  deriving DecidableEq, Repr

/-- The result of an FN operation: `ok(v)` or `err(E, info)` (42_format_negotiator.md R180). -/
inductive FnResult (α : Type) where
  | ok (v : α)
  | err (x : Raise)
  deriving DecidableEq, Repr

/-- What a step hands back, as `TRACE` records it (R44; log 17). -/
inductive Result where
  /-- The operation stepped and returns nothing. -/
  | nothing
  /-- A count or a cell number, a natural (RB_CAPACITY, the pointer and count queries). -/
  | count (n : Nat)
  /-- The byte RB_LOAD read. -/
  | byte (b : Byte)
  /-- The value of a status register. -/
  | word (v : Word)
  /-- The result of FN_RATE_CODE and of FN_BIT_DEPTH. -/
  | fnByte (v : FnResult Byte)
  /-- The result of FN_BUILD_HEADER. -/
  | fnHeader (v : FnResult Header)
  /-- The result of FN_DECODE_RATE and of a wire pattern: a rate in Hz. -/
  | fnRate (v : FnResult Nat)
  /-- The step raised. -/
  | raised (x : Raise)
  /-- The operation had no step (60_exceptions.md R264). -/
  | noStep
  deriving DecidableEq, Repr

/-- Who stands behind a `TRACE` entry: an agent, or the reader of byte 0 of a datagram (log 13). -/
inductive Origin where
  | agent (a : Agent)
  | wire
  deriving DecidableEq, Repr

/-- An entry of `TRACE`: (agent, operation code, operands, result) (R44). -/
structure TraceEntry where
  origin : Origin
  txn : Txn
  result : Result
  deriving DecidableEq, Repr

/-- An entry of `TX_LOG`: (bytes, sent count) (R44). -/
structure TxEntry where
  bytes : List Byte
  sent : Word
  deriving DecidableEq, Repr

/-- An entry of `REPORT_LOG` (R44). -/
inductive Report where
  | ovf (count : Word)
  | fatal (code : Byte) (info : Word)
  | stop
  deriving DecidableEq, Repr

/-- A datagram on NET with the destination PK_SEND gave it (20_memory.md R60, 43_packetizer.md R205; log 14). -/
structure NetDatagram where
  addr : Nat
  port : BitVec 16
  bytes : List Byte
  deriving DecidableEq, Repr

/-- A byte memory: (address, byte) pairs, addresses strictly rising (Machine/Memory.lean says the form). -/
abbrev Memory := List Host.Cell

/-- The operations each agent issues, oldest first (log 1). -/
structure Pending where
  prod : List Txn
  cons : List Txn
  host : List Txn
  sig : List Txn
  deriving DecidableEq, Repr

/-- One turn of the interleaving (log 1): an agent steps; the reader of a datagram reads its byte 0 (log 13); the HOST
writes a byte of its own memory (log 9). -/
inductive Turn where
  | agent (a : Agent)
  | wire (b : Byte)
  | srcWrite (addr : Nat) (b : Byte)
  deriving DecidableEq, Repr

/-- `ERR_CODE` and `ERR_INFO` (R22). -/
structure ErrRegs where
  code : Byte
  info : Word
  deriving DecidableEq, Repr

/-- The format registers CTL_CONFIGURE writes: `RATE`, `BPS`, `BPF` (R25) and `HDR` (R26). -/
structure Format where
  rate : Word
  bps : Byte
  bpf : Byte
  hdr : Header
  deriving DecidableEq, Repr

/-- `DEST_ADDR`, `DEST_PORT` and `SOCK_OPEN` (R27). -/
structure Socket where
  addr : Nat
  port : BitVec 16
  isOpen : Bool
  deriving DecidableEq, Repr

/-- The ring buffer (R28–R32): `RB_EXISTS`, `CAP`, `RING` (the cells that hold a byte; every other cell is `none`), the
write cursor `W`, the read cursor `R`, the producer side's view `RP` of `R` and the consumer side's view `WC` of `W`. -/
structure Ring where
  present : Bool
  cap : Word
  cells : Memory
  w : Nat
  r : Nat
  rp : Nat
  wc : Nat
  deriving DecidableEq, Repr

/-- The CP engine (R38): `CP_STATE`, `CP_MIN`, `CP_MAX`, `CP_WF`, `CP_DONE`. -/
structure Producer where
  state : CpState
  min : Nat
  max : Nat
  wf : Nat
  done : Nat
  deriving DecidableEq, Repr

/-- The PK engine (R39): `PK_STATE`, `PAYBUF` (the cells that hold a byte; every other cell is `none`), `PK_FILLED`. -/
structure Packetizer where
  state : PkState
  paybuf : Memory
  filled : Nat
  deriving DecidableEq, Repr

/-- The model's own fields, no part of S: `SRC_MEM`, the HOST's memory (log 9); NET, oldest first (log 14); the turns and
the operations to come (log 1); the agent whose operation is being executed (log 15). -/
structure Env where
  srcMem : Memory
  net : List NetDatagram
  schedule : List Turn
  pending : Pending
  issuer : Agent
  deriving DecidableEq, Repr

/-- The state: the record S of R20, then the model's own fields in `env`. -/
structure State where
  /-- `PHASE` (R21). -/
  phase : Phase
  /-- `ERR_CODE`, `ERR_INFO` (R22). -/
  err : ErrRegs
  /-- `CANCEL` (R23). -/
  cancel : Bool
  /-- `OVF_COUNT` (R24). -/
  ovfCount : Word
  /-- `RATE`, `BPS`, `BPF`, `HDR` (R25, R26). -/
  fmt : Format
  /-- `DEST_ADDR`, `DEST_PORT`, `SOCK_OPEN` (R27). -/
  socket : Socket
  /-- `RB_EXISTS`, `CAP`, `RING`, `W`, `R`, `RP`, `WC` (R28–R32). -/
  ring : Ring
  /-- `CP_STATE`, `CP_MIN`, `CP_MAX`, `CP_WF`, `CP_DONE` (R38). -/
  cp : Producer
  /-- `PK_STATE`, `PAYBUF`, `PK_FILLED` (R39). -/
  pk : Packetizer
  /-- `TRACE` (R44), oldest first. -/
  trace : List TraceEntry
  /-- `TX_LOG` (R44), oldest first. -/
  txLog : List TxEntry
  /-- `REPORT_LOG` (R44), oldest first. -/
  reportLog : List Report
  /-- `EXIT` (R44). -/
  exit : Option Nat
  /-- The model's own fields. -/
  env : Env
  deriving DecidableEq, Repr

/-- The model has no faults: every error of the block is the trap of 60_exceptions.md R262, a next state (log 20). -/
inductive Fault where
  deriving DecidableEq, Repr

/-- Why a step has no meaning. -/
inductive Refusal where
  /-- Raised by `exec` for an instruction of the table that has no meaning yet; safe. No arm of this model uses it. -/
  | notModelled (mnemonic : String)
  /-- Raised by the fetch when a pending transaction's operand record is not one of its code: "a decode error in the
  model's transcriber, not a block behaviour" (30_encoding.md R93); safe (log 12). -/
  | transcriberError (e : DecodeError)
  deriving DecidableEq, Repr

/-- The ring registers without a ring: R45's values, which RB_DESTROY also writes (40_ring_buffer.md R133). -/
def Ring.absent : Ring := ⟨false, 0#32, [], 0, 0, 0, 0⟩

/-- The machine after power-on: R45's table, the observation logs empty (70_reset_and_hazards.md R290); nothing pending
and no turn to come (log 2). `DEST_ADDR` is unspecified in R45; the model's value here is 0 (log 8). -/
def State.reset : State where
  phase := .config
  err := ⟨0x00#8, 0#32⟩
  cancel := false
  ovfCount := 0#32
  fmt := ⟨0#32, 0#8, 0#8, ⟨0#8, 0#8, 0#8, 0#8, 0#8⟩⟩
  socket := ⟨0, Config.defaultPort, false⟩
  ring := Ring.absent
  cp := ⟨.idle, 0, 0, 0, 0⟩
  pk := ⟨.off, [], 0⟩
  trace := []
  txLog := []
  reportLog := []
  exit := none
  env := ⟨[], [], [], ⟨[], [], [], []⟩, .host⟩

end Sys2Proof.Machine
end

