-- ==== Sys2Proof/Machine/Memory.lean ====
section
/-! DEFINITION. The byte spaces of 20_memory.md R60 that hold data: RING, PAYBUF and SRC_MEM, as lists of
(address, byte) pairs in one canonical form, and the operations that keep it (log 21). -/

namespace Sys2Proof.Machine

open Sys2Proof

/-- The spaces of bytes the state holds (20_memory.md R60). -/
inductive Space where
  | ring | paybuf | srcMem
  deriving DecidableEq, Repr

/-- What an unlisted address reads as. A cell of RING or PAYBUF is `none` until something stores into it
(10_state.md R28, R39, R45); an address of the HOST's memory that the state does not list reads 0x00 (log 9). -/
def unlisted : Space → Option Byte
  | .ring => none
  | .paybuf => none
  | .srcMem => some 0x00#8

/-- The byte listed at an address. -/
def lookup (a : Nat) : Memory → Option Byte
  | [] => none
  | (x, b) :: m => if a = x then some b else lookup a m

/-- List a byte at an address, in place. -/
def insertCell (a : Nat) (b : Byte) : Memory → Memory
  | [] => [(a, b)]
  | (x, y) :: m =>
    if a < x then (a, b) :: (x, y) :: m
    else if a = x then (a, b) :: m
    else (x, y) :: insertCell a b m

/-- Unlist an address. -/
def eraseCell (a : Nat) : Memory → Memory
  | [] => []
  | (x, y) :: m => if a = x then m else (x, y) :: eraseCell a m

/-- Read one address: `none` is an empty cell. -/
def readMem (sp : Space) (m : Memory) (a : Nat) : Option Byte :=
  match lookup a m with
  | some b => some b
  | none => unlisted sp

/-- Write one address. Writing what an unlisted address reads as removes the entry. -/
def writeMem (sp : Space) (m : Memory) (a : Nat) (v : Option Byte) : Memory :=
  if v = unlisted sp then eraseCell a m
  else
    match v with
    | some b => insertCell a b m
    | none => eraseCell a m

/-- The canonical form: addresses strictly rising, and no entry equal to what an unlisted address reads as. -/
abbrev Memory.wf (sp : Space) (m : Memory) : Prop :=
  m.Pairwise (fun x y => x.1 < y.1) ∧ ∀ c ∈ m, some c.2 ≠ unlisted sp

/-- Every listed address is below a bound: the cells of RING are 0..CAP−1, those of PAYBUF 0..1151. -/
abbrev Memory.below (n : Nat) (m : Memory) : Prop := ∀ c ∈ m, c.1 < n

end Sys2Proof.Machine
end

