-- ==== Sys2Proof/Machine/Operands.lean ====
section
/-! DEFINITION. Every form in which an operation's operands and the state's counters give a number: `info` values,
region offsets and cell numbers, the counts each side sees, sample addresses, the nominal capacity. Outside the
conditions of 00_scope.md R10, in states no run reaches, subtraction and division are those of naturals (log 11). -/

namespace Sys2Proof.Machine

open Sys2Proof

/-- `n mod 2^32`, the low 32 bits of a natural (60_exceptions.md R261, 10_state.md R42). -/
def lowWord (n : Nat) : Word := BitVec.ofNat 32 n

/-- `zext_32` of a byte (00_scope.md R10). -/
def zextByte (b : Byte) : Word := b.setWidth 32

/-- `BPS` as a number. -/
def Format.bytesPerSample (f : Format) : Nat := f.bps.toNat

/-- `BPF` as a number. -/
def Format.bytesPerFrame (f : Format) : Nat := f.bpf.toNat

/-! ## The ring's numbers -/

/-- `CAP` as a number. -/
def Ring.capacity (q : Ring) : Nat := q.cap.toNat

/-- `fill = W − R` (10_state.md R33). -/
def Ring.fill (q : Ring) : Nat := q.w - q.r

/-- `free = CAP − fill` (R33). -/
def Ring.free (q : Ring) : Nat := q.capacity - q.fill

/-- `free_p = CAP − (W − RP)`, what PROD sees free (R33). -/
def Ring.freeProd (q : Ring) : Nat := q.capacity - (q.w - q.rp)

/-- `fill_c = WC − R`, what CONS sees filled (R33). -/
def Ring.fillCons (q : Ring) : Nat := q.wc - q.r

/-- The cell of a stream position (R36). -/
def Ring.cellOf (q : Ring) (pos : Nat) : Nat := pos % q.capacity

/-- The cell a write-side offset names (20_memory.md R61). -/
def Ring.writeCell (q : Ring) (k : Nat) : Nat := q.cellOf (q.w + k)

/-- The cell a read-side offset names (20_memory.md R61). -/
def Ring.readCell (q : Ring) (k : Nat) : Nat := q.cellOf (q.r + k)

/-- What a ring cell holds (10_state.md R28). -/
def Ring.at (q : Ring) (cell : Nat) : Option Byte := readMem .ring q.cells cell

/-- What the cell of a stream position holds (R36). -/
def Ring.holds (q : Ring) (pos : Nat) : Option Byte := q.at (q.cellOf pos)

/-! ## The capture producer's numbers -/

/-- `MemRead(a, 1)` (20_memory.md R62). An unlisted address of SRC_MEM reads a byte, so the last case is never taken. -/
def memRead (m : Memory) (a : Nat) : Byte :=
  match readMem .srcMem m a with
  | some b => b
  | none => 0x00#8

/-- The offset from an invocation's start of sample byte `b` of channel `c` of frame `f` (30_encoding.md R105). -/
def Format.offset (x : Format) (f c b : Nat) : Nat := f * x.bytesPerFrame + c * x.bytesPerSample + b

/-- The area pointer and step of a channel: channel 0 is `p0`, `s0`, channel 1 is `p1`, `s1` (41 R154). -/
def areaOf (p0 s0 p1 s1 : Nat) (c : Nat) : Nat × Nat := if c = 0 then (p0, s0) else (p1, s1)

/-- The address of sample byte `b` of channel `c` of frame `f` of an area answer: `p_c + f × s_c + b` (R154). -/
def areaAddr (p0 s0 p1 s1 : Nat) (f c b : Nat) : Nat :=
  (areaOf p0 s0 p1 s1 c).1 + f * (areaOf p0 s0 p1 s1 c).2 + b

/-- The stores of a hole answer of `k` frames, in order (R153). -/
def holeStores (s : State) (k : Nat) : List (Nat × Byte) :=
  (List.range (k * s.fmt.bytesPerFrame)).map fun j => (s.cp.done * s.fmt.bytesPerFrame + j, 0x00#8)

/-- The stores of an area answer of `k` frames, in order: frames, then channels, then sample bytes (R154). -/
def areaStores (s : State) (k p0 s0 p1 s1 : Nat) : List (Nat × Byte) :=
  (List.range k).flatMap fun f =>
    (List.range Config.channels).flatMap fun c =>
      (List.range s.fmt.bytesPerSample).map fun b =>
        (s.fmt.offset (s.cp.done + f) c b, memRead s.env.srcMem (areaAddr p0 s0 p1 s1 f c b))

/-- The frames that fit into PROD's view of the free space: `free_p div BPF` (41 R152). -/
def State.freeFrames (s : State) : Nat := s.ring.freeProd / s.fmt.bytesPerFrame

/-- The frames an invocation still has to deliver (R153). -/
def Producer.framesLeft (p : Producer) : Nat := p.wf - p.done

/-! ## The configuration's numbers -/

/-- The capacity CTL_CONFIGURE asks for: the operand, or for 0 the nominal `30 × rate × NCH × bps` (44 R231). -/
def requestedCapacity (rate : Word) (bps : Byte) (cap : Word) : Nat :=
  if cap = 0#32 then Config.ringSeconds * rate.toNat * Config.channels * bps.toNat else cap.toNat

/-- `NCH × bps` in the 8 bits of `BPF` (10_state.md R25). -/
def frameBytes (bps : Byte) : Byte := BitVec.ofNat 8 (Config.channels * bps.toNat)

/-! ## The packetizer's numbers -/

/-- What a payload cell holds (R39). -/
def Packetizer.at (p : Packetizer) (j : Nat) : Option Byte := readMem .paybuf p.paybuf j

/-- The bytes PK_DRAIN moves: `min(fill_c, PAYLOAD − PK_FILLED)` (43 R203). -/
def State.drainCount (s : State) : Nat := min s.ring.fillCons (Config.payloadLen - s.pk.filled)

/-- The header as it is sent, byte 0 first (30_encoding.md R99). -/
def Header.bytes (h : Header) : List Byte := [h.rateCode, h.bitDepth, h.channelCount, h.maskHigh, h.maskLow]

/-- The byte PK_SEND takes for payload index `j`. A `none` cell has no byte the spec states: a free value, one for
each datagram logged and each index (log 10). -/
def State.payloadByte (s : State) (j : Nat) : Byte :=
  match s.pk.at j with
  | some b => b
  | none => Config.unfilledByte s.txLog.length j

/-- The payload bytes, 1152 of them (43 R205). -/
def State.payload (s : State) : List Byte := (List.range Config.payloadLen).map s.payloadByte

/-- The datagram: `HDR[0..4]` followed by the payload, 1157 bytes (30_encoding.md R99, 43 R205). -/
def State.datagram (s : State) : List Byte := s.fmt.hdr.bytes ++ s.payload

/-! ## Finite cursors -/

/-- The count two cursors kept modulo `M` give (40_ring_buffer.md R136). -/
def boundedCount (M w r : Nat) : Nat := (w % M + M - r % M) % M

/-- The cell a cursor kept modulo `M` gives (R136). -/
def boundedCell (M cap w k : Nat) : Nat := (w % M + k) % cap

end Sys2Proof.Machine
end

