-- ==== Sys2Proof/Machine/Flags.lean ====
section
/-! DEFINITION. The flags and control states as numbers: their encodings (10_state.md R21, R38, R39), the codes of the
errors (60_exceptions.md R261), the STATUS word (R43), the status registers (R42), and the conditions on the phase
that operations check (40_ring_buffer.md R120, 60_exceptions.md R264). The block has no arithmetic flags (R41). -/

namespace Sys2Proof.Machine

open Sys2Proof

/-- The encoding of `PHASE` (R21). -/
def phaseCode : Phase → Nat
  | .config => 0
  | .ready => 1
  | .running => 2
  | .stopped => 3
  | .fatal => 4

/-- The encoding of `CP_STATE` (R38). -/
def cpStateCode : CpState → Nat
  | .idle => 0
  | .check => 1
  | .reading => 2
  | .commit => 3

/-- The encoding of `PK_STATE` (R39). -/
def pkStateCode : PkState → Nat
  | .off => 0
  | .top => 1
  | .poll => 2
  | .drain => 3
  | .wait => 4
  | .send => 5
  | .stopping => 6
  | .done => 7

/-- The codes of the error table (60_exceptions.md R261). -/
def errCodeOf : ErrName → Byte
  | .negNoformat => 0x01#8
  | .negRate => 0x02#8
  | .negDepth => 0x03#8
  | .rbCreateErr => 0x04#8
  | .streamStartErr => 0x05#8
  | .rbOverflow => 0x10#8
  | .captureReadErr => 0x11#8
  | .txSocket => 0x20#8
  | .txShort => 0x21#8
  | .advWriteRange => 0x30#8
  | .advReadRange => 0x31#8
  | .storeRange => 0x32#8
  | .loadRange => 0x33#8
  | .loadUnwritten => 0x34#8
  | .ownership => 0x35#8
  | .illegalOp => 0x36#8
  | .seqErr => 0x37#8
  | .hostProto => 0x38#8

/-- An error of code 0x30 or more is a model fault, a smaller one a fatal condition of the source (R260). -/
def isModelFault (e : ErrName) : Bool := decide (0x30 ≤ (errCodeOf e).toNat)

/-- STOPPED and FATAL are dead (60_exceptions.md R264). -/
def isDead : Phase → Bool
  | .stopped => true
  | .fatal => true
  | .config => false
  | .ready => false
  | .running => false

/-- A bit at a place of a word. -/
def bitAt (v : Bool) (place : Nat) : Nat := if v then 2 ^ place else 0

/-- STATUS: PHASE in [2:0], CANCEL [3], SOCK_OPEN [4], RB_EXISTS [5], CP_STATE [7:6], PK_STATE [10:8], the rest 0 (R43). -/
def statusWord (s : State) : Word :=
  BitVec.ofNat 32 (phaseCode s.phase + bitAt s.cancel 3 + bitAt s.socket.isOpen 4 + bitAt s.ring.present 5
    + cpStateCode s.cp.state * 2 ^ 6 + pkStateCode s.pk.state * 2 ^ 8)

/-- HDR_LO: `HDR[0] | HDR[1]<<8 | HDR[2]<<16 | HDR[3]<<24` (R42). -/
def hdrLow (h : Header) : Word := h.maskHigh ++ h.channelCount ++ h.bitDepth ++ h.rateCode

/-- The status registers (R42); reserved numbers read 0. -/
def csr (s : State) (n : Byte) : Word :=
  match n.toNat with
  | 0x00 => statusWord s
  | 0x01 => zextByte s.err.code
  | 0x02 => s.err.info
  | 0x03 => s.ovfCount
  | 0x04 => s.ring.cap
  | 0x05 => lowWord s.ring.w
  | 0x06 => lowWord s.ring.r
  | 0x07 => hdrLow s.fmt.hdr
  | 0x08 => zextByte s.fmt.hdr.maskLow
  | 0x09 => s.fmt.rate
  | 0x0A => zextByte s.fmt.bps
  | 0x0B => s.socket.port.setWidth 32
  | 0x0C => lowWord s.pk.filled
  | 0x0D => lowWord s.cp.wf
  | 0x0E => lowWord s.cp.done
  | 0x0F => lowWord s.ring.rp
  | 0x10 => lowWord s.ring.wc
  | _ => 0#32

/-- The guard of a direct data operation on the ring: the standalone FIFO use in CONFIG (40_ring_buffer.md R120). -/
def State.standalone (s : State) : Bool := decide (s.phase = .config) && s.ring.present

/-- The guard of the two view copies (R120): the ring exists and the phase is CONFIG, READY or RUNNING. -/
def State.syncable (s : State) : Bool := s.ring.present && !isDead s.phase

/-- The guard of RB_CREATE and CTL_CONFIGURE: CONFIG and no ring (R120, 44_control.md R231). -/
def State.creatable (s : State) : Bool := decide (s.phase = .config) && !s.ring.present

/-- The guard of a CP rule: RUNNING and its engine state (41_capture_producer.md R150). -/
def State.cpIn (s : State) (x : CpState) : Bool := decide (s.phase = .running) && decide (s.cp.state = x)

/-- The guard of a PK rule: RUNNING and its engine state (43_packetizer.md R200). -/
def State.pkIn (s : State) (x : PkState) : Bool := decide (s.phase = .running) && decide (s.pk.state = x)

/-- The stream is being stopped: PK_STATE is STOPPING or DONE (41_capture_producer.md R151). -/
def State.stopping (s : State) : Bool := decide (s.pk.state = .stopping) || decide (s.pk.state = .done)

end Sys2Proof.Machine
end

