-- ==== Sys2Proof/Machine/Ops.lean ====
section
/-! DEFINITION. The shared operations: the trap (60_exceptions.md R262) and the reset that alone leaves it (R265), the
ring's operations as engine rules use them (40_ring_buffer.md R120–R133), the pending queues, and the one path every
operation takes from being issued to its outcome, in the check order of R268. -/

namespace Sys2Proof.Machine

open Sys2Proof

/-! ## The trap, and leaving it -/

/-- Trap entry: exactly the writes of R262. -/
def trapEntry (x : Raise) (s : State) : State :=
  { s with
    err := ⟨errCodeOf x.err, x.info⟩
    phase := .fatal
    reportLog := s.reportLog ++ [.fatal (errCodeOf x.err) x.info]
    exit := some Config.exitFail }

/-- CTL_RESET's writes: every field of S but the three logs to its reset value (44_control.md R230). `DEST_ADDR`'s is
"unspecified" (10_state.md R45): a free value (log 8). The model's own fields are no fields of S and stay. -/
def resetBlock (s : State) : State :=
  { State.reset with
    socket := { State.reset.socket with addr := Config.unspecifiedAddr s.trace.length }
    trace := s.trace
    txLog := s.txLog
    reportLog := s.reportLog
    env := s.env }

/-! ## The ring's operations, as a rule's statements use them -/

/-- RB_CREATE's statements (40_ring_buffer.md R121). -/
def ringCreate (cap : Word) : Except Raise Ring :=
  if cap = 0#32 then .error ⟨.rbCreateErr, 0#32⟩ else .ok ⟨true, cap, [], 0, 0, 0, 0⟩

/-- RB_STORE's statements (R125). -/
def ringStore (k : Nat) (b : Byte) (q : Ring) : Except Raise Ring :=
  if q.freeProd ≤ k then .error ⟨.storeRange, lowWord k⟩
  else .ok { q with cells := writeMem .ring q.cells (q.writeCell k) (some b) }

/-- RB_ADVANCE_WRITE's statements (R126). -/
def ringAdvanceWrite (n : Nat) (q : Ring) : Except Raise Ring :=
  if q.freeProd < n then .error ⟨.advWriteRange, lowWord n⟩ else .ok { q with w := q.w + n }

/-- RB_LOAD's statements (R129). -/
def ringLoad (k : Nat) (q : Ring) : Except Raise Byte :=
  if q.fillCons ≤ k then .error ⟨.loadRange, lowWord k⟩
  else
    match q.at (q.readCell k) with
    | none => .error ⟨.loadUnwritten, lowWord (q.r + k)⟩
    | some b => .ok b

/-- Set the cells of `n` stream positions from `pos` on to `none` (R130). -/
def releaseCells (cap pos : Nat) : Nat → Memory → Memory
  | 0, m => m
  | n + 1, m => writeMem .ring (releaseCells cap pos n m) ((pos + n) % cap) none

/-- RB_ADVANCE_READ's statements (R130). -/
def ringAdvanceRead (n : Nat) (q : Ring) : Except Raise Ring :=
  if q.fillCons < n then .error ⟨.advReadRange, lowWord n⟩
  else .ok { q with cells := releaseCells q.capacity q.r n q.cells, r := q.r + n }

/-- RB_SYNC_R2P's statement (R131). -/
def ringSyncR2p (q : Ring) : Ring := { q with rp := q.r }

/-- RB_SYNC_W2C's statement (R132). -/
def ringSyncW2c (q : Ring) : Ring := { q with wc := q.w }

/-- A sequence of RB_STOREs, stopping at the first that raises (41_capture_producer.md R153, R154). -/
def ringStoreAll : List (Nat × Byte) → Ring → Except Raise Ring
  | [], q => .ok q
  | (k, b) :: rest, q =>
    match ringStore k b q with
    | .error x => .error x
    | .ok q' => ringStoreAll rest q'

/-- RB_LOAD at `n` offsets from `k` on, in order, stopping at the first that raises (43_packetizer.md R203). -/
def ringLoadAll (k : Nat) : Nat → Ring → Except Raise (List Byte)
  | 0, _ => .ok []
  | n + 1, q =>
    match ringLoad k q with
    | .error x => .error x
    | .ok b =>
      match ringLoadAll (k + 1) n q with
      | .error x => .error x
      | .ok bs => .ok (b :: bs)

/-- Put bytes into PAYBUF from index `j` on (43_packetizer.md R203). -/
def putPayload (j : Nat) : List Byte → Memory → Memory
  | [], m => m
  | b :: bs, m => putPayload (j + 1) bs (writeMem .paybuf m j (some b))

/-- The state with another ring. -/
def withRing (s : State) (q : Ring) : State := { s with ring := q }

/-! ## Pending operations -/

/-- The operations an agent has pending. -/
def pendingOf (p : Pending) : Agent → List Txn
  | .prod => p.prod
  | .cons => p.cons
  | .host => p.host
  | .sig => p.sig

/-- Replace the operations an agent has pending. -/
def setPending (p : Pending) (a : Agent) (ts : List Txn) : Pending :=
  match a with
  | .prod => { p with prod := ts }
  | .cons => { p with cons := ts }
  | .host => { p with host := ts }
  | .sig => { p with sig := ts }

/-- A held operation "has no step now and stays pending" (00_scope.md R13): it is again its agent's next (log 4). -/
def stayPending (t : Txn) (s : State) : State :=
  { s with
    env := { s.env with
      pending := setPending s.env.pending s.env.issuer (t :: pendingOf s.env.pending s.env.issuer) } }

/-! ## Ownership -/

/-- The owner column of the opcode table: one agent, or any (60_exceptions.md R271). -/
def ownerOf (c : Byte) : Option Agent :=
  match unitOf c, fnOf c with
  | 0, 0 => some .host
  | 0, 1 => none
  | 0, 2 => some .prod
  | 0, 3 => some .prod
  | 0, 4 => some .prod
  | 0, 5 => some .prod
  | 0, 6 => some .prod
  | 0, 7 => some .cons
  | 0, 8 => some .cons
  | 0, 9 => some .cons
  | 0, 10 => some .cons
  | 0, 11 => some .cons
  | 0, 12 => some .host
  | 1, 0 => some .host
  | 1, 1 => some .prod
  | 1, 2 => some .prod
  | 1, 3 => some .prod
  | 1, 4 => some .prod
  | 1, 5 => some .prod
  | 1, 6 => some .host
  | 2, _ => some .host
  | 3, _ => some .cons
  | 4, 0 => some .host
  | 4, 1 => some .host
  | 4, 2 => some .host
  | 4, 3 => some .host
  | 4, 4 => some .sig
  | 4, 5 => none
  | _, _ => none

/-- An agent may issue an operation: it owns it, or any agent may (R271). -/
def mayIssue (c : Byte) (a : Agent) : Bool :=
  match ownerOf c with
  | none => true
  | some o => decide (a = o)

/-! ## From issue to outcome -/

/-- What a rule's statements come to (00_scope.md R12, R13). -/
inductive Act where
  /-- The operation steps: the state it leaves and what it returns. -/
  | done (s : State) (r : Result)
  /-- The operation raises; `kept` is the state without the rule's own writes, but for those R263 keeps. -/
  | raise (kept : State) (x : Raise)
  /-- The operation has no step; the attempt is recorded (60_exceptions.md R264; log 5). -/
  | noStep
  /-- The operation holds. -/
  | hold

/-- The outcome of statements that either leave a state or raise, and return nothing. -/
def actOf (s : State) : Except Raise State → Act
  | .ok s' => .done s' .nothing
  | .error x => .raise s x

/-- The outcome of statements on the ring alone, which return nothing. -/
def ringActOf (s : State) : Except Raise Ring → Act
  | .ok q => .done (withRing s q) .nothing
  | .error x => .raise s x

/-- Append an entry to TRACE (10_state.md R44). -/
def record (o : Origin) (t : Txn) (r : Result) (s : State) : State :=
  { s with trace := s.trace ++ [⟨o, t, r⟩] }

/-- The state an operation leaves: its effect, or the trap, or nothing, with its TRACE entry; a held operation leaves
no entry and stays pending. -/
def settle (t : Txn) (s : State) : Act → State
  | .done s' r => record (.agent s.env.issuer) t r s'
  | .raise kept x => record (.agent s.env.issuer) t (.raised x) (trapEntry x kept)
  | .noStep => record (.agent s.env.issuer) t .noStep s
  | .hold => stayPending t s

/-- The checks of R268 between the reserved-code check and the rule's own statements: ownership, then the guard. -/
def checked (t : Txn) (guard : Bool) (body : Act) (s : State) : Act :=
  if mayIssue t.code s.env.issuer then
    if guard then body else .raise s ⟨.seqErr, zextByte t.code⟩
  else .raise s ⟨.ownership, zextByte t.code⟩

/-- An operation is issued: the checks of R268 in order, then its statements. A dead phase comes first (R264). -/
def issue (i : Instr) (guard : Bool) (body : Act) (s : State) : Host.Outcome State Fault Refusal :=
  .next (settle (recordOf i) s (if isDead s.phase then .noStep else checked (recordOf i) guard body s))

/-- CTL_RESET and CTL_CSR_READ step in dead phases too (R264), so their ownership check comes first there as well. In
FATAL alone an agent that does not own the operation has no step: no second error is raised there (R265, R22; log 6). -/
def issueAlways (i : Instr) (body : Act) (s : State) : Host.Outcome State Fault Refusal :=
  .next (settle (recordOf i) s
    (if s.phase = .fatal ∧ mayIssue (recordOf i).code s.env.issuer = false then .noStep
     else checked (recordOf i) true body s))

/-- A reserved code: ILLEGAL_OP, but no step in a dead phase (30_encoding.md R95). -/
def illegalOp (t : Txn) (s : State) : State :=
  settle t s (if isDead s.phase then .noStep else .raise s ⟨.illegalOp, zextByte t.code⟩)

end Sys2Proof.Machine
end

