-- ==== Sys2Proof/Machine/CaptureProducer.lean ====
section
/-! DEFINITION. The capture producer's operations (41_capture_producer.md R150–R157). -/

namespace Sys2Proof.Machine

open Sys2Proof

/-- CP_INVOKE (R151): no step while the stream is stopping. -/
def execCpInvoke (min max : Nat) (s : State) : Host.Outcome State Fault Refusal :=
  issue (.cpInvoke min max) (s.cpIn .idle)
    (if s.stopping then .noStep
     else if max < min then .raise s ⟨.hostProto, 0x20#32⟩
     else .done { s with cp := { s.cp with state := .check, min := min, max := max } } .nothing) s

/-- The write size CP_CHECK chooses: `min(ff, CP_MAX)` (R152). -/
def State.writeFrames (s : State) : Nat := Nat.min s.freeFrames s.cp.max

/-- CP_CHECK (R152): the overflow test and the choice of the write size. -/
def execCpCheck (s : State) : Host.Outcome State Fault Refusal :=
  issue .cpCheck (s.cpIn .check)
    (if s.freeFrames < s.cp.min then .raise s ⟨.rbOverflow, lowWord s.freeFrames⟩
     else .done
       { s with
         cp := { s.cp with
           state := if s.writeFrames = 0 then .commit else .reading
           wf := s.writeFrames
           done := 0 } } .nothing) s

/-- The producer's registers after a sub-read of `k` frames: the count, and COMMIT when it was the last (R153). -/
def Producer.after (p : Producer) (k : Nat) : Producer :=
  { p with done := p.done + k, state := if p.done + k = p.wf then .commit else p.state }

/-- A sub-read answer of `k` frames (R153, R154): refused unless it covers 1..remaining frames, then the stores in
order, then the count, then READING or COMMIT. -/
def subread (k : Nat) (stores : List (Nat × Byte)) (s : State) : Act :=
  if k = 0 ∨ s.cp.framesLeft < k then .raise s ⟨.hostProto, lowWord k⟩
  else
    match ringStoreAll stores s.ring with
    | .error x => .raise s x
    | .ok q => .done { s with ring := q, cp := s.cp.after k } .nothing

/-- CP_SUBREAD_HOLE (R153): silence, 0x00 whatever the format. -/
def execCpSubreadHole (k : Nat) (s : State) : Host.Outcome State Fault Refusal :=
  issue (.cpSubreadHole k) (s.cpIn .reading) (subread k (holeStores s k) s) s

/-- CP_SUBREAD_AREAS (R154): the interleaved copy from SRC_MEM. -/
def execCpSubreadAreas (k p0 s0 p1 s1 : Nat) (s : State) : Host.Outcome State Fault Refusal :=
  issue (.cpSubreadAreas k p0 s0 p1 s1) (s.cpIn .reading) (subread k (areaStores s k p0 s0 p1 s1) s) s

/-- CP_SUBREAD_ERR (R155): always fatal. -/
def execCpSubreadErr (e : Word) (s : State) : Host.Outcome State Fault Refusal :=
  issue (.cpSubreadErr e) (s.cpIn .reading) (.raise s ⟨.captureReadErr, e⟩) s

/-- CP_COMMIT (R156): one advance of the write cursor by the whole invocation. -/
def execCpCommit (s : State) : Host.Outcome State Fault Refusal :=
  issue .cpCommit (s.cpIn .commit)
    (match ringAdvanceWrite (s.cp.wf * s.fmt.bytesPerFrame) s.ring with
     | .error x => .raise s x
     | .ok q => .done { s with ring := q, cp := { s.cp with state := .idle } } .nothing) s

/-- CP_OVF_NOTIFY (R157): in any engine state of RUNNING; the report carries the count after the increment. -/
def execCpOvfNotify (s : State) : Host.Outcome State Fault Refusal :=
  issue .cpOvfNotify (decide (s.phase = .running))
    (.done { s with ovfCount := s.ovfCount + 1#32, reportLog := s.reportLog ++ [.ovf (s.ovfCount + 1#32)] } .nothing) s

end Sys2Proof.Machine
end

