-- ==== Sys2Proof/Machine/FormatNegotiator.lean ====
section
/-! DEFINITION. The format negotiator (42_format_negotiator.md R180–R184): pure functions, the operations that return
their results, and the two wire patterns of byte 0 of a datagram (30_encoding.md R106). -/

namespace Sys2Proof.Machine

open Sys2Proof

/-- FN_RATE_CODE's function (R181): the 44100 family first, then the 48000 family, multipliers 1..127. -/
def rateCode (rate : Word) : FnResult Byte :=
  if 1 ≤ rate.toNat ∧ rate.toNat % 44100 = 0 ∧ rate.toNat / 44100 ≤ 127 then
    .ok (0x80#8 ||| BitVec.ofNat 8 (rate.toNat / 44100))
  else if 1 ≤ rate.toNat ∧ rate.toNat % 48000 = 0 ∧ rate.toNat / 48000 ≤ 127 then
    .ok (BitVec.ofNat 8 (rate.toNat / 48000))
  else .err ⟨.negRate, rate⟩

/-- FN_BIT_DEPTH's function (R182): the container size. -/
def bitDepth (bps : Byte) : FnResult Byte :=
  if 1 ≤ bps.toNat ∧ bps.toNat ≤ 4 then .ok (BitVec.ofNat 8 (8 * bps.toNat)) else .err ⟨.negDepth, zextByte bps⟩

/-- The header of a rate code and a bit depth: `[rc, bd, NCH, CHMASK[15:8], CHMASK[7:0]]` (R183, 44_control.md R231). -/
def headerOf (rc bd : Byte) : Header :=
  ⟨rc, bd, BitVec.ofNat 8 Config.channels, Config.channelMask.extractLsb' 8 8, Config.channelMask.extractLsb' 0 8⟩

/-- FN_BUILD_HEADER's function (R183): the rate error wins over the depth error. -/
def buildHeader (rate : Word) (bps : Byte) : FnResult Header :=
  match rateCode rate with
  | .err x => .err x
  | .ok rc =>
    match bitDepth bps with
    | .err x => .err x
    | .ok bd => .ok (headerOf rc bd)

/-- The rate of a family bit and a multiplier: `(FAM ? 44100 : 48000) × MULT` (30_encoding.md R101). -/
def familyRate (fam : Bool) (mult : BitVec 7) : Nat := (if fam then 44100 else 48000) * mult.toNat

/-- FN_DECODE_RATE's function (R184), total on all 256 codes. -/
def decodeRate (code : Byte) : Nat := familyRate (code.getLsbD 7) (multOf code)

/-- FN_RATE_CODE (R181). It never raises on its own account and may be issued in CONFIG, READY or RUNNING (R180). -/
def execFnRateCode (rate : Word) (s : State) : Host.Outcome State Fault Refusal :=
  issue (.fnRateCode rate) true (.done s (.fnByte (rateCode rate))) s

/-- FN_BIT_DEPTH (R182). -/
def execFnBitDepth (bps : Byte) (s : State) : Host.Outcome State Fault Refusal :=
  issue (.fnBitDepth bps) true (.done s (.fnByte (bitDepth bps))) s

/-- FN_BUILD_HEADER (R183). -/
def execFnBuildHeader (rate : Word) (bps : Byte) (s : State) : Host.Outcome State Fault Refusal :=
  issue (.fnBuildHeader rate bps) true (.done s (.fnHeader (buildHeader rate bps))) s

/-- FN_DECODE_RATE (R184). -/
def execFnDecodeRate (code : Byte) (s : State) : Host.Outcome State Fault Refusal :=
  issue (.fnDecodeRate code) true (.done s (.fnRate (.ok (decodeRate code)))) s

/-- Reading byte 0 of a datagram: R184's formula on the byte, returned to the reader. It is no agent's operation, so no
ownership is checked; in a dead phase it has no step, as R180 says of FN operations (log 13). -/
def readWire (i : Instr) (rate : Nat) (s : State) : Host.Outcome State Fault Refusal :=
  .next (record .wire (recordOf i) (if isDead s.phase then .noStep else .fnRate (.ok rate)) s)

/-- RATE_44K1: `1mmmmmmm` is the rate 44100 × m (R184, 30_encoding.md R106). -/
def execRate44k1 (m : BitVec 7) (s : State) : Host.Outcome State Fault Refusal :=
  readWire (.rate44k1 m) (familyRate true m) s

/-- RATE_48K: `0mmmmmmm` is the rate 48000 × m (R184, 30_encoding.md R106). -/
def execRate48k (m : BitVec 7) (s : State) : Host.Outcome State Fault Refusal :=
  readWire (.rate48k m) (familyRate false m) s

end Sys2Proof.Machine
end

