-- ==== Sys2Proof/Machine/Control.lean ====
section
/-! DEFINITION. The control unit's operations (44_control.md R230–R235). -/

namespace Sys2Proof.Machine

open Sys2Proof

/-- CTL_RESET (R230): steps in every phase. -/
def execCtlReset (s : State) : Host.Outcome State Fault Refusal :=
  issueAlways .ctlReset (.done (resetBlock s) .nothing) s

/-- CTL_CONFIGURE's statements (R231): the checks in the rule's order, then the configuration, the ring, READY. -/
def configure (found : Bool) (rate : Word) (bps : Byte) (cap : Word) (allocOk : Bool) (s : State) :
    Except Raise State :=
  if found = false then .error ⟨.negNoformat, 0#32⟩
  else
    match rateCode rate with
    | .err x => .error x
    | .ok rc =>
      match bitDepth bps with
      | .err x => .error x
      | .ok bd =>
        if allocOk = false then .error ⟨.rbCreateErr, lowWord (requestedCapacity rate bps cap)⟩
        else
          match ringCreate (lowWord (requestedCapacity rate bps cap)) with
          | .error x => .error x
          | .ok q => .ok { s with fmt := ⟨rate, bps, frameBytes bps, headerOf rc bd⟩, ring := q, phase := .ready }

/-- CTL_CONFIGURE (R231). A raise performs none of the rule's writes: "no partial operation". -/
def execCtlConfigure (found : Bool) (rate : Word) (bps : Byte) (cap : Word) (allocOk : Bool) (s : State) :
    Host.Outcome State Fault Refusal :=
  issue (.ctlConfigure found rate bps cap allocOk) s.creatable
    (actOf s (configure found rate bps cap allocOk s)) s

/-- CTL_SOCKET_OPEN (R232): once, in CONFIG or READY. -/
def execCtlSocketOpen (ok : Bool) (addr : Nat) (port : BitVec 16) (s : State) : Host.Outcome State Fault Refusal :=
  issue (.ctlSocketOpen ok addr port)
    ((decide (s.phase = .config) || decide (s.phase = .ready)) && !s.socket.isOpen)
    (if ok then .done { s with socket := ⟨addr, port, true⟩ } .nothing
     else .raise s ⟨.txSocket, 0#32⟩) s

/-- CTL_START (R233). -/
def execCtlStart (ok : Bool) (s : State) : Host.Outcome State Fault Refusal :=
  issue (.ctlStart ok) (decide (s.phase = .ready) && s.socket.isOpen)
    (if ok then .done { s with phase := .running, pk := { s.pk with state := .top } } .nothing
     else .raise s ⟨.streamStartErr, 0#32⟩) s

/-- CTL_CANCEL (R234): sticky; steps in CONFIG, READY and RUNNING. -/
def execCtlCancel (s : State) : Host.Outcome State Fault Refusal :=
  issue .ctlCancel true (.done { s with cancel := true } .nothing) s

/-- CTL_CSR_READ (R235): any agent, every phase, no side effect but its TRACE entry. -/
def execCtlCsrRead (n : Byte) (s : State) : Host.Outcome State Fault Refusal :=
  issueAlways (.ctlCsrRead n) (.done s (.word (csr s n))) s

end Sys2Proof.Machine
end

