-- ==== Sys2Proof/Machine/Packetizer.lean ====
section
/-! DEFINITION. The packetizer's operations (43_packetizer.md R200–R206). -/

namespace Sys2Proof.Machine

open Sys2Proof

/-- The state with the packetizer's engine in another state. -/
def pkGoto (s : State) (x : PkState) : State := { s with pk := { s.pk with state := x } }

/-- PK_TOP (R201): the only reader of CANCEL. -/
def execPkTop (s : State) : Host.Outcome State Fault Refusal :=
  issue .pkTop (s.pkIn .top) (.done (pkGoto s (if s.cancel then .stopping else .poll)) .nothing) s

/-- PK_POLL (R202): changes no data state. -/
def execPkPoll (s : State) : Host.Outcome State Fault Refusal :=
  issue .pkPoll (s.pkIn .poll) (.done (pkGoto s .drain) .nothing) s

/-- The packetizer's registers after a drain of some bytes (R203). -/
def Packetizer.after (p : Packetizer) (bytes : List Byte) : Packetizer :=
  { paybuf := putPayload p.filled bytes p.paybuf
    filled := p.filled + bytes.length
    state := if p.filled + bytes.length = Config.payloadLen then .send else .wait }

/-- PK_DRAIN's statements (R203): load `k` bytes, put them into PAYBUF, release them, SEND or WAIT. -/
def drain (s : State) : Except Raise State :=
  match ringLoadAll 0 s.drainCount s.ring with
  | .error x => .error x
  | .ok bytes =>
    match ringAdvanceRead s.drainCount s.ring with
    | .error x => .error x
    | .ok q => .ok { s with ring := q, pk := s.pk.after bytes }

/-- PK_DRAIN (R203). -/
def execPkDrain (s : State) : Host.Outcome State Fault Refusal :=
  issue .pkDrain (s.pkIn .drain) (actOf s (drain s)) s

/-- PK_WAIT (R204): the wait is one step; its length is not modelled (log 19). -/
def execPkWait (s : State) : Host.Outcome State Fault Refusal :=
  issue .pkWait (s.pkIn .wait) (.done (pkGoto s .poll) .nothing) s

/-- The datagram leaves the block: NetSend to the destination, and the TX_LOG entry (R205). Both stay when the step
raises (60_exceptions.md R263). -/
def sendDatagram (sent : Word) (s : State) : State :=
  { s with
    txLog := s.txLog ++ [⟨s.datagram, sent⟩]
    env := { s.env with net := s.env.net ++ [⟨s.socket.addr, s.socket.port, s.datagram⟩] } }

/-- PK_SEND (R205): any reported count but 1157 raises TX_SHORT. PAYBUF keeps its bytes. -/
def execPkSend (sent : Word) (s : State) : Host.Outcome State Fault Refusal :=
  issue (.pkSend sent) (s.pkIn .send)
    (if sent = BitVec.ofNat 32 Config.packetLen then
       .done { sendDatagram sent s with pk := { s.pk with state := .top, filled := 0 } } .nothing
     else .raise (sendDatagram sent s) ⟨.txShort, sent⟩) s

/-- PK_STOP's writes (R206): the ring released, the socket closed, the run ended. -/
def stopBlock (s : State) : State :=
  { s with
    ring := Ring.absent
    socket := { s.socket with isOpen := false }
    phase := .stopped
    pk := { s.pk with state := .done }
    reportLog := s.reportLog ++ [.stop]
    exit := some 0 }

/-- PK_STOP (R206): holds while an invocation is in progress. -/
def execPkStop (s : State) : Host.Outcome State Fault Refusal :=
  issue .pkStop (s.pkIn .stopping) (if s.cp.state = .idle then .done (stopBlock s) .nothing else .hold) s

end Sys2Proof.Machine
end

