-- ==== Sys2Proof/Machine/RingBuffer.lean ====
section
/-! DEFINITION. The ring buffer's operations on direct issue (40_ring_buffer.md R120–R133). -/

namespace Sys2Proof.Machine

open Sys2Proof

/-- RB_CREATE (R121). -/
def execRbCreate (cap : Word) (s : State) : Host.Outcome State Fault Refusal :=
  issue (.rbCreate cap) s.creatable (ringActOf s (ringCreate cap)) s

/-- RB_CAPACITY (R122). -/
def execRbCapacity (s : State) : Host.Outcome State Fault Refusal :=
  issue .rbCapacity s.standalone (.done s (.count s.ring.capacity)) s

/-- RB_WRITE_PTR (R123): the cell the writable region starts at. -/
def execRbWritePtr (s : State) : Host.Outcome State Fault Refusal :=
  issue .rbWritePtr s.standalone (.done s (.count (s.ring.cellOf s.ring.w))) s

/-- RB_FREE_COUNT (R124). -/
def execRbFreeCount (s : State) : Host.Outcome State Fault Refusal :=
  issue .rbFreeCount s.standalone (.done s (.count s.ring.freeProd)) s

/-- RB_STORE (R125). -/
def execRbStore (k : Nat) (b : Byte) (s : State) : Host.Outcome State Fault Refusal :=
  issue (.rbStore k b) s.standalone (ringActOf s (ringStore k b s.ring)) s

/-- RB_ADVANCE_WRITE (R126). -/
def execRbAdvanceWrite (n : Nat) (s : State) : Host.Outcome State Fault Refusal :=
  issue (.rbAdvanceWrite n) s.standalone (ringActOf s (ringAdvanceWrite n s.ring)) s

/-- RB_SYNC_R2P (R131). -/
def execRbSyncR2p (s : State) : Host.Outcome State Fault Refusal :=
  issue .rbSyncR2p s.syncable (.done (withRing s (ringSyncR2p s.ring)) .nothing) s

/-- RB_READ_PTR (R127): the cell the readable region starts at. -/
def execRbReadPtr (s : State) : Host.Outcome State Fault Refusal :=
  issue .rbReadPtr s.standalone (.done s (.count (s.ring.cellOf s.ring.r))) s

/-- RB_FILL_COUNT (R128). -/
def execRbFillCount (s : State) : Host.Outcome State Fault Refusal :=
  issue .rbFillCount s.standalone (.done s (.count s.ring.fillCons)) s

/-- RB_LOAD (R129). -/
def execRbLoad (k : Nat) (s : State) : Host.Outcome State Fault Refusal :=
  issue (.rbLoad k) s.standalone
    (match ringLoad k s.ring with
     | .ok b => .done s (.byte b)
     | .error x => .raise s x) s

/-- RB_ADVANCE_READ (R130). -/
def execRbAdvanceRead (n : Nat) (s : State) : Host.Outcome State Fault Refusal :=
  issue (.rbAdvanceRead n) s.standalone (ringActOf s (ringAdvanceRead n s.ring)) s

/-- RB_SYNC_W2C (R132). -/
def execRbSyncW2c (s : State) : Host.Outcome State Fault Refusal :=
  issue .rbSyncW2c s.syncable (.done (withRing s (ringSyncW2c s.ring)) .nothing) s

/-- RB_DESTROY (R133). -/
def execRbDestroy (s : State) : Host.Outcome State Fault Refusal :=
  issue .rbDestroy s.standalone (.done (withRing s Ring.absent) .nothing) s

end Sys2Proof.Machine
end

