-- ==== Sys2Proof/Machine/Dispatch.lean ====
section
/-! DEFINITION. One arm for each instruction: a direct call of its meaning. -/

namespace Sys2Proof.Machine

open Sys2Proof

def exec (i : Instr) (s : State) : Host.Outcome State Fault Refusal :=
  match i with
  | .rbCreate cap => Sys2Proof.Machine.execRbCreate cap s
  | .rbCapacity => Sys2Proof.Machine.execRbCapacity s
  | .rbWritePtr => Sys2Proof.Machine.execRbWritePtr s
  | .rbFreeCount => Sys2Proof.Machine.execRbFreeCount s
  | .rbStore k b => Sys2Proof.Machine.execRbStore k b s
  | .rbAdvanceWrite n => Sys2Proof.Machine.execRbAdvanceWrite n s
  | .rbSyncR2p => Sys2Proof.Machine.execRbSyncR2p s
  | .rbReadPtr => Sys2Proof.Machine.execRbReadPtr s
  | .rbFillCount => Sys2Proof.Machine.execRbFillCount s
  | .rbLoad k => Sys2Proof.Machine.execRbLoad k s
  | .rbAdvanceRead n => Sys2Proof.Machine.execRbAdvanceRead n s
  | .rbSyncW2c => Sys2Proof.Machine.execRbSyncW2c s
  | .rbDestroy => Sys2Proof.Machine.execRbDestroy s
  | .cpInvoke min max => Sys2Proof.Machine.execCpInvoke min max s
  | .cpCheck => Sys2Proof.Machine.execCpCheck s
  | .cpSubreadHole k => Sys2Proof.Machine.execCpSubreadHole k s
  | .cpSubreadAreas k p0 s0 p1 s1 => Sys2Proof.Machine.execCpSubreadAreas k p0 s0 p1 s1 s
  | .cpSubreadErr e => Sys2Proof.Machine.execCpSubreadErr e s
  | .cpCommit => Sys2Proof.Machine.execCpCommit s
  | .cpOvfNotify => Sys2Proof.Machine.execCpOvfNotify s
  | .fnRateCode rate => Sys2Proof.Machine.execFnRateCode rate s
  | .fnBitDepth bps => Sys2Proof.Machine.execFnBitDepth bps s
  | .fnBuildHeader rate bps => Sys2Proof.Machine.execFnBuildHeader rate bps s
  | .fnDecodeRate code => Sys2Proof.Machine.execFnDecodeRate code s
  | .pkTop => Sys2Proof.Machine.execPkTop s
  | .pkPoll => Sys2Proof.Machine.execPkPoll s
  | .pkDrain => Sys2Proof.Machine.execPkDrain s
  | .pkWait => Sys2Proof.Machine.execPkWait s
  | .pkSend sent => Sys2Proof.Machine.execPkSend sent s
  | .pkStop => Sys2Proof.Machine.execPkStop s
  | .ctlReset => Sys2Proof.Machine.execCtlReset s
  | .ctlConfigure found rate bps cap allocOk => Sys2Proof.Machine.execCtlConfigure found rate bps cap allocOk s
  | .ctlSocketOpen ok addr port => Sys2Proof.Machine.execCtlSocketOpen ok addr port s
  | .ctlStart ok => Sys2Proof.Machine.execCtlStart ok s
  | .ctlCancel => Sys2Proof.Machine.execCtlCancel s
  | .ctlCsrRead n => Sys2Proof.Machine.execCtlCsrRead n s
  | .rate44k1 m => Sys2Proof.Machine.execRate44k1 m s
  | .rate48k m => Sys2Proof.Machine.execRate48k m s

end Sys2Proof.Machine
end

