-- ==== Sys2Proof/Machine/Fetch.lean ====
section
/-! DEFINITION. What the next turn brings to execution. The block fetches no instructions from a memory (20_memory.md
R80): an operation comes to run because its agent issues it, and which agent steps next is a parameter of the step
relation (10_state.md R46). The model holds both in State: `schedule` and `pending` (log 1, log 2). -/

namespace Sys2Proof.Machine

open Sys2Proof

/-- What a turn brings: a decoded instruction and the state it runs in; a state that settles the turn; or no meaning. -/
inductive Fetched where
  | instr (i : Instr) (s : State)
  | settled (s : State)
  | refused (r : Refusal)

/-- The state an agent's operation runs in: its turn is taken, its operation is no longer pending, and it is the
issuer. -/
def takeTurn (s : State) (a : Agent) (turns : List Turn) (rest : List Txn) : State :=
  { s with env := { s.env with schedule := turns, pending := setPending s.env.pending a rest, issuer := a } }

/-- An agent's turn with an operation pending: it is decoded; a reserved code raises ILLEGAL_OP (30_encoding.md R95); a
record that is none of its code is the transcriber's error and no block behaviour (R93; log 12). -/
def fetchTxn (t : Txn) (s : State) : Fetched :=
  match decode (.txn t) with
  | .ok i => .instr i s
  | .error (.reserved _) => .settled (illegalOp t s)
  | .error (.missingOperand name) => .refused (.transcriberError (.missingOperand name))
  | .error (.extraOperand name) => .refused (.transcriberError (.extraOperand name))
  | .error (.operandRange name) => .refused (.transcriberError (.operandRange name))

/-- The state with its next turn taken. -/
def withSchedule (s : State) (turns : List Turn) : State := { s with env := { s.env with schedule := turns } }

/-- The HOST writes a byte of its own memory (log 9). -/
def hostWrite (s : State) (addr : Nat) (b : Byte) : State :=
  { s with env := { s.env with srcMem := writeMem .srcMem s.env.srcMem addr (some b) } }

/-- The next turn. No turn: nothing moves. An agent with nothing pending: its turn passes (log 3). -/
def fetch (s : State) : Fetched :=
  match s.env.schedule with
  | [] => .settled s
  | .agent a :: turns =>
    match pendingOf s.env.pending a with
    | [] => .settled (withSchedule s turns)
    | t :: rest => fetchTxn t (takeTurn s a turns rest)
  | .wire b :: turns => .instr (decodeWire b) (withSchedule s turns)
  | .srcWrite addr b :: turns =>
    .settled (hostWrite (withSchedule s turns) addr b)

/-- Put an operation where the next step runs it: its agent's next operation, and its agent's turn. -/
def issueNext (s : State) (a : Agent) (t : Txn) : State :=
  { s with
    env := { s.env with
      schedule := .agent a :: s.env.schedule
      pending := setPending s.env.pending a (t :: pendingOf s.env.pending a) } }

/-- Put a coded instruction where the next step runs it: an operation by its owner, or by the HOST where any agent may
issue it (log 16); a wire byte as the next turn. -/
def placeNext (s : State) : Encoded → State
  | .txn t =>
    match ownerOf t.code with
    | some a => issueNext s a t
    | none => issueNext s .host t
  | .wire b => withSchedule s (.wire b :: s.env.schedule)

/-- Load a program: operations with their agents, in the order of their turns (log 2). -/
def loadProgram : List (Agent × Txn) → State → State
  | [], s => s
  | (a, t) :: rest, s => issueNext (loadProgram rest s) a t

end Sys2Proof.Machine
end

