-- ==== Sys2Proof/Machine/Step.lean ====
section
/-! DEFINITION. One step: the next turn of the interleaving (00_scope.md R6, R7). -/

namespace Sys2Proof.Machine

open Sys2Proof

/-- One step of the machine. -/
def step (s : State) : Host.Outcome State Fault Refusal :=
  match fetch s with
  | .instr i s' => exec i s'
  | .settled s' => .next s'
  | .refused r => .refused r

/-- The state whose next step runs the instruction of an opcode-table word (log 2, log 16). -/
def State.withFetchWord (s : State) (_nbits w : Nat) : State := placeNext s (tableWord w)

end Sys2Proof.Machine
end

