-- ==== Sys2Proof/Safety.lean ====
section
/-! DEFINITION. The terms in which statements are made about the machine: the outcomes of an operation, the invariants
the spec gives its reachable states, the ring as a queue, what may change, and runs with their fairness. -/

namespace Sys2Proof.Machine

open Sys2Proof

/-! ## Outcomes -/

/-- The state after an operation stepped: what its rule left, and the TRACE entry with what it returned (R44). -/
def stepped (i : Instr) (s : State) (r : Result) (left : State) : State :=
  record (.agent s.env.issuer) (recordOf i) r left

/-- The state after an operation raised: the trap (60_exceptions.md R262) and the TRACE entry that records it (R263). -/
def trapped (i : Instr) (s : State) (x : Raise) : State :=
  record (.agent s.env.issuer) (recordOf i) (.raised x) (trapEntry x s)

/-- The state after an operation had no step: only the attempt is recorded (R264). -/
def attempted (i : Instr) (s : State) : State := record (.agent s.env.issuer) (recordOf i) .noStep s

/-- The operation is issued by an agent that may issue it (R271). -/
abbrev Owned (i : Instr) (s : State) : Prop := mayIssue (recordOf i).code s.env.issuer = true

/-- A direct data operation on the ring finds its guard met (40_ring_buffer.md R120). -/
abbrev Standalone (s : State) : Prop := s.phase = .config ∧ s.ring.present = true

/-- A view copy finds its guard met (R120). -/
abbrev Syncable (s : State) : Prop :=
  s.ring.present = true ∧ (s.phase = .config ∨ s.phase = .ready ∨ s.phase = .running)

/-- The block lives: neither STOPPED nor FATAL (60_exceptions.md R264). -/
abbrev Alive (s : State) : Prop := s.phase = .config ∨ s.phase = .ready ∨ s.phase = .running

/-- A CP operation finds its guard met (41_capture_producer.md R150). -/
abbrev CpIn (x : CpState) (s : State) : Prop := s.phase = .running ∧ s.cp.state = x

/-- A PK operation finds its guard met (43_packetizer.md R200). -/
abbrev PkIn (x : PkState) (s : State) : Prop := s.phase = .running ∧ s.pk.state = x

/-- The checks before an operation's own statements (R268), for an operation of this code, owned by these agents, with
this guard: no step in a dead phase, OWNERSHIP for another agent, SEQ_ERR out of its phase and engine state. -/
def ChecksFirst (i : Instr) (code : Byte) (agents : List Agent) (guard : State → Prop) : Prop :=
  (recordOf i).code = code ∧ ∀ s : State,
    (¬ Alive s → exec i s = .next (attempted i s)) ∧
    (Alive s → s.env.issuer ∉ agents → exec i s = .next (trapped i s ⟨.ownership, code.setWidth 32⟩)) ∧
    (Alive s → s.env.issuer ∈ agents → ¬ guard s → exec i s = .next (trapped i s ⟨.seqErr, code.setWidth 32⟩))

/-- Every agent: the owners of RB_CAPACITY and CTL_CSR_READ (R271). -/
abbrev everyAgent : List Agent := [.prod, .cons, .host, .sig]

/-- Every field of S but `DEST_ADDR` and the three logs has its reset value (10_state.md R45). -/
def HasResetValues (s : State) : Prop :=
  s.phase = .config ∧ s.err.code = 0x00#8 ∧ s.err.info = 0#32 ∧ s.cancel = false ∧ s.ovfCount = 0#32 ∧
  s.fmt.rate = 0#32 ∧ s.fmt.bps = 0#8 ∧ s.fmt.bpf = 0#8 ∧
  s.fmt.hdr = ⟨0x00#8, 0x00#8, 0x00#8, 0x00#8, 0x00#8⟩ ∧
  s.socket.port = 4010#16 ∧ s.socket.isOpen = false ∧
  s.ring.present = false ∧ s.ring.cap = 0#32 ∧ (∀ cell, s.ring.at cell = none) ∧
  s.ring.w = 0 ∧ s.ring.r = 0 ∧ s.ring.rp = 0 ∧ s.ring.wc = 0 ∧
  s.cp.state = .idle ∧ s.cp.min = 0 ∧ s.cp.max = 0 ∧ s.cp.wf = 0 ∧ s.cp.done = 0 ∧
  s.pk.state = .off ∧ (∀ j, s.pk.at j = none) ∧ s.pk.filled = 0 ∧ s.exit = none

/-! ## Invariants -/

/-- The memories keep their canonical form, RING inside its CAP cells and PAYBUF inside its 1152 (10_state.md R28, R39). -/
abbrev MemInv (s : State) : Prop :=
  Memory.wf .ring s.ring.cells ∧ Memory.below s.ring.capacity s.ring.cells ∧
  Memory.wf .paybuf s.pk.paybuf ∧ Memory.below Config.payloadLen s.pk.paybuf ∧
  Memory.wf .srcMem s.env.srcMem

/-- The ring and view invariants (R32, R34, R35, 40_ring_buffer.md R134): with a ring,
`RP ≤ R ≤ WC ≤ W ≤ RP + CAP` and `CAP ≥ 1`; without one, no capacity, no cells and cursors at 0. -/
abbrev RingInv (q : Ring) : Prop :=
  if q.present then 1 ≤ q.capacity ∧ q.rp ≤ q.r ∧ q.r ≤ q.wc ∧ q.wc ≤ q.w ∧ q.w ≤ q.rp + q.capacity
  else q = Ring.absent

/-- The error fields record the trap and nothing else (R22, R44, 44_control.md R237). -/
abbrev TrapInv (s : State) : Prop :=
  (s.phase = .fatal ↔ s.err.code ≠ 0x00#8) ∧
  (s.phase = .fatal ↔ s.exit = some Config.exitFail) ∧
  (s.phase = .stopped ↔ s.exit = some 0) ∧
  (s.phase ≠ .fatal → s.err.info = 0#32)

/-- The lifecycle (R21, R40): before the stream starts the engines rest; from READY on the ring exists; a running
stream has its socket and its loop; a stopped one has released both. -/
abbrev LifecycleInv (s : State) : Prop :=
  (s.phase = .config → s.cp.state = .idle ∧ s.pk.state = .off ∧ s.pk.filled = 0) ∧
  (s.phase = .ready → s.ring.present = true ∧ s.cp.state = .idle ∧ s.pk.state = .off ∧ s.pk.filled = 0) ∧
  (s.phase = .running → s.ring.present = true ∧ s.socket.isOpen = true ∧ s.pk.state ≠ .off ∧ s.pk.state ≠ .done) ∧
  (s.phase = .stopped →
    s.ring.present = false ∧ s.socket.isOpen = false ∧ s.cp.state = .idle ∧ s.pk.state = .done)

/-- The format registers before CTL_CONFIGURE has written them (R45). -/
abbrev Format.unset : Format := State.reset.fmt

/-- The configuration (R25, R26, 44_control.md R239): unconfigured fields are zero, configured ones are those of
FN_BUILD_HEADER. -/
abbrev ConfigInv (s : State) : Prop :=
  (s.phase = .config → s.fmt = Format.unset) ∧
  (s.phase = .ready ∨ s.phase = .running ∨ s.phase = .stopped → s.fmt ≠ Format.unset) ∧
  (s.fmt ≠ Format.unset → buildHeader s.fmt.rate s.fmt.bps = .ok s.fmt.hdr ∧ s.fmt.bpf = frameBytes s.fmt.bps)

/-- The capture producer inside an invocation (41_capture_producer.md R159, R161): the write size is within the bounds
and within PROD's view of the free space, and the frames done stay below it until COMMIT. -/
abbrev CpInv (s : State) : Prop :=
  (s.cp.state ≠ .idle → s.cp.min ≤ s.cp.max) ∧
  (s.cp.state = .reading ∨ s.cp.state = .commit →
    s.cp.min ≤ s.cp.wf ∧ s.cp.wf ≤ s.cp.max ∧ s.cp.wf * s.fmt.bytesPerFrame ≤ s.ring.freeProd) ∧
  (s.cp.state = .reading → s.cp.done < s.cp.wf) ∧
  (s.cp.state = .commit → s.cp.done = s.cp.wf)

/-- The packetizer's payload (43_packetizer.md R208): nothing is assembled at TOP and after, everything at SEND, and
the cells assembled so far hold bytes. -/
abbrev PkInv (p : Packetizer) : Prop :=
  (p.state = .off ∨ p.state = .top ∨ p.state = .stopping ∨ p.state = .done → p.filled = 0) ∧
  (p.state = .poll ∨ p.state = .drain ∨ p.state = .wait → p.filled < Config.payloadLen) ∧
  (p.state = .send → p.filled = Config.payloadLen) ∧
  (∀ j < p.filled, (p.at j).isSome = true)

/-- The bytes of the invocation in progress that are stored and not committed. -/
def State.stagedBytes (s : State) : Nat :=
  if s.cp.state = .reading ∨ s.cp.state = .commit then s.cp.done * s.fmt.bytesPerFrame else 0

/-- When the engines drive the ring, every committed position that is not released holds a byte, and so does every
position of the invocation in progress that is done (41_capture_producer.md R160); the write cursor stands on a frame
boundary (R162). -/
abbrev StoredInv (s : State) : Prop :=
  s.phase = .ready ∨ s.phase = .running →
    s.ring.w % s.fmt.bytesPerFrame = 0 ∧
    ∀ n < s.ring.fill + s.stagedBytes, (s.ring.holds (s.ring.r + n)).isSome = true

/-- Every datagram logged has 1157 bytes (43_packetizer.md R207). -/
abbrev LogInv (s : State) : Prop := ∀ e ∈ s.txLog, e.bytes.length = Config.packetLen

/-- All of them. -/
structure Inv (s : State) : Prop where
  mem : MemInv s
  ring : RingInv s.ring
  trap : TrapInv s
  lifecycle : LifecycleInv s
  config : ConfigInv s
  cp : CpInv s
  pk : PkInv s.pk
  stored : StoredInv s
  logs : LogInv s

/-! ## The ring as a queue -/

/-- What the cells of `n` stream positions hold, from a position on. -/
def Ring.region (q : Ring) (pos n : Nat) : List (Option Byte) := (List.range n).map fun i => q.holds (pos + i)

/-- The committed, unreleased stream positions, oldest first: what the FIFO holds. -/
def Ring.committed (q : Ring) : List (Option Byte) := q.region q.r q.fill

/-- The first `n` positions of PROD's writable region: what a commit of `n` bytes would append. -/
def Ring.writable (q : Ring) (n : Nat) : List (Option Byte) := q.region q.w n

/-- The payload bytes assembled so far, oldest first (R39). -/
def Packetizer.assembled (p : Packetizer) : List (Option Byte) := (List.range p.filled).map p.at

/-- The bytes on their way: those assembled for the packet in progress, then those committed to the ring. -/
def State.pipeline (s : State) : List (Option Byte) := s.pk.assembled ++ s.ring.committed

/-! ## What may change -/

/-- `s` with the fields of S that the instruction's own rule may write as they are in `t`: the frame of each operation.
TRACE and the trap's registers are apart (`State.trapOf`). -/
def writesOf (i : Instr) (s t : State) : State :=
  match i with
  | .rbCreate _ | .rbDestroy => { s with ring := t.ring }
  | .rbStore _ _ => { s with ring := { s.ring with cells := t.ring.cells } }
  | .rbAdvanceWrite _ => { s with ring := { s.ring with w := t.ring.w } }
  | .rbSyncR2p => { s with ring := { s.ring with rp := t.ring.rp } }
  | .rbAdvanceRead _ => { s with ring := { s.ring with cells := t.ring.cells, r := t.ring.r } }
  | .rbSyncW2c => { s with ring := { s.ring with wc := t.ring.wc } }
  | .rbCapacity | .rbWritePtr | .rbFreeCount | .rbReadPtr | .rbFillCount | .rbLoad _ => s
  | .cpInvoke _ _ => { s with cp := { s.cp with state := t.cp.state, min := t.cp.min, max := t.cp.max } }
  | .cpCheck => { s with cp := { s.cp with state := t.cp.state, wf := t.cp.wf, done := t.cp.done } }
  | .cpSubreadHole _ | .cpSubreadAreas _ _ _ _ _ =>
    { s with ring := { s.ring with cells := t.ring.cells }, cp := { s.cp with state := t.cp.state, done := t.cp.done } }
  | .cpSubreadErr _ => s
  | .cpCommit => { s with ring := { s.ring with w := t.ring.w }, cp := { s.cp with state := t.cp.state } }
  | .cpOvfNotify => { s with ovfCount := t.ovfCount, reportLog := t.reportLog }
  | .fnRateCode _ | .fnBitDepth _ | .fnBuildHeader _ _ | .fnDecodeRate _ => s
  | .pkTop | .pkPoll | .pkWait => { s with pk := { s.pk with state := t.pk.state } }
  | .pkDrain => { s with ring := { s.ring with cells := t.ring.cells, r := t.ring.r }, pk := t.pk }
  | .pkSend _ =>
    { s with
      txLog := t.txLog
      pk := { s.pk with state := t.pk.state, filled := t.pk.filled }
      env := { s.env with net := t.env.net } }
  | .pkStop =>
    { s with
      ring := t.ring
      socket := { s.socket with isOpen := t.socket.isOpen }
      phase := t.phase
      pk := { s.pk with state := t.pk.state }
      reportLog := t.reportLog
      exit := t.exit
      env := { s.env with pending := t.env.pending } }
  | .ctlReset => { t with trace := s.trace, txLog := s.txLog, reportLog := s.reportLog, env := s.env }
  | .ctlConfigure _ _ _ _ _ => { s with fmt := t.fmt, ring := t.ring, phase := t.phase }
  | .ctlSocketOpen _ _ _ => { s with socket := t.socket }
  | .ctlStart _ => { s with phase := t.phase, pk := { s.pk with state := t.pk.state } }
  | .ctlCancel => { s with cancel := t.cancel }
  | .ctlCsrRead _ | .rate44k1 _ | .rate48k _ => s

/-- `s` with the registers a trap writes (R262) as they are in `t`. -/
def State.trapOf (s t : State) : State :=
  { s with phase := t.phase, err := t.err, reportLog := t.reportLog, exit := t.exit }

/-- An operation of instruction `i` has written no field of S outside its own rule's, but for one trap (R262), and TRACE
has grown by its one entry (R44). -/
def Framed (i : Instr) (s t : State) : Prop :=
  (∃ r : Result, t.trace = s.trace ++ [⟨.agent s.env.issuer, recordOf i, r⟩]) ∧
  (t = { writesOf i s t with trace := t.trace } ∨
   ∃ x : Raise, t.phase = .fatal ∧ t.err = ⟨errCodeOf x.err, x.info⟩ ∧
    t.reportLog = s.reportLog ++ [.fatal (errCodeOf x.err) x.info] ∧ t.exit = some Config.exitFail ∧
    t = { (writesOf i s t).trapOf t with trace := t.trace })

/-- A memory of bytes reads as before outside some addresses. -/
def SameOutside (sp : Space) (m n : Memory) (stored : Nat → Prop) : Prop :=
  ∀ a, ¬ stored a → readMem sp n a = readMem sp m a

/-! ## Runs (fairness is an assumption about them, no part of a step: log 18) -/

/-- Agent `a` issues transaction `t` in `s`, and the machine goes to `s'`: the spec's step relation, in which the choice
of agent and operation is a parameter (10_state.md R46). -/
def Moves (s : State) (a : Agent) (t : Txn) (s' : State) : Prop := step (issueNext s a t) = .next s'

/-- The environment changes what is its own: the turns, the pending operations, the HOST's memory. -/
def EnvMoves (s s' : State) : Prop :=
  ∃ schedule pending srcMem, Memory.wf .srcMem srcMem ∧
    s' = { s with env := { s.env with schedule := schedule, pending := pending, srcMem := srcMem } }

/-- The states a run reaches from power-on, with any inputs at any time. -/
inductive Reachable : State → Prop where
  | reset : Reachable State.reset
  | env (s s' : State) : Reachable s → EnvMoves s s' → Reachable s'
  | step (s s' : State) : Reachable s → step s = .next s' → Reachable s'

/-- An infinite run: at each point some agent issues some transaction. -/
def IsRun (state : Nat → State) (issued : Nat → Agent × Txn) : Prop :=
  ∀ n, Moves (state n) (issued n).1 (issued n).2 (state (n + 1))

/-- Weak fairness of one operation of one agent: never enabled for ever without being issued, whatever operands the
HOST gives it. -/
def WeaklyFair (state : Nat → State) (issued : Nat → Agent × Txn) (a : Agent) (code : Byte) (enabled : State → Prop) :
    Prop :=
  ∀ n, (∀ m, n ≤ m → enabled (state m)) → ∃ m, n ≤ m ∧ (issued m).1 = a ∧ (issued m).2.code = code

/-- The two view copies are weakly fair (20_memory.md R78). -/
def FairSyncs (state : Nat → State) (issued : Nat → Agent × Txn) : Prop :=
  WeaklyFair state issued .prod (recordOf .rbSyncR2p).code Syncable ∧
  WeaklyFair state issued .cons (recordOf .rbSyncW2c).code Syncable

/-- A CP or PK operation of PROD or CONS whose control state is reached and which would step rather than hold
(44_control.md R238). -/
def engineEnabled (i : Instr) (s : State) : Prop :=
  match i with
  | .cpCheck => CpIn .check s
  | .cpSubreadHole _ | .cpSubreadAreas _ _ _ _ _ | .cpSubreadErr _ => CpIn .reading s
  | .cpCommit => CpIn .commit s
  | .pkTop => PkIn .top s
  | .pkPoll => PkIn .poll s
  | .pkDrain => PkIn .drain s
  | .pkWait => PkIn .wait s
  | .pkSend _ => PkIn .send s
  | .pkStop => PkIn .stopping s ∧ s.cp.state = .idle
  | .cpInvoke _ _ | .cpOvfNotify
  | .rbCreate _ | .rbCapacity | .rbWritePtr | .rbFreeCount | .rbStore _ _ | .rbAdvanceWrite _ | .rbSyncR2p
  | .rbReadPtr | .rbFillCount | .rbLoad _ | .rbAdvanceRead _ | .rbSyncW2c | .rbDestroy
  | .fnRateCode _ | .fnBitDepth _ | .fnBuildHeader _ _ | .fnDecodeRate _
  | .ctlReset | .ctlConfigure _ _ _ _ _ | .ctlSocketOpen _ _ _ | .ctlStart _ | .ctlCancel | .ctlCsrRead _
  | .rate44k1 _ | .rate48k _ => False

/-- PROD and CONS get their turns (44_control.md R236, R238): every engine operation is weakly fair, each by its own code.
What the HOST invokes or notifies is its own affair: R211 assumes apart that it keeps invoking CP (log 18). -/
def FairEngines (state : Nat → State) (issued : Nat → Agent × Txn) : Prop :=
  ∀ (a : Agent) (i : Instr), ownerOf (recordOf i).code = some a →
    WeaklyFair state issued a (recordOf i).code (engineEnabled i)

end Sys2Proof.Machine
end

