-- ==== Sys2Proof/Certificates/Slice0/Obligations.lean ====
section
/-! DEFINITION. The statements for the provers. Each docstring names the rule of the spec it formalises, or says that it
is derived and from what. Premises such as `RingInv` hold in every reachable state (StepKeepsInvariants). -/

section

open Sys2Proof Sys2Proof.Machine

/-! ## Encodings -/

/-- Derived (30_encoding.md R90, R91, R93, R100): decoding what the encoder writes gives the instruction back, for every
instruction and every operand value. The order of the fields in a record is the model's (log 12). -/
def Obligations.DecodeOfEncode : Prop :=
  ∀ i : Instr, i.wellFormed = true → decode (encode i) = .ok i

/-- Derived (R90, R93, R106): encoding what the decoder reads gives the input back: no record and no wire byte has two
readings, and no instruction two encodings. That an instruction has one record only is the model's choice: R93 states no
order of the fields, and the model's records list them in the table's order (log 12). -/
def Obligations.EncodeOfDecode : Prop :=
  ∀ (x : Encoded) (i : Instr), decode x = .ok i → encode i = x

/-- Derived (R93, R95): the decoder accepts exactly the records of the operand table (their field order is the model's,
log 12), and calls a code reserved exactly when the table gives it no row. -/
def Obligations.DecoderAcceptsExactlyTheTable : Prop :=
  ∀ t : Txn,
    ((∃ i, decode (.txn t) = .ok i) ↔ t.wellFormed = true) ∧
    (decode (.txn t) = .error (.reserved t.code) ↔ operandFields t.code = none)

/-- R95: the reserved codes are these ranges; issuing one raises ILLEGAL_OP with the code as `info`, by any agent and
whatever its operands; in STOPPED and FATAL it has no step. -/
def Obligations.ReservedCodesRaise : Prop :=
  (∀ c : Byte, operandFields c = none ↔
    (0x0D ≤ c.toNat ∧ c.toNat ≤ 0x1F) ∨ (0x27 ≤ c.toNat ∧ c.toNat ≤ 0x3F) ∨ (0x44 ≤ c.toNat ∧ c.toNat ≤ 0x5F) ∨
    (0x66 ≤ c.toNat ∧ c.toNat ≤ 0x7F) ∨ 0x86 ≤ c.toNat) ∧
  ∀ (s : State) (a : Agent) (t : Txn), operandFields t.code = none →
    (Alive s → step (issueNext s a t) = .next (record (.agent a) t (.raised ⟨.illegalOp, t.code.setWidth 32⟩)
      (trapEntry ⟨.illegalOp, t.code.setWidth 32⟩ { s with env := { s.env with issuer := a } }))) ∧
    (¬ Alive s → step (issueNext s a t) =
      .next (record (.agent a) t .noStep { s with env := { s.env with issuer := a } }))

/-- Derived (R91, R93, R100): a word of each unit and each wire pattern, written out bit by bit, decodes to the
instruction it stands for. -/
def Obligations.DecodedWords : Prop :=
  decode (.txn ⟨0b00000100#8, [⟨.k, 3⟩, ⟨.b, 0x11⟩]⟩) = .ok (.rbStore 3 0x11#8) ∧
  decode (.txn ⟨0b00100000#8, [⟨.min, 288⟩, ⟨.max, 288⟩]⟩) = .ok (.cpInvoke 288 288) ∧
  decode (.txn ⟨0b01000010#8, [⟨.rate, 44100⟩, ⟨.bps, 2⟩]⟩) = .ok (.fnBuildHeader 44100#32 2#8) ∧
  decode (.txn ⟨0b01100100#8, [⟨.s, 1157⟩]⟩) = .ok (.pkSend 1157#32) ∧
  decode (.txn ⟨0b10000001#8, [⟨.found, 1⟩, ⟨.rate, 44100⟩, ⟨.bps, 2⟩, ⟨.cap, 2048⟩, ⟨.allocOk, 1⟩]⟩) =
    .ok (.ctlConfigure true 44100#32 2#8 2048#32 true) ∧
  decode (.wire 0b10000010#8) = .ok (.rate44k1 2#7) ∧
  decode (.wire 0b00000001#8) = .ok (.rate48k 1#7)

/-! ## Steps -/

/-- Derived (00_scope.md R6, 10_state.md R46; logs 1, 3, 9, 12, 13): a step is the next turn. An agent's turn runs
`exec` of the operation that its next pending transaction decodes to; a wire turn that of the byte; a record that is
none of its code is refused; the other turns move nothing of S. -/
def Obligations.StepRunsTheDecodedInstruction : Prop :=
  ∀ (s : State) (turns : List Turn),
    (∀ (a : Agent) (t : Txn) (rest : List Txn) (i : Instr),
      s.env.schedule = .agent a :: turns → pendingOf s.env.pending a = t :: rest → decode (.txn t) = .ok i →
        step s = exec i
          { s with env := { s.env with schedule := turns, pending := setPending s.env.pending a rest, issuer := a } }) ∧
    (∀ (a : Agent) (t : Txn) (rest : List Txn) (e : DecodeError),
      s.env.schedule = .agent a :: turns → pendingOf s.env.pending a = t :: rest → decode (.txn t) = .error e →
      operandFields t.code ≠ none → step s = .refused (.transcriberError e)) ∧
    (∀ a : Agent, s.env.schedule = .agent a :: turns → pendingOf s.env.pending a = [] →
      step s = .next { s with env := { s.env with schedule := turns } }) ∧
    (∀ b : Byte, s.env.schedule = .wire b :: turns →
      step s = exec (decodeWire b) { s with env := { s.env with schedule := turns } }) ∧
    (∀ (x : Nat) (b : Byte), s.env.schedule = .srcWrite x b :: turns → Memory.wf .srcMem s.env.srcMem →
      ∃ m, step s = .next { s with env := { s.env with schedule := turns, srcMem := m } } ∧
        ∀ y, memRead m y = if y = x then b else memRead s.env.srcMem y) ∧
    (s.env.schedule = [] → step s = .next s)

/-- Derived (10_state.md R46; logs 1, 2, 16): an operation issued by an agent in any state runs at the next step, in that
state with that issuer; so does a word of the opcode table that the host places, issued by its owner. -/
def Obligations.IssuedOperationRuns : Prop :=
  ∀ s : State,
    (∀ (a : Agent) (t : Txn) (i : Instr), decode (.txn t) = .ok i →
      step (issueNext s a t) = exec i { s with env := { s.env with issuer := a } }) ∧
    (∀ (w : Nat) (i : Instr), decodeTableWord 8 w = some i →
      ∃ a, step (s.withFetchWord 8 w) = exec i { s with env := { s.env with issuer := a } } ∧
        (i.isWire = false → mayIssue (recordOf i).code a = true))

/-! ## The ring buffer -/

/-- R121: RB_CREATE makes an empty ring of `cap` cells, each `none`; capacity 0 raises RB_CREATE_ERR(0). -/
def Obligations.RbCreateMakesAnEmptyRing : Prop :=
  ∀ cap : Word,
    ChecksFirst (.rbCreate cap) 0x00#8 [.host] (fun s => s.phase = .config ∧ s.ring.present = false) ∧
    ∀ s : State, s.env.issuer = .host → s.phase = .config → s.ring.present = false →
      (cap ≠ 0#32 → ∃ q : Ring, exec (.rbCreate cap) s = .next (stepped (.rbCreate cap) s .nothing { s with ring := q }) ∧
        q.present = true ∧ q.cap = cap ∧ q.w = 0 ∧ q.r = 0 ∧ q.rp = 0 ∧ q.wc = 0 ∧ ∀ cell, q.at cell = none) ∧
      (cap = 0#32 → exec (.rbCreate cap) s = .next (trapped (.rbCreate cap) s ⟨.rbCreateErr, 0#32⟩))

/-- R122, R123, R124, R127, R128: what the five queries return, changing nothing; in a state with the ring invariant. -/
def Obligations.RbQueriesReturnTheCounts : Prop :=
  (ChecksFirst .rbCapacity 0x01#8 everyAgent Standalone ∧ ChecksFirst .rbWritePtr 0x02#8 [.prod] Standalone ∧
   ChecksFirst .rbFreeCount 0x03#8 [.prod] Standalone ∧ ChecksFirst .rbReadPtr 0x07#8 [.cons] Standalone ∧
   ChecksFirst .rbFillCount 0x08#8 [.cons] Standalone) ∧
  ∀ s : State, Standalone s → RingInv s.ring →
    exec .rbCapacity s = .next (stepped .rbCapacity s (.count s.ring.cap.toNat) s) ∧
    (s.env.issuer = .prod →
      exec .rbWritePtr s = .next (stepped .rbWritePtr s (.count (s.ring.w % s.ring.cap.toNat)) s) ∧
      exec .rbFreeCount s =
        .next (stepped .rbFreeCount s (.count (s.ring.cap.toNat - (s.ring.w - s.ring.rp))) s)) ∧
    (s.env.issuer = .cons →
      exec .rbReadPtr s = .next (stepped .rbReadPtr s (.count (s.ring.r % s.ring.cap.toNat)) s) ∧
      exec .rbFillCount s = .next (stepped .rbFillCount s (.count (s.ring.wc - s.ring.r)) s))

/-- R125: RB_STORE writes the byte into cell `(W + k) mod CAP` and nothing else; an offset outside PROD's view raises
STORE_RANGE. -/
def Obligations.RbStoreWritesOneCell : Prop :=
  ∀ (k : Nat) (b : Byte),
    ChecksFirst (.rbStore k b) 0x04#8 [.prod] Standalone ∧
    ∀ s : State, s.env.issuer = .prod → Standalone s → RingInv s.ring →
      (k < s.ring.cap.toNat - (s.ring.w - s.ring.rp) →
        ∃ m : Memory, exec (.rbStore k b) s =
            .next (stepped (.rbStore k b) s .nothing { s with ring := { s.ring with cells := m } }) ∧
          ∀ cell, readMem .ring m cell =
            if cell = (s.ring.w + k) % s.ring.cap.toNat then some b else s.ring.at cell) ∧
      (s.ring.cap.toNat - (s.ring.w - s.ring.rp) ≤ k →
        exec (.rbStore k b) s = .next (trapped (.rbStore k b) s ⟨.storeRange, BitVec.ofNat 32 k⟩))

/-- R126: RB_ADVANCE_WRITE adds `n` to `W`; more than PROD's view of the free space raises ADV_WRITE_RANGE. -/
def Obligations.RbAdvanceWriteMovesW : Prop :=
  ∀ n : Nat,
    ChecksFirst (.rbAdvanceWrite n) 0x05#8 [.prod] Standalone ∧
    ∀ s : State, s.env.issuer = .prod → Standalone s → RingInv s.ring →
      (n ≤ s.ring.cap.toNat - (s.ring.w - s.ring.rp) → exec (.rbAdvanceWrite n) s =
        .next (stepped (.rbAdvanceWrite n) s .nothing { s with ring := { s.ring with w := s.ring.w + n } })) ∧
      (s.ring.cap.toNat - (s.ring.w - s.ring.rp) < n →
        exec (.rbAdvanceWrite n) s = .next (trapped (.rbAdvanceWrite n) s ⟨.advWriteRange, BitVec.ofNat 32 n⟩))

/-- R129: RB_LOAD returns the byte of cell `(R + k) mod CAP` and changes nothing; an offset outside CONS's view raises
LOAD_RANGE, an empty cell LOAD_UNWRITTEN with the stream position. -/
def Obligations.RbLoadReturnsTheByte : Prop :=
  ∀ k : Nat,
    ChecksFirst (.rbLoad k) 0x09#8 [.cons] Standalone ∧
    ∀ s : State, s.env.issuer = .cons → Standalone s → RingInv s.ring →
      (∀ b : Byte, k < s.ring.wc - s.ring.r → s.ring.at ((s.ring.r + k) % s.ring.cap.toNat) = some b →
        exec (.rbLoad k) s = .next (stepped (.rbLoad k) s (.byte b) s)) ∧
      (k < s.ring.wc - s.ring.r → s.ring.at ((s.ring.r + k) % s.ring.cap.toNat) = none →
        exec (.rbLoad k) s = .next (trapped (.rbLoad k) s ⟨.loadUnwritten, BitVec.ofNat 32 (s.ring.r + k)⟩)) ∧
      (s.ring.wc - s.ring.r ≤ k →
        exec (.rbLoad k) s = .next (trapped (.rbLoad k) s ⟨.loadRange, BitVec.ofNat 32 k⟩))

/-- R130: RB_ADVANCE_READ empties the `n` released cells and adds `n` to `R`; more than CONS's view of the filled
region raises ADV_READ_RANGE. -/
def Obligations.RbAdvanceReadReleases : Prop :=
  ∀ n : Nat,
    ChecksFirst (.rbAdvanceRead n) 0x0A#8 [.cons] Standalone ∧
    ∀ s : State, s.env.issuer = .cons → Standalone s → RingInv s.ring → Memory.wf .ring s.ring.cells →
      (n ≤ s.ring.wc - s.ring.r →
        ∃ m : Memory, exec (.rbAdvanceRead n) s = .next (stepped (.rbAdvanceRead n) s .nothing
            { s with ring := { s.ring with cells := m, r := s.ring.r + n } }) ∧
          (∀ i < n, readMem .ring m ((s.ring.r + i) % s.ring.cap.toNat) = none) ∧
          ∀ cell, (∀ i < n, cell ≠ (s.ring.r + i) % s.ring.cap.toNat) → readMem .ring m cell = s.ring.at cell) ∧
      (s.ring.wc - s.ring.r < n →
        exec (.rbAdvanceRead n) s = .next (trapped (.rbAdvanceRead n) s ⟨.advReadRange, BitVec.ofNat 32 n⟩))

/-- R131, R132: the two view copies, in CONFIG with a ring, READY and RUNNING. -/
def Obligations.RbSyncsCopyTheCursors : Prop :=
  (ChecksFirst .rbSyncR2p 0x06#8 [.prod] Syncable ∧ ChecksFirst .rbSyncW2c 0x0B#8 [.cons] Syncable) ∧
  ∀ s : State, Syncable s →
    (s.env.issuer = .prod → exec .rbSyncR2p s =
      .next (stepped .rbSyncR2p s .nothing { s with ring := { s.ring with rp := s.ring.r } })) ∧
    (s.env.issuer = .cons → exec .rbSyncW2c s =
      .next (stepped .rbSyncW2c s .nothing { s with ring := { s.ring with wc := s.ring.w } }))

/-- R133: RB_DESTROY releases the ring: no cells, no capacity, cursors and views at 0. -/
def Obligations.RbDestroyReleasesTheRing : Prop :=
  ChecksFirst .rbDestroy 0x0C#8 [.host] Standalone ∧
  ∀ s : State, s.env.issuer = .host → Standalone s →
    ∃ q : Ring, exec .rbDestroy s = .next (stepped .rbDestroy s .nothing { s with ring := q }) ∧
      q.present = false ∧ q.cap = 0#32 ∧ q.w = 0 ∧ q.r = 0 ∧ q.rp = 0 ∧ q.wc = 0 ∧ ∀ cell, q.at cell = none

/-! ## The capture producer -/

/-- Derived (41_capture_producer.md R151): CP_INVOKE takes the bounds and goes to CHECK; `min > max` raises
HOST_PROTO(0x20); while the stream is stopping it has no step. That the attempt is used up and recorded in TRACE is the
model's reading (log 5). -/
def Obligations.CpInvokeStartsAnInvocation : Prop :=
  ∀ min max : Nat,
    ChecksFirst (.cpInvoke min max) 0x20#8 [.host] (CpIn .idle) ∧
    ∀ s : State, s.env.issuer = .host → CpIn .idle s →
      (s.pk.state = .stopping ∨ s.pk.state = .done →
        exec (.cpInvoke min max) s = .next (attempted (.cpInvoke min max) s)) ∧
      (s.pk.state ≠ .stopping → s.pk.state ≠ .done → max < min →
        exec (.cpInvoke min max) s = .next (trapped (.cpInvoke min max) s ⟨.hostProto, 0x20#32⟩)) ∧
      (s.pk.state ≠ .stopping → s.pk.state ≠ .done → min ≤ max →
        exec (.cpInvoke min max) s = .next (stepped (.cpInvoke min max) s .nothing
          { s with cp := { s.cp with state := .check, min := min, max := max } }))

/-- R152: CP_CHECK's overflow test on PROD's view of the free space, and its choice of the write size. -/
def Obligations.CpCheckChoosesTheWriteSize : Prop :=
  ChecksFirst .cpCheck 0x21#8 [.prod] (CpIn .check) ∧
  ∀ (s : State) (ff : Nat), s.env.issuer = .prod → CpIn .check s → RingInv s.ring → 1 ≤ s.fmt.bpf.toNat →
    ff = (s.ring.cap.toNat - (s.ring.w - s.ring.rp)) / s.fmt.bpf.toNat →
    (ff < s.cp.min → exec .cpCheck s = .next (trapped .cpCheck s ⟨.rbOverflow, BitVec.ofNat 32 ff⟩)) ∧
    (s.cp.min ≤ ff → exec .cpCheck s = .next (stepped .cpCheck s .nothing
      { s with cp := { s.cp with
          wf := min ff s.cp.max
          done := 0
          state := if min ff s.cp.max = 0 then .commit else .reading } }))

/-- R153: CP_SUBREAD_HOLE stores `k` frames of 0x00 after the frames done, counts them, and goes to COMMIT with the last;
no frame, or more than remain, raises HOST_PROTO. The stores fit (R161, NoInnerFault). -/
def Obligations.CpSubreadHoleStoresSilence : Prop :=
  ∀ k : Nat,
    ChecksFirst (.cpSubreadHole k) 0x22#8 [.prod] (CpIn .reading) ∧
    ∀ s : State, s.env.issuer = .prod → CpIn .reading s → RingInv s.ring → s.ring.present = true →
      s.cp.done ≤ s.cp.wf →
      (k = 0 ∨ s.cp.wf - s.cp.done < k →
        exec (.cpSubreadHole k) s = .next (trapped (.cpSubreadHole k) s ⟨.hostProto, BitVec.ofNat 32 k⟩)) ∧
      (1 ≤ k → k ≤ s.cp.wf - s.cp.done → s.cp.wf * s.fmt.bpf.toNat ≤ s.ring.cap.toNat - (s.ring.w - s.ring.rp) →
        ∃ m : Memory, exec (.cpSubreadHole k) s = .next (stepped (.cpSubreadHole k) s .nothing
            { s with
              ring := { s.ring with cells := m }
              cp := { s.cp with
                done := s.cp.done + k
                state := if s.cp.done + k = s.cp.wf then .commit else .reading } }) ∧
          (∀ j < k * s.fmt.bpf.toNat, readMem .ring m
            ((s.ring.w + (s.cp.done * s.fmt.bpf.toNat + j)) % s.ring.cap.toNat) = some 0x00#8) ∧
          ∀ cell, (∀ j < k * s.fmt.bpf.toNat,
              cell ≠ (s.ring.w + (s.cp.done * s.fmt.bpf.toNat + j)) % s.ring.cap.toNat) →
            readMem .ring m cell = s.ring.at cell)

/-- R154: CP_SUBREAD_AREAS stores `k` frames from SRC_MEM, frame by frame, channel 0 then channel 1, sample bytes in
ascending address order; its raise and its control are those of R153. -/
def Obligations.CpSubreadAreasInterleaves : Prop :=
  ∀ k p0 s0 p1 s1 : Nat,
    ChecksFirst (.cpSubreadAreas k p0 s0 p1 s1) 0x23#8 [.prod] (CpIn .reading) ∧
    ∀ s : State, s.env.issuer = .prod → CpIn .reading s → RingInv s.ring → s.ring.present = true →
      s.cp.done ≤ s.cp.wf → s.fmt.bpf.toNat = 2 * s.fmt.bps.toNat →
      (k = 0 ∨ s.cp.wf - s.cp.done < k → exec (.cpSubreadAreas k p0 s0 p1 s1) s =
        .next (trapped (.cpSubreadAreas k p0 s0 p1 s1) s ⟨.hostProto, BitVec.ofNat 32 k⟩)) ∧
      (1 ≤ k → k ≤ s.cp.wf - s.cp.done → s.cp.wf * s.fmt.bpf.toNat ≤ s.ring.cap.toNat - (s.ring.w - s.ring.rp) →
        ∃ m : Memory, exec (.cpSubreadAreas k p0 s0 p1 s1) s =
            .next (stepped (.cpSubreadAreas k p0 s0 p1 s1) s .nothing
              { s with
                ring := { s.ring with cells := m }
                cp := { s.cp with
                  done := s.cp.done + k
                  state := if s.cp.done + k = s.cp.wf then .commit else .reading } }) ∧
          (∀ f < k, ∀ b < s.fmt.bps.toNat,
            readMem .ring m ((s.ring.w + ((s.cp.done + f) * s.fmt.bpf.toNat + b)) % s.ring.cap.toNat) =
              some (memRead s.env.srcMem (p0 + f * s0 + b)) ∧
            readMem .ring m
                ((s.ring.w + ((s.cp.done + f) * s.fmt.bpf.toNat + s.fmt.bps.toNat + b)) % s.ring.cap.toNat) =
              some (memRead s.env.srcMem (p1 + f * s1 + b))) ∧
          ∀ cell, (∀ j < k * s.fmt.bpf.toNat,
              cell ≠ (s.ring.w + (s.cp.done * s.fmt.bpf.toNat + j)) % s.ring.cap.toNat) →
            readMem .ring m cell = s.ring.at cell)

/-- R155: CP_SUBREAD_ERR always raises CAPTURE_READ_ERR with the HOST's value. -/
def Obligations.CpSubreadErrRaises : Prop :=
  ∀ e : Word,
    ChecksFirst (.cpSubreadErr e) 0x24#8 [.prod] (CpIn .reading) ∧
    ∀ s : State, s.env.issuer = .prod → CpIn .reading s →
      exec (.cpSubreadErr e) s = .next (trapped (.cpSubreadErr e) s ⟨.captureReadErr, e⟩)

/-- R156: CP_COMMIT advances `W` by the whole invocation and goes to IDLE. It cannot raise: the invocation fits PROD's
view (R161, NoInnerFault). -/
def Obligations.CpCommitAdvancesOnce : Prop :=
  ChecksFirst .cpCommit 0x25#8 [.prod] (CpIn .commit) ∧
  ∀ s : State, s.env.issuer = .prod → CpIn .commit s → RingInv s.ring →
    s.cp.wf * s.fmt.bpf.toNat ≤ s.ring.cap.toNat - (s.ring.w - s.ring.rp) →
    exec .cpCommit s = .next (stepped .cpCommit s .nothing
      { s with
        ring := { s.ring with w := s.ring.w + s.cp.wf * s.fmt.bpf.toNat }
        cp := { s.cp with state := .idle } })

/-- R157, R267: CP_OVF_NOTIFY counts, modulo 2^32, and reports the count after the increment, in any engine state of
RUNNING; it writes nothing else. -/
def Obligations.CpOvfNotifyCounts : Prop :=
  ChecksFirst .cpOvfNotify 0x26#8 [.host] (fun s => s.phase = .running) ∧
  ∀ s : State, s.env.issuer = .host → s.phase = .running →
    ∃ n : Word, n.toNat = (s.ovfCount.toNat + 1) % 2 ^ 32 ∧
      exec .cpOvfNotify s = .next (stepped .cpOvfNotify s .nothing
        { s with ovfCount := n, reportLog := s.reportLog ++ [.ovf n] })

/-! ## The format negotiator -/

/-- R181, R182, R183, R184: what the four FN operations return, in CONFIG, READY and RUNNING, changing nothing and never
raising. -/
def Obligations.FnOperationsReturn : Prop :=
  ∀ (rate : Word) (bps code : Byte),
    (ChecksFirst (.fnRateCode rate) 0x40#8 [.host] (fun _ => True) ∧
     ChecksFirst (.fnBitDepth bps) 0x41#8 [.host] (fun _ => True) ∧
     ChecksFirst (.fnBuildHeader rate bps) 0x42#8 [.host] (fun _ => True) ∧
     ChecksFirst (.fnDecodeRate code) 0x43#8 [.host] (fun _ => True)) ∧
    ∀ s : State, s.env.issuer = .host → Alive s →
      ∃ (rc bd : FnResult Byte) (h : FnResult Header),
        exec (.fnRateCode rate) s = .next (stepped (.fnRateCode rate) s (.fnByte rc) s) ∧
        exec (.fnBitDepth bps) s = .next (stepped (.fnBitDepth bps) s (.fnByte bd) s) ∧
        exec (.fnBuildHeader rate bps) s = .next (stepped (.fnBuildHeader rate bps) s (.fnHeader h) s) ∧
        (1 ≤ rate.toNat ∧ rate.toNat % 44100 = 0 ∧ rate.toNat / 44100 ≤ 127 →
          rc = .ok (0x80#8 ||| BitVec.ofNat 8 (rate.toNat / 44100))) ∧
        (¬ (1 ≤ rate.toNat ∧ rate.toNat % 44100 = 0 ∧ rate.toNat / 44100 ≤ 127) →
          1 ≤ rate.toNat ∧ rate.toNat % 48000 = 0 ∧ rate.toNat / 48000 ≤ 127 →
          rc = .ok (BitVec.ofNat 8 (rate.toNat / 48000))) ∧
        (¬ (1 ≤ rate.toNat ∧ rate.toNat % 44100 = 0 ∧ rate.toNat / 44100 ≤ 127) →
          ¬ (1 ≤ rate.toNat ∧ rate.toNat % 48000 = 0 ∧ rate.toNat / 48000 ≤ 127) → rc = .err ⟨.negRate, rate⟩) ∧
        (bps.toNat ∈ [1, 2, 3, 4] → bd = .ok (BitVec.ofNat 8 (8 * bps.toNat))) ∧
        (bps.toNat ∉ [1, 2, 3, 4] → bd = .err ⟨.negDepth, bps.setWidth 32⟩) ∧
        (∀ x, rc = .err x → h = .err x) ∧
        (∀ c x, rc = .ok c → bd = .err x → h = .err x) ∧
        (∀ c d, rc = .ok c → bd = .ok d → h = .ok ⟨c, d, 2#8, 0x00#8, 0x03#8⟩) ∧
        exec (.fnDecodeRate code) s = .next (stepped (.fnDecodeRate code) s
          (.fnRate (.ok (if code.toNat / 128 = 1 then 44100 * (code.toNat % 128) else 48000 * (code.toNat % 128)))) s)

/-- Derived (30_encoding.md R106, 42_format_negotiator.md R184): the two wire patterns are the rates 44100 × m and
48000 × m. That their reader is a turn of its own, recorded in TRACE, and has no step in a dead phase, is the model's
choice (log 13). -/
def Obligations.WirePatternsAreRates : Prop :=
  ∀ (m : BitVec 7) (s : State),
    (Alive s →
      exec (.rate44k1 m) s = .next (record .wire ⟨1#1 ++ m, []⟩ (.fnRate (.ok (44100 * m.toNat))) s) ∧
      exec (.rate48k m) s = .next (record .wire ⟨0#1 ++ m, []⟩ (.fnRate (.ok (48000 * m.toNat))) s)) ∧
    (¬ Alive s →
      exec (.rate44k1 m) s = .next (record .wire ⟨1#1 ++ m, []⟩ .noStep s) ∧
      exec (.rate48k m) s = .next (record .wire ⟨0#1 ++ m, []⟩ .noStep s))

/-- R185, R186, R187: FN_RATE_CODE's code decodes to the rate, and every code but 0x00 and 0x80 comes back; the rates it
represents are 254, 44100 × m and 48000 × m for m in 1..127, and every other one is NEG_RATE; no rate is in both
families, and the multiples of 7056000 are rejected. -/
def Obligations.RateCodesRoundTrip : Prop :=
  (∀ (rate : Word) (c : Byte), rateCode rate = .ok c → decodeRate c = rate.toNat) ∧
  (∀ c : Byte, c ≠ 0x00#8 → c ≠ 0x80#8 → rateCode (BitVec.ofNat 32 (decodeRate c)) = .ok c) ∧
  (∀ rate : Word, (∃ c, rateCode rate = .ok c) ↔
    ∃ m : Nat, 1 ≤ m ∧ m ≤ 127 ∧ (rate.toNat = 44100 * m ∨ rate.toNat = 48000 * m)) ∧
  (∃ rates : List Nat, rates.length = 254 ∧ rates.Nodup ∧
    ∀ rate : Word, (∃ c, rateCode rate = .ok c) ↔ rate.toNat ∈ rates) ∧
  (rateCode 44100#32 = .ok 0x81#8 ∧ rateCode 48000#32 = .ok 0x01#8 ∧ rateCode 5600700#32 = .ok 0xFF#8 ∧
    rateCode 6096000#32 = .ok 0x7F#8) ∧
  (∀ rate : Word, (∀ c, rateCode rate ≠ .ok c) → rateCode rate = .err ⟨.negRate, rate⟩) ∧
  (∀ a b : Nat, 44100 * a = 48000 * b → 147 * a = 160 * b ∧ 160 ∣ a) ∧
  (∀ a b : Nat, 1 ≤ a → a ≤ 127 → 1 ≤ b → b ≤ 127 → 44100 * a ≠ 48000 * b) ∧
  (∀ rate : Word, 7056000 ∣ rate.toNat → rateCode rate = .err ⟨.negRate, rate⟩)

/-! ## The packetizer -/

/-- R201, R202, R204: PK_TOP reads CANCEL, PK_POLL goes to DRAIN, PK_WAIT to POLL; none changes anything else. -/
def Obligations.PkControlMoves : Prop :=
  (ChecksFirst .pkTop 0x60#8 [.cons] (PkIn .top) ∧ ChecksFirst .pkPoll 0x61#8 [.cons] (PkIn .poll) ∧
   ChecksFirst .pkWait 0x63#8 [.cons] (PkIn .wait)) ∧
  ∀ s : State, s.env.issuer = .cons →
    (PkIn .top s → exec .pkTop s = .next (stepped .pkTop s .nothing
      { s with pk := { s.pk with state := if s.cancel = true then .stopping else .poll } })) ∧
    (PkIn .poll s → exec .pkPoll s = .next (stepped .pkPoll s .nothing { s with pk := { s.pk with state := .drain } })) ∧
    (PkIn .wait s → exec .pkWait s = .next (stepped .pkWait s .nothing { s with pk := { s.pk with state := .poll } }))

/-- R203: PK_DRAIN moves `k = min(fill_c, 1152 − PK_FILLED)` bytes to PAYBUF in order, releases them, and goes to SEND or
WAIT; the first empty cell among them raises LOAD_UNWRITTEN with its stream position. -/
def Obligations.PkDrainMovesBytes : Prop :=
  ChecksFirst .pkDrain 0x62#8 [.cons] (PkIn .drain) ∧
  ∀ (s : State) (k : Nat), s.env.issuer = .cons → PkIn .drain s → RingInv s.ring → Memory.wf .ring s.ring.cells →
    s.pk.filled ≤ 1152 → k = min (s.ring.wc - s.ring.r) (1152 - s.pk.filled) →
    ((∀ j < k, s.ring.at ((s.ring.r + j) % s.ring.cap.toNat) ≠ none) →
      ∃ m p : Memory, exec .pkDrain s = .next (stepped .pkDrain s .nothing
          { s with
            ring := { s.ring with cells := m, r := s.ring.r + k }
            pk := { paybuf := p, filled := s.pk.filled + k,
                    state := if s.pk.filled + k = 1152 then .send else .wait } }) ∧
        (∀ j < k, readMem .paybuf p (s.pk.filled + j) = s.ring.at ((s.ring.r + j) % s.ring.cap.toNat)) ∧
        (∀ x, (∀ j < k, x ≠ s.pk.filled + j) → readMem .paybuf p x = s.pk.at x) ∧
        (∀ j < k, readMem .ring m ((s.ring.r + j) % s.ring.cap.toNat) = none) ∧
        ∀ cell, (∀ j < k, cell ≠ (s.ring.r + j) % s.ring.cap.toNat) → readMem .ring m cell = s.ring.at cell) ∧
    ∀ j < k, s.ring.at ((s.ring.r + j) % s.ring.cap.toNat) = none →
      (∀ i < j, s.ring.at ((s.ring.r + i) % s.ring.cap.toNat) ≠ none) →
      exec .pkDrain s = .next (trapped .pkDrain s ⟨.loadUnwritten, BitVec.ofNat 32 (s.ring.r + j)⟩)

/-- Derived (43_packetizer.md R205; log 10): PK_SEND hands the socket the five header bytes and the 1152 payload bytes and
logs them with the count; 1157 empties the payload count and goes to TOP, any other count raises TX_SHORT and the log
entry stays. That it also completes over a payload cell that holds no byte, a case no run reaches (R208), is the model's
choice (log 10): of such a cell nothing is said but that some byte goes out. -/
def Obligations.PkSendEmitsTheDatagram : Prop :=
  ∀ sent : Word,
    ChecksFirst (.pkSend sent) 0x64#8 [.cons] (PkIn .send) ∧
    ∀ s : State, s.env.issuer = .cons → PkIn .send s →
      ∃ (p d : List Byte) (out : State), p.length = 1152 ∧ (∀ j < 1152, ∀ b, s.pk.at j = some b → p[j]? = some b) ∧
        d = [s.fmt.hdr.rateCode, s.fmt.hdr.bitDepth, s.fmt.hdr.channelCount, s.fmt.hdr.maskHigh, s.fmt.hdr.maskLow]
          ++ p ∧
        out = { s with
          txLog := s.txLog ++ [⟨d, sent⟩]
          env := { s.env with net := s.env.net ++ [⟨s.socket.addr, s.socket.port, d⟩] } } ∧
        (sent = 1157#32 → exec (.pkSend sent) s =
          .next (stepped (.pkSend sent) s .nothing { out with pk := { s.pk with filled := 0, state := .top } })) ∧
        (sent ≠ 1157#32 → exec (.pkSend sent) s = .next (trapped (.pkSend sent) out ⟨.txShort, sent⟩))

/-- Derived (43_packetizer.md R206, 00_scope.md R13): PK_STOP releases the ring and the socket and ends the run; while an
invocation is in progress it holds: nothing of S changes and the operation stays its agent's next. That a held
operation leaves no TRACE entry is the model's reading (log 4). -/
def Obligations.PkStopEndsTheRun : Prop :=
  ChecksFirst .pkStop 0x65#8 [.cons] (PkIn .stopping) ∧
  ∀ s : State, s.env.issuer = .cons → PkIn .stopping s →
    (s.cp.state = .idle → ∃ q : Ring, exec .pkStop s = .next (stepped .pkStop s .nothing
        { s with
          ring := q
          socket := { s.socket with isOpen := false }
          phase := .stopped
          pk := { s.pk with state := .done }
          reportLog := s.reportLog ++ [.stop]
          exit := some 0 }) ∧
      q.present = false ∧ q.cap = 0#32 ∧ q.w = 0 ∧ q.r = 0 ∧ q.rp = 0 ∧ q.wc = 0 ∧ ∀ cell, q.at cell = none) ∧
    (s.cp.state ≠ .idle → exec .pkStop s =
      .next { s with env := { s.env with pending := { s.env.pending with cons := ⟨0x65#8, []⟩ :: s.env.pending.cons } } })

/-! ## Control -/

/-- R230: CTL_RESET by the HOST puts every field of S but the three logs at its reset value, in every phase; by another
agent it raises OWNERSHIP, in STOPPED too. (What `DEST_ADDR` becomes is unspecified; the model's own fields stay.) -/
def Obligations.CtlResetRestoresTheBlock : Prop :=
  (∀ s : State, s.phase ≠ .fatal → s.env.issuer ≠ .host →
    exec .ctlReset s = .next (trapped .ctlReset s ⟨.ownership, 0x80#32⟩)) ∧
  ∀ s : State, s.env.issuer = .host → ∃ addr : Nat, exec .ctlReset s = .next (stepped .ctlReset s .nothing
    { phase := .config, err := ⟨0x00#8, 0#32⟩, cancel := false, ovfCount := 0#32,
      fmt := ⟨0#32, 0#8, 0#8, ⟨0x00#8, 0x00#8, 0x00#8, 0x00#8, 0x00#8⟩⟩, socket := ⟨addr, 4010#16, false⟩,
      ring := ⟨false, 0#32, [], 0, 0, 0, 0⟩, cp := ⟨.idle, 0, 0, 0, 0⟩, pk := ⟨.off, [], 0⟩,
      trace := s.trace, txLog := s.txLog, reportLog := s.reportLog, exit := none, env := s.env })

/-- R231: CTL_CONFIGURE's checks in order (NEG_NOFORMAT, NEG_RATE, NEG_DEPTH, RB_CREATE_ERR), then the format, the header
and an empty ring of the capacity asked for, or of 30 seconds; a raise writes no configuration. -/
def Obligations.CtlConfigureNegotiates : Prop :=
  ∀ (found : Bool) (rate : Word) (bps : Byte) (cap : Word) (allocOk : Bool),
    ChecksFirst (.ctlConfigure found rate bps cap allocOk) 0x81#8 [.host]
      (fun s => s.phase = .config ∧ s.ring.present = false) ∧
    ∀ (s : State) (i : Instr) (c : Nat), i = .ctlConfigure found rate bps cap allocOk →
      c = (if cap = 0#32 then 30 * rate.toNat * 2 * bps.toNat else cap.toNat) →
      s.env.issuer = .host → s.phase = .config → s.ring.present = false →
      (found = false → exec i s = .next (trapped i s ⟨.negNoformat, 0#32⟩)) ∧
      (∀ x, found = true → rateCode rate = .err x → exec i s = .next (trapped i s ⟨.negRate, rate⟩)) ∧
      (∀ rc x, found = true → rateCode rate = .ok rc → bitDepth bps = .err x →
        exec i s = .next (trapped i s ⟨.negDepth, bps.setWidth 32⟩)) ∧
      (∀ rc bd, found = true → rateCode rate = .ok rc → bitDepth bps = .ok bd →
        1 ≤ c ∧ c < 2 ^ 32 ∧
        (allocOk = false → exec i s = .next (trapped i s ⟨.rbCreateErr, BitVec.ofNat 32 c⟩)) ∧
        (allocOk = true → ∃ q : Ring, exec i s = .next (stepped i s .nothing
            { s with fmt := ⟨rate, bps, BitVec.ofNat 8 (2 * bps.toNat), ⟨rc, bd, 2#8, 0x00#8, 0x03#8⟩⟩,
                     ring := q, phase := .ready }) ∧
          q.present = true ∧ q.cap.toNat = c ∧ q.w = 0 ∧ q.r = 0 ∧ q.rp = 0 ∧ q.wc = 0 ∧ ∀ cell, q.at cell = none))

/-- R232: CTL_SOCKET_OPEN sets the destination and the flag, once, in CONFIG or READY; a failure raises TX_SOCKET. -/
def Obligations.CtlSocketOpenSetsTheDestination : Prop :=
  ∀ (ok : Bool) (addr : Nat) (port : BitVec 16),
    ChecksFirst (.ctlSocketOpen ok addr port) 0x82#8 [.host]
      (fun s => (s.phase = .config ∨ s.phase = .ready) ∧ s.socket.isOpen = false) ∧
    ∀ s : State, s.env.issuer = .host → s.phase = .config ∨ s.phase = .ready → s.socket.isOpen = false →
      (ok = false → exec (.ctlSocketOpen ok addr port) s =
        .next (trapped (.ctlSocketOpen ok addr port) s ⟨.txSocket, 0#32⟩)) ∧
      (ok = true → exec (.ctlSocketOpen ok addr port) s =
        .next (stepped (.ctlSocketOpen ok addr port) s .nothing { s with socket := ⟨addr, port, true⟩ }))

/-- R233: CTL_START starts the stream and the loop from READY with an open socket; a failure raises STREAM_START_ERR. -/
def Obligations.CtlStartRuns : Prop :=
  ∀ ok : Bool,
    ChecksFirst (.ctlStart ok) 0x83#8 [.host] (fun s => s.phase = .ready ∧ s.socket.isOpen = true) ∧
    ∀ s : State, s.env.issuer = .host → s.phase = .ready → s.socket.isOpen = true →
      (ok = false → exec (.ctlStart ok) s = .next (trapped (.ctlStart ok) s ⟨.streamStartErr, 0#32⟩)) ∧
      (ok = true → exec (.ctlStart ok) s =
        .next (stepped (.ctlStart ok) s .nothing { s with phase := .running, pk := { s.pk with state := .top } }))

/-- R234: CTL_CANCEL sets the flag, in CONFIG, READY and RUNNING, and changes nothing else. -/
def Obligations.CtlCancelSetsTheFlag : Prop :=
  ChecksFirst .ctlCancel 0x84#8 [.sig] (fun _ => True) ∧
  ∀ s : State, s.env.issuer = .sig → Alive s →
    exec .ctlCancel s = .next (stepped .ctlCancel s .nothing { s with cancel := true })

/-- R235, R42, R43: CTL_CSR_READ returns the register of the table, by any agent and in every phase, changing nothing. -/
def Obligations.CtlCsrReadReturnsTheRegister : Prop :=
  ∀ (n : Byte) (s : State), ∃ v : Word,
    exec (.ctlCsrRead n) s = .next (stepped (.ctlCsrRead n) s (.word v) s) ∧
    (n = 0x00#8 →
      v.toNat % 2 ^ 3 = (match s.phase with
        | .config => 0 | .ready => 1 | .running => 2 | .stopped => 3 | .fatal => 4) ∧
      v.getLsbD 3 = s.cancel ∧ v.getLsbD 4 = s.socket.isOpen ∧ v.getLsbD 5 = s.ring.present ∧
      v.toNat / 2 ^ 6 % 2 ^ 2 = (match s.cp.state with
        | .idle => 0 | .check => 1 | .reading => 2 | .commit => 3) ∧
      v.toNat / 2 ^ 8 % 2 ^ 3 = (match s.pk.state with
        | .off => 0 | .top => 1 | .poll => 2 | .drain => 3 | .wait => 4 | .send => 5 | .stopping => 6 | .done => 7) ∧
      v.toNat / 2 ^ 11 = 0) ∧
    (n = 0x01#8 → v.toNat = s.err.code.toNat) ∧
    (n = 0x02#8 → v = s.err.info) ∧
    (n = 0x03#8 → v = s.ovfCount) ∧
    (n = 0x04#8 → v = s.ring.cap) ∧
    (n = 0x05#8 → v.toNat = s.ring.w % 2 ^ 32) ∧
    (n = 0x06#8 → v.toNat = s.ring.r % 2 ^ 32) ∧
    (n = 0x07#8 → v.toNat = s.fmt.hdr.rateCode.toNat + s.fmt.hdr.bitDepth.toNat * 2 ^ 8 +
      s.fmt.hdr.channelCount.toNat * 2 ^ 16 + s.fmt.hdr.maskHigh.toNat * 2 ^ 24) ∧
    (n = 0x08#8 → v.toNat = s.fmt.hdr.maskLow.toNat) ∧
    (n = 0x09#8 → v = s.fmt.rate) ∧
    (n = 0x0A#8 → v.toNat = s.fmt.bps.toNat) ∧
    (n = 0x0B#8 → v.toNat = s.socket.port.toNat) ∧
    (n = 0x0C#8 → s.pk.filled ≤ 1152 → v.toNat = s.pk.filled) ∧
    (n = 0x0D#8 → v.toNat = s.cp.wf % 2 ^ 32) ∧
    (n = 0x0E#8 → v.toNat = s.cp.done % 2 ^ 32) ∧
    (n = 0x0F#8 → v.toNat = s.ring.rp % 2 ^ 32) ∧
    (n = 0x10#8 → v.toNat = s.ring.wc % 2 ^ 32) ∧
    (0x11 ≤ n.toNat → v = 0#32)

/-! ## The whole machine -/

/-- R271: the owner of every operation; one issued by another agent raises OWNERSHIP where the block lives, and CTL_RESET
in STOPPED too, where it has a step (R264). -/
def Obligations.OwnersOfOperations : Prop :=
  (∀ (i : Instr) (s : State), i.isWire = false → Alive s ∨ (i = .ctlReset ∧ s.phase = .stopped) → ¬ Owned i s →
    exec i s = .next (trapped i s ⟨.ownership, (recordOf i).code.setWidth 32⟩)) ∧
  ∀ (i : Instr) (a : Agent), i.isWire = false → (mayIssue (recordOf i).code a = true ↔
    match i with
    | .rbWritePtr | .rbFreeCount | .rbStore _ _ | .rbAdvanceWrite _ | .rbSyncR2p | .cpCheck | .cpSubreadHole _
    | .cpSubreadAreas _ _ _ _ _ | .cpSubreadErr _ | .cpCommit => a = .prod
    | .rbReadPtr | .rbFillCount | .rbLoad _ | .rbAdvanceRead _ | .rbSyncW2c | .pkTop | .pkPoll | .pkDrain | .pkWait
    | .pkSend _ | .pkStop => a = .cons
    | .ctlCancel => a = .sig
    | .rbCapacity | .ctlCsrRead _ => True
    | .rbCreate _ | .rbDestroy | .cpInvoke _ _ | .cpOvfNotify | .fnRateCode _ | .fnBitDepth _ | .fnBuildHeader _ _
    | .fnDecodeRate _ | .ctlReset | .ctlConfigure _ _ _ _ _ | .ctlSocketOpen _ _ _ | .ctlStart _
    | .rate44k1 _ | .rate48k _ => a = .host)

/-- R45: the values after power-on, and those after CTL_RESET, which also leaves the three logs, but for its own TRACE
entry. (`DEST_ADDR` is unspecified and not stated.) -/
def Obligations.PowerOnAndResetValues : Prop :=
  (HasResetValues State.reset ∧
    State.reset.trace = [] ∧ State.reset.txLog = [] ∧ State.reset.reportLog = []) ∧
  ∀ s : State, s.env.issuer = .host → ∃ t, exec .ctlReset s = .next t ∧ HasResetValues t ∧
    t.trace = s.trace ++ [⟨.agent .host, ⟨0x80#8, []⟩, .nothing⟩] ∧ t.txLog = s.txLog ∧ t.reportLog = s.reportLog

/-- Derived (R34, R35, R208, R237): the invariants hold after power-on. -/
def Obligations.InvariantsHoldAtReset : Prop := Inv State.reset

/-- Derived (R34, R35, R134, R159, R160, R161, R162, R207, R208, R237, R239): every step, from every state with the
invariants, gives a state with the invariants. -/
def Obligations.StepKeepsInvariants : Prop :=
  ∀ s t : State, Inv s → step s = .next t → Inv t

/-- Derived (R34, R35, R134): whatever the agents issue, in whatever order, and whatever the HOST's memory becomes, every
state that a run reaches has the invariants. -/
def Obligations.ReachableStatesHaveInvariants : Prop :=
  ∀ s : State, Reachable s → Inv s

/-- R264: in STOPPED and FATAL every operation but CTL_RESET and CTL_CSR_READ has no step: nothing is recorded but the
attempt, and the HOST's reset and any agent's register reads go on. -/
def Obligations.DeadPhasesHaveNoSteps : Prop :=
  ∀ (s : State), s.phase = .stopped ∨ s.phase = .fatal →
    (∀ i : Instr, i.isWire = false → i ≠ .ctlReset → (∀ n, i ≠ .ctlCsrRead n) → exec i s = .next (attempted i s)) ∧
    (∀ n, ∃ v, exec (.ctlCsrRead n) s = .next (stepped (.ctlCsrRead n) s (.word v) s)) ∧
    (s.env.issuer = .host → ∃ t, exec .ctlReset s = .next t ∧ t.phase = .config ∧ t.exit = none) ∧
    (∀ (a : Agent) (x : Txn), operandFields x.code = none →
      step (issueNext s a x) = .next (record (.agent a) x .noStep { s with env := { s.env with issuer := a } }))

/-- R265: nothing but CTL_RESET leaves FATAL, and the first error is the one kept. -/
def Obligations.OnlyResetLeavesFatal : Prop :=
  ∀ (i : Instr) (s t : State), s.phase = .fatal → exec i s = .next t →
    (t.phase = .fatal ∧ t.err = s.err ∧ t.reportLog = s.reportLog ∧ t.exit = s.exit) ∨
    (i = .ctlReset ∧ s.env.issuer = .host)

/-- R262, R263: an operation that enters FATAL has performed exactly the trap's writes, with its TRACE entry; every other
field keeps the value it had before, but for what PK_SEND had sent and logged before its count was checked. -/
def Obligations.TrapsArePrecise : Prop :=
  ∀ (i : Instr) (s t : State), s.phase ≠ .fatal → exec i s = .next t → t.phase = .fatal →
    ∃ (x : Raise) (before : State),
      t = record (.agent s.env.issuer) (recordOf i) (.raised x)
        { before with
          err := ⟨errCodeOf x.err, x.info⟩
          phase := .fatal
          reportLog := s.reportLog ++ [.fatal (errCodeOf x.err) x.info]
          exit := some Config.exitFail } ∧
      (before = s ∨
        ∃ (sent : Word) (d : List Byte), i = .pkSend sent ∧ x = ⟨.txShort, sent⟩ ∧ before = { s with
          txLog := s.txLog ++ [⟨d, sent⟩]
          env := { s.env with net := s.env.net ++ [⟨s.socket.addr, s.socket.port, d⟩] } })

/-- Derived (60_exceptions.md R261): the errors that each operation raises, with their `info` where the table gives it
outright; every other code is never raised. (ILLEGAL_OP is the decoder's: ReservedCodesRaise.) -/
def Obligations.ErrorsHaveTheirCauses : Prop :=
  ∀ (i : Instr) (s t : State), s.phase ≠ .fatal → exec i s = .next t → t.phase = .fatal →
    match t.err.code.toNat with
    | 0x01 => ∃ rate bps cap ok, i = .ctlConfigure false rate bps cap ok ∧ t.err.info = 0#32
    | 0x02 => ∃ rate bps cap ok, i = .ctlConfigure true rate bps cap ok ∧ t.err.info = rate
    | 0x03 => ∃ rate bps cap ok, i = .ctlConfigure true rate bps cap ok ∧ t.err.info = bps.setWidth 32
    | 0x04 => i = .rbCreate 0#32 ∧ t.err.info = 0#32 ∨
        ∃ rate bps cap, i = .ctlConfigure true rate bps cap false ∧ (cap ≠ 0#32 → t.err.info = cap)
    | 0x05 => i = .ctlStart false ∧ t.err.info = 0#32
    | 0x10 => i = .cpCheck ∧ t.err.info = BitVec.ofNat 32 s.freeFrames
    | 0x11 => i = .cpSubreadErr t.err.info
    | 0x20 => ∃ addr port, i = .ctlSocketOpen false addr port ∧ t.err.info = 0#32
    | 0x21 => i = .pkSend t.err.info ∧ t.err.info ≠ 1157#32
    | 0x30 => (∃ n, i = .rbAdvanceWrite n ∧ t.err.info = BitVec.ofNat 32 n) ∨ i = .cpCommit
    | 0x31 => ∃ n, i = .rbAdvanceRead n ∧ t.err.info = BitVec.ofNat 32 n
    | 0x32 => (∃ k b, i = .rbStore k b ∧ t.err.info = BitVec.ofNat 32 k) ∨ (∃ k, i = .cpSubreadHole k) ∨
        ∃ k p0 s0 p1 s1, i = .cpSubreadAreas k p0 s0 p1 s1
    | 0x33 => ∃ k, i = .rbLoad k ∧ t.err.info = BitVec.ofNat 32 k
    | 0x34 => (∃ k, i = .rbLoad k ∧ t.err.info = BitVec.ofNat 32 (s.ring.r + k)) ∨ i = .pkDrain
    | 0x35 => mayIssue (recordOf i).code s.env.issuer = false ∧ t.err.info = (recordOf i).code.setWidth 32
    | 0x37 => t.err.info = (recordOf i).code.setWidth 32
    | 0x38 => (∃ min max, i = .cpInvoke min max ∧ t.err.info = 0x20#32) ∨
        (∃ k, i = .cpSubreadHole k ∧ t.err.info = BitVec.ofNat 32 k) ∨
        ∃ k p0 s0 p1 s1, i = .cpSubreadAreas k p0 s0 p1 s1 ∧ t.err.info = BitVec.ofNat 32 k
    | _ => False

/-- R23, R24: only CTL_CANCEL sets CANCEL and only CTL_RESET clears it; only CP_OVF_NOTIFY increments OVF_COUNT and only
CTL_RESET clears it; and PK_TOP alone reads CANCEL inside the block: whatever the flag is, any other operation leaves
the same (CTL_CSR_READ reports the flag to its issuer). -/
def Obligations.FlagWriters : Prop :=
  ∀ (i : Instr) (s t : State), exec i s = .next t →
    (t.cancel = s.cancel ∨ (i = .ctlCancel ∧ t.cancel = true) ∨ (i = .ctlReset ∧ t.cancel = false)) ∧
    (t.ovfCount = s.ovfCount ∨ (i = .cpOvfNotify ∧ t.ovfCount = s.ovfCount + 1#32) ∨
      (i = .ctlReset ∧ t.ovfCount = 0#32)) ∧
    (i ≠ .pkTop → (∀ n, i ≠ .ctlCsrRead n) → ∀ v : Bool, ∃ w : Bool,
      exec i { s with cancel := v } = .next { t with cancel := w })

/-- Derived (44_control.md R239): once configured, no operation but CTL_RESET changes the format registers or the header,
which are FN_BUILD_HEADER's; CAP changes only when PK_STOP releases the ring; and once the socket is open, the
destination stays. -/
def Obligations.ConfigurationIsImmutable : Prop :=
  ∀ (i : Instr) (s t : State), Inv s → exec i s = .next t → i ≠ .ctlReset →
    (s.phase = .ready ∨ s.phase = .running ∨ s.phase = .stopped →
      t.fmt = s.fmt ∧ buildHeader t.fmt.rate t.fmt.bps = .ok t.fmt.hdr ∧ (t.ring.cap = s.ring.cap ∨ i = .pkStop)) ∧
    (s.socket.isOpen = true → t.socket.addr = s.socket.addr ∧ t.socket.port = s.socket.port)

/-- R34, R35: in every reachable state with a ring, the cursors and views stand in order; `fill + free = CAP`; each side's
count is a lower bound of the true one; the two sides' counts sum to at most CAP; and the modular difference gives
`fill` unless the ring is full. -/
def Obligations.CountsOfTheRing : Prop :=
  ∀ (s : State) (q : Ring), Reachable s → q = s.ring → q.present = true →
    (q.rp ≤ q.r ∧ q.r ≤ q.wc ∧ q.wc ≤ q.w ∧ q.w - q.rp ≤ q.capacity) ∧
    q.w - q.r ≤ q.capacity ∧ q.fill + q.free = q.capacity ∧ q.freeProd ≤ q.free ∧ q.fillCons ≤ q.fill ∧
    q.fillCons + q.freeProd ≤ q.capacity ∧
    (q.fill < q.capacity → (q.w - q.r) % q.capacity = q.fill) ∧
    (q.fill = q.capacity → (q.w - q.r) % q.capacity = 0)

/-- R137: empty (`W = R`) and full (`W − R = CAP`) give equal cell numbers and are told apart; a full ring rejects every
store and every commit of a byte or more in PROD's view, an empty one every load and every release in CONS's view. -/
def Obligations.EmptyAndFullAreDistinct : Prop :=
  ∀ s : State, Standalone s → RingInv s.ring →
    ¬ (s.ring.w = s.ring.r ∧ s.ring.w - s.ring.r = s.ring.capacity) ∧
    (s.ring.w = s.ring.r ∨ s.ring.w - s.ring.r = s.ring.capacity →
      s.ring.w % s.ring.capacity = s.ring.r % s.ring.capacity) ∧
    (s.ring.w - s.ring.r = s.ring.capacity → s.env.issuer = .prod →
      (∀ k b, exec (.rbStore k b) s = .next (trapped (.rbStore k b) s ⟨.storeRange, BitVec.ofNat 32 k⟩)) ∧
      (∀ n, 1 ≤ n → exec (.rbAdvanceWrite n) s =
        .next (trapped (.rbAdvanceWrite n) s ⟨.advWriteRange, BitVec.ofNat 32 n⟩))) ∧
    (s.ring.w = s.ring.r → s.env.issuer = .cons →
      (∀ k, exec (.rbLoad k) s = .next (trapped (.rbLoad k) s ⟨.loadRange, BitVec.ofNat 32 k⟩)) ∧
      (∀ n, 1 ≤ n → exec (.rbAdvanceRead n) s =
        .next (trapped (.rbAdvanceRead n) s ⟨.advReadRange, BitVec.ofNat 32 n⟩)))

/-- R136: cursors kept modulo `M > CAP` give the same counts; where CAP divides M they give the same cells, and otherwise
cell numbers kept apart and advanced modulo CAP do. -/
def Obligations.FiniteCursorsSuffice : Prop :=
  ∀ (q : Ring) (M : Nat), RingInv q → q.present = true → q.capacity < M →
    boundedCount M q.wc q.r = q.fillCons ∧ q.capacity - boundedCount M q.w q.rp = q.freeProd ∧
    (q.capacity ∣ M → ∀ k, boundedCell M q.capacity q.w k = q.writeCell k ∧
      boundedCell M q.capacity q.r k = q.readCell k) ∧
    ∀ n k, (q.cellOf q.w + n) % q.capacity = q.cellOf (q.w + n) ∧
      (q.cellOf q.w + k) % q.capacity = q.writeCell k ∧ (q.cellOf q.r + k) % q.capacity = q.readCell k

/-- R161: inside an invocation no inner store raises and the commit never raises. (That a drain of bytes the producer has
stored does not raise either is R203's.) -/
def Obligations.NoInnerFault : Prop :=
  ∀ s : State, Inv s →
    (s.env.issuer = .prod → CpIn .reading s → ∀ k, 1 ≤ k → k ≤ s.cp.wf - s.cp.done →
      (∃ t, exec (.cpSubreadHole k) s = .next t ∧ t.phase = .running ∧ t.cp.done = s.cp.done + k) ∧
      ∀ p0 s0 p1 s1, ∃ t, exec (.cpSubreadAreas k p0 s0 p1 s1) s = .next t ∧ t.phase = .running ∧
        t.cp.done = s.cp.done + k) ∧
    (s.env.issuer = .prod → CpIn .commit s → ∃ t, exec .cpCommit s = .next t ∧ t.phase = .running ∧
      t.ring.w = s.ring.w + s.cp.wf * s.fmt.bpf.toNat) ∧
    (s.env.issuer = .cons → PkIn .drain s → ∃ t, exec .pkDrain s = .next t ∧ t.phase = .running)

/-- Derived (20_memory.md R73, R74, R75, 43_packetizer.md R208, R209): the stream law. The bytes on their way to the
network, those of the packet in progress then those in the ring, are a queue: a commit appends what was stored, a
release drops from the front, PK_SEND takes exactly its first 1152 as its payload, PK_DRAIN and every other operation
neither add, lose nor reorder a byte. -/
def Obligations.StreamIsAQueue : Prop :=
  ∀ (i : Instr) (s t : State), Inv s → Alive s → exec i s = .next t → t.phase ≠ .fatal →
    match i with
    | .rbAdvanceWrite n => t.pipeline = s.pipeline ++ s.ring.writable n
    | .cpCommit => t.pipeline = s.pipeline ++ s.ring.writable (s.cp.wf * s.fmt.bpf.toNat)
    | .rbAdvanceRead n => t.pipeline = s.pipeline.drop n
    | .pkSend sent => t.pipeline = s.pipeline.drop 1152 ∧
        ∃ e : TxEntry, t.txLog = s.txLog ++ [e] ∧ e.sent = sent ∧
          (e.bytes.drop 5).map some = s.pipeline.take 1152
    | .rbLoad k => t.pipeline = s.pipeline ∧ ∃ b : Byte, s.pipeline[k]? = some (some b) ∧
        t.trace = s.trace ++ [⟨.agent s.env.issuer, recordOf i, .byte b⟩]
    | .rbCreate _ | .rbDestroy | .ctlReset | .ctlConfigure _ _ _ _ _ => t.pipeline = []
    | .pkStop => t.pipeline = if s.cp.state = .idle then [] else s.pipeline
    | _ => t.pipeline = s.pipeline

/-- Derived (43_packetizer.md R210): once CANCEL is set and the loop is at OFF, TOP or past them, no datagram is sent any more; set while a packet is
in progress, that packet's PK_SEND, which leaves the loop at TOP, is the last. -/
def Obligations.CancellationStopsTheLoop : Prop :=
  ∀ (i : Instr) (s t : State), Inv s → s.cancel = true → exec i s = .next t → i ≠ .ctlReset →
    t.cancel = true ∧
    (s.pk.state ∈ [PkState.off, .top, .stopping, .done] →
      t.pk.state ∈ [PkState.off, .top, .stopping, .done] ∧ t.txLog = s.txLog) ∧
    (s.pk.state ∈ [PkState.poll, .drain, .wait, .send] →
      t.pk.state ∈ [PkState.poll, .drain, .wait, .send] ∧ (t.txLog = s.txLog ∨ t.phase = .fatal) ∨
      t.pk.state = .top ∧ ∃ e : TxEntry, t.txLog = s.txLog ++ [e])

/-- Derived (43_packetizer.md R207, 44_control.md R240): every datagram has 1157 bytes, and begins with the five header bytes that the configuration gave: byte 0
decodes to RATE, byte 1 is 8 × BPS, then 2 channels and the mask 0x0003. -/
def Obligations.DatagramsCarryTheHeader : Prop :=
  ∀ (sent : Word) (s t : State), Inv s → PkIn .send s → s.env.issuer = .cons → exec (.pkSend sent) s = .next t →
    ∃ (e : TxEntry) (rc bd : Byte), t.txLog = s.txLog ++ [e] ∧ e.bytes.length = 1157 ∧
      e.bytes.take 5 = [rc, bd, 2#8, 0x00#8, 0x03#8] ∧ s.fmt.hdr = ⟨rc, bd, 2#8, 0x00#8, 0x03#8⟩ ∧
      decodeRate rc = s.fmt.rate.toNat ∧ bd.toNat = 8 * s.fmt.bps.toNat

/-- Derived (20_memory.md R73, R74, R78): under fair view copies, in a run in which the ring lives on, every commit
becomes visible to CONS and every release to PROD. -/
def Obligations.ViewsCatchUp : Prop :=
  ∀ (state : Nat → State) (issued : Nat → Agent × Txn) (n : Nat),
    IsRun state issued → FairSyncs state issued → Inv (state n) →
    (∀ m, n ≤ m → Syncable (state m)) →
    (∀ m, n ≤ m → (issued m).2 ≠ recordOf .rbDestroy ∧ (issued m).2 ≠ recordOf .ctlReset) →
    (∃ m, n ≤ m ∧ (state n).ring.w ≤ (state m).ring.wc) ∧ ∃ m, n ≤ m ∧ (state n).ring.r ≤ (state m).ring.rp

/-- Derived (44_control.md R238): under fair engines no CP or PK operation of PROD or CONS, with whatever operands, stays
enabled for ever: the engine moves on, or the run ends or is reset. (An invocation in READING moves on because every
sub-read answers a frame or raises.) -/
def Obligations.EnginesMoveOn : Prop :=
  ∀ (state : Nat → State) (issued : Nat → Agent × Txn), IsRun state issued → FairEngines state issued →
    ∀ (i : Instr) (n : Nat), ∃ m, n ≤ m ∧ ¬ engineEnabled i (state m)

/-- Derived (40_ring_buffer.md R138, 41_capture_producer.md R158): no operation but PK_STOP holds: each is used up and
leaves its TRACE entry; the pending operations, the turns and the HOST's memory are no operation's to change. Of three
cases that is the model's choice: CP_INVOKE while the stream is stopping (log 5; R277 counts it among the waits), a
CTL_RESET in FATAL by another agent than the HOST (log 6), and the entry of a wire turn (log 13); so is it that a held
PK_STOP leaves no entry (log 4). -/
def Obligations.OnlyStopHolds : Prop :=
  ∀ (i : Instr) (s : State), ∃ t, exec i s = .next t ∧
    t.env.schedule = s.env.schedule ∧ t.env.srcMem = s.env.srcMem ∧ t.env.issuer = s.env.issuer ∧
    ((t.env.pending = s.env.pending ∧ ∃ e : TraceEntry, t.trace = s.trace ++ [e] ∧ e.txn = recordOf i) ∨
     (i = .pkStop ∧ s.pk.state = .stopping ∧ s.cp.state ≠ .idle))

/-! ## Frames -/

/-- Derived (40_ring_buffer.md R121–R133, 20_memory.md R61): what the RB operations leave unchanged. The queries and
RB_LOAD write nothing; RB_STORE one cell, of the offset from `W`; the advances and the view copies their cursor;
RB_ADVANCE_READ also empties the cells it releases; RB_CREATE and RB_DESTROY the ring. -/
def Obligations.FrameOfRing : Prop :=
  (∀ (i : Instr) (s t : State),
    (i = .rbCapacity ∨ i = .rbWritePtr ∨ i = .rbFreeCount ∨ i = .rbReadPtr ∨ i = .rbFillCount ∨ i = .rbSyncR2p ∨
      i = .rbSyncW2c ∨ i = .rbDestroy ∨ (∃ cap, i = .rbCreate cap) ∨ (∃ k b, i = .rbStore k b) ∨
      (∃ k, i = .rbLoad k) ∨ (∃ n, i = .rbAdvanceWrite n) ∨ ∃ n, i = .rbAdvanceRead n) →
    exec i s = .next t → Alive s → Framed i s t) ∧
  (∀ (k : Nat) (b : Byte) (s t : State), exec (.rbStore k b) s = .next t →
    SameOutside .ring s.ring.cells t.ring.cells (fun cell => cell = s.ring.writeCell k)) ∧
  (∀ (n : Nat) (s t : State), exec (.rbAdvanceRead n) s = .next t →
    SameOutside .ring s.ring.cells t.ring.cells (fun cell => ∃ i < n, cell = s.ring.readCell i))

/-- Derived (41_capture_producer.md R151–R157): what the CP operations leave unchanged. The sub-reads store inside the
cells of the frames they answer, at the offsets the spec computes, and nowhere else. That CP_INVOKE while the stream is
stopping is used up and leaves a TRACE entry is the model's reading (log 5), not R151's. -/
def Obligations.FrameOfProducer : Prop :=
  (∀ (i : Instr) (s t : State),
    ((∃ min max, i = .cpInvoke min max) ∨ i = .cpCheck ∨ (∃ k, i = .cpSubreadHole k) ∨
      (∃ k p0 s0 p1 s1, i = .cpSubreadAreas k p0 s0 p1 s1) ∨ (∃ e, i = .cpSubreadErr e) ∨ i = .cpCommit ∨
      i = .cpOvfNotify) →
    exec i s = .next t → Alive s → Framed i s t) ∧
  (∀ (k : Nat) (s t : State), exec (.cpSubreadHole k) s = .next t →
    SameOutside .ring s.ring.cells t.ring.cells
      (fun cell => ∃ j < k * s.fmt.bytesPerFrame, cell = s.ring.writeCell (s.cp.done * s.fmt.bytesPerFrame + j))) ∧
  (∀ (k p0 s0 p1 s1 : Nat) (s t : State), exec (.cpSubreadAreas k p0 s0 p1 s1) s = .next t →
    SameOutside .ring s.ring.cells t.ring.cells
      (fun cell => ∃ f < k, ∃ c < 2, ∃ b < s.fmt.bytesPerSample,
        cell = s.ring.writeCell (s.fmt.offset (s.cp.done + f) c b)))

/-- Derived (42_format_negotiator.md R180, 43_packetizer.md R201–R206): what the FN and PK operations leave unchanged. The
FN operations write nothing; PK_DRAIN writes PAYBUF only behind PK_FILLED and empties only the cells it releases;
PK_SEND and PK_STOP leave PAYBUF's bytes. That a wire pattern adds a TRACE entry, and nothing else, is the model's choice
(log 13). -/
def Obligations.FrameOfPacketizer : Prop :=
  (∀ (i : Instr) (s t : State),
    ((∃ r, i = .fnRateCode r) ∨ (∃ b, i = .fnBitDepth b) ∨ (∃ r b, i = .fnBuildHeader r b) ∨
      (∃ c, i = .fnDecodeRate c) ∨ i = .pkTop ∨ i = .pkPoll ∨ i = .pkDrain ∨ i = .pkWait ∨ (∃ x, i = .pkSend x) ∨
      i = .pkStop ∧ ¬ (s.pk.state = .stopping ∧ s.cp.state ≠ .idle)) →
    exec i s = .next t → Alive s → Framed i s t) ∧
  (∀ (m : BitVec 7) (i : Instr) (s t : State), i = .rate44k1 m ∨ i = .rate48k m → exec i s = .next t →
    ∃ e : TraceEntry, t = { s with trace := s.trace ++ [e] }) ∧
  (∀ s t : State, exec .pkDrain s = .next t →
    SameOutside .paybuf s.pk.paybuf t.pk.paybuf (fun x => ∃ j < s.drainCount, x = s.pk.filled + j) ∧
    SameOutside .ring s.ring.cells t.ring.cells (fun cell => ∃ j < s.drainCount, cell = s.ring.readCell j))

/-- Derived (44_control.md R230–R235): what the CTL operations leave unchanged: CTL_CONFIGURE writes the format, the ring
and PHASE, CTL_SOCKET_OPEN the socket's registers, CTL_START PHASE and PK_STATE, CTL_CANCEL CANCEL, CTL_CSR_READ
nothing; CTL_RESET leaves the three logs and the model's own fields. -/
def Obligations.FrameOfControl : Prop :=
  (∀ (i : Instr) (s t : State),
    (i = .ctlReset ∨ (∃ f r b c a, i = .ctlConfigure f r b c a) ∨ (∃ k a p, i = .ctlSocketOpen k a p) ∨
      (∃ k, i = .ctlStart k) ∨ i = .ctlCancel ∨ ∃ n, i = .ctlCsrRead n) →
    exec i s = .next t → Alive s → Framed i s t) ∧
  (∀ (s t : State), exec .ctlReset s = .next t →
    t.txLog = s.txLog ∧ t.env = s.env ∧
    (t.reportLog = s.reportLog ∨ ∃ x : Raise, t.reportLog = s.reportLog ++ [.fatal (errCodeOf x.err) x.info]))

end
end

