-- ==== Sys2Proof/Laws/Decode.lean ====
section
/-! SUPPORT. What the readers of operand fields do: forwards on a field the encoder wrote, backwards from what they
read. -/

namespace Sys2Proof

theorem takeNat_field (name : OperandName) (v : Nat) (os : List Operand) :
    takeNat name (⟨name, v⟩ :: os) = .ok (v, os) := by simp [takeNat]

theorem takeBits_field (name : OperandName) {w : Nat} (v : BitVec w) (os : List Operand) :
    takeBits name w (⟨name, v.toNat⟩ :: os) = .ok (v, os) := by
  simp [takeBits, takeNat, v.isLt]

theorem takeBit_field (name : OperandName) (v : Bool) (os : List Operand) :
    takeBit name (⟨name, bitValue v⟩ :: os) = .ok (v, os) := by
  cases v <;> simp [takeBit, takeBits, takeNat, bitValue]

theorem takeBits_lt (name : OperandName) {w v : Nat} (h : v < 2 ^ w) (os : List Operand) :
    takeBits name w (⟨name, v⟩ :: os) = .ok (BitVec.ofNat w v, os) := by
  simp [takeBits, takeNat, h]

theorem takeBit_lt (name : OperandName) {v : Nat} (h : v < 2 ^ 1) (os : List Operand) :
    takeBit name (⟨name, v⟩ :: os) = .ok (BitVec.ofNat 1 v == 1#1, os) := by
  rw [takeBit, takeBits_lt name h]

/-- What a natural field was read from. -/
theorem takeNat_inv {name : OperandName} {os rest : List Operand} {v : Nat} (h : takeNat name os = .ok (v, rest)) :
    os = ⟨name, v⟩ :: rest := by
  cases os with
  | nil => simp [takeNat] at h
  | cons o os =>
    obtain ⟨m, x⟩ := o
    simp only [takeNat] at h
    split at h
    · simp_all
    · simp at h

/-- What a field of some bits was read from. -/
theorem takeBits_inv {name : OperandName} {w : Nat} {os rest : List Operand} {v : BitVec w}
    (h : takeBits name w os = .ok (v, rest)) : os = ⟨name, v.toNat⟩ :: rest := by
  unfold takeBits at h
  split at h
  · cases h
  · rename_i x r hx
    split at h
    · rename_i hlt
      obtain ⟨rfl, rfl⟩ : BitVec.ofNat w x = v ∧ r = rest := by simpa using h
      rw [takeNat_inv hx, BitVec.toNat_ofNat, Nat.mod_eq_of_lt hlt]
    · cases h

theorem bitValue_eq (x : BitVec 1) : x.toNat = bitValue (x == 1#1) := by revert x; decide

/-- What a field of one bit was read from. -/
theorem takeBit_inv {name : OperandName} {os rest : List Operand} {v : Bool} (h : takeBit name os = .ok (v, rest)) :
    os = ⟨name, bitValue v⟩ :: rest := by
  unfold takeBit at h
  split at h
  · cases h
  · rename_i x r hx
    obtain ⟨rfl, rfl⟩ : (x == 1#1) = v ∧ r = rest := by simpa using h
    rw [takeBits_inv hx, bitValue_eq]

theorem endOf_inv {i j : Instr} {os : List Operand} (h : endOf i os = .ok j) : os = [] ∧ j = i := by
  cases os <;> simp_all [endOf]

/-- No reader of a field calls a code reserved. -/
theorem endOf_ne_reserved {i : Instr} {os : List Operand} {c : Byte} : endOf i os ≠ .error (.reserved c) := by
  cases os <;> simp [endOf]

theorem takeNat_ne_reserved {name : OperandName} {os : List Operand} {c : Byte} :
    takeNat name os ≠ .error (.reserved c) := by
  unfold takeNat
  repeat' split
  all_goals simp

theorem takeBits_ne_reserved {name : OperandName} {w : Nat} {os : List Operand} {c : Byte} :
    takeBits name w os ≠ .error (.reserved c) := by
  unfold takeBits
  split
  · rename_i h
    intro hx
    injection hx with hx
    subst hx
    exact takeNat_ne_reserved h
  · split <;> simp

theorem takeBit_ne_reserved {name : OperandName} {os : List Operand} {c : Byte} :
    takeBit name os ≠ .error (.reserved c) := by
  unfold takeBit
  split
  · rename_i h
    intro hx
    injection hx with hx
    subst hx
    exact takeBits_ne_reserved h
  · simp

theorem bind_ne_reserved {α β : Type} {x : Except DecodeError α} {f : α → Except DecodeError β} {c : Byte}
    (hx : x ≠ .error (.reserved c)) (hf : ∀ a, f a ≠ .error (.reserved c)) :
    (x >>= f) ≠ .error (.reserved c) := by
  cases x with
  | error e =>
    intro h
    injection h with h
    exact hx (by rw [h])
  | ok a => exact hf a

/-- A sequence of readers that succeeds succeeds at each. -/
theorem except_bind_inv {ε α β : Type} {x : Except ε α} {f : α → Except ε β} {b : β} (h : (x >>= f) = .ok b) :
    ∃ a, x = .ok a ∧ f a = .ok b := by
  cases x with
  | error e => cases h
  | ok a => exact ⟨a, rfl, h⟩

/-- What a record that begins with a field of the table is made of. -/
theorem recordMatches_cons_inv {f : OperandField} {fs : List OperandField} {os : List Operand}
    (h : recordMatches (f :: fs) os = true) :
    ∃ v rest, os = ⟨f.name, v⟩ :: rest ∧ f.width.admits v = true ∧ recordMatches fs rest = true := by
  cases os with
  | nil => simp [recordMatches] at h
  | cons o os =>
    obtain ⟨name, v⟩ := o
    simp only [recordMatches, Bool.and_eq_true, decide_eq_true_eq] at h
    obtain ⟨⟨rfl, h2⟩, h3⟩ := h
    exact ⟨v, os, rfl, h2, h3⟩

theorem recordMatches_nil_inv {os : List Operand} (h : recordMatches [] os = true) : os = [] := by
  cases os <;> simp_all [recordMatches]

/-- A code is its unit and its function (30_encoding.md R91). -/
theorem code_eq_of_fields {c d : Byte} (hu : unitOf c = unitOf d) (hf : fnOf c = fnOf d) : c = d := by
  unfold unitOf at hu
  unfold fnOf at hf
  apply BitVec.eq_of_toNat_eq
  omega

end Sys2Proof
end

