-- ==== Sys2Proof/Laws/Memory.lean ====
section
/-! SUPPORT. The laws of a byte memory: what is read after a write, that every operation keeps the canonical form, and
that two memories in canonical form that read alike are equal. -/

namespace Sys2Proof.Machine

open Sys2Proof

/-! ## Reading what was listed -/

@[simp] theorem lookup_nil (a : Nat) : lookup a [] = none := rfl

theorem lookup_cons (a x : Nat) (y : Byte) (m : Memory) :
    lookup a ((x, y) :: m) = if a = x then some y else lookup a m := rfl

/-- An address below every listed one is not listed. -/
theorem lookup_eq_none_of_lt {a : Nat} {m : Memory} (h : ∀ c ∈ m, a < c.1) : lookup a m = none := by
  induction m with
  | nil => rfl
  | cons c m ih =>
    obtain ⟨x, y⟩ := c
    have hx : a < x := h (x, y) (by simp)
    rw [lookup_cons, if_neg (by omega)]
    exact ih fun c hc => h c (by simp [hc])

theorem lookup_insertCell (a x : Nat) (b : Byte) (m : Memory) :
    lookup x (insertCell a b m) = if x = a then some b else lookup x m := by
  induction m with
  | nil => simp [insertCell, lookup_cons]
  | cons c m ih =>
    obtain ⟨z, y⟩ := c
    simp only [insertCell]
    split
    · simp [lookup_cons]
    · split
      · subst_vars
        simp only [lookup_cons]
        split <;> simp_all
      · simp only [lookup_cons, ih]
        split <;> split <;> simp_all

theorem lookup_eraseCell_other {a x : Nat} (m : Memory) (h : x ≠ a) : lookup x (eraseCell a m) = lookup x m := by
  induction m with
  | nil => rfl
  | cons c m ih =>
    obtain ⟨z, y⟩ := c
    simp only [eraseCell]
    split
    · subst_vars
      simp [lookup_cons, h]
    · simp [lookup_cons, ih]

theorem lookup_eraseCell_self {a : Nat} {m : Memory} (h : m.Pairwise (fun x y => x.1 < y.1)) :
    lookup a (eraseCell a m) = none := by
  induction m with
  | nil => rfl
  | cons c m ih =>
    obtain ⟨z, y⟩ := c
    rw [List.pairwise_cons] at h
    simp only [eraseCell]
    split
    · subst_vars
      exact lookup_eq_none_of_lt h.1
    · rename_i hne
      rw [lookup_cons, if_neg hne]
      exact ih h.2

/-- A byte read is a listed pair. -/
theorem mem_of_lookup {a : Nat} {b : Byte} {m : Memory} (h : lookup a m = some b) : (a, b) ∈ m := by
  induction m with
  | nil => simp at h
  | cons c m ih =>
    obtain ⟨x, y⟩ := c
    rw [lookup_cons] at h
    split at h
    · simp_all
    · simp [ih h]

/-! ## What the operations list -/

theorem mem_insertCell {a : Nat} {b : Byte} {m : Memory} {c : Host.Cell} (h : c ∈ insertCell a b m) :
    c = (a, b) ∨ c ∈ m := by
  induction m with
  | nil => simpa [insertCell] using h
  | cons d m ih =>
    obtain ⟨x, y⟩ := d
    simp only [insertCell] at h
    split at h
    · simpa using h
    · split at h
      · rcases List.mem_cons.1 h with h | h
        · exact .inl h
        · exact .inr (by simp [h])
      · rcases List.mem_cons.1 h with h | h
        · exact .inr (by simp [h])
        · rcases ih h with h | h
          · exact .inl h
          · exact .inr (by simp [h])

theorem mem_eraseCell {a : Nat} {m : Memory} {c : Host.Cell} (h : c ∈ eraseCell a m) : c ∈ m := by
  induction m with
  | nil => exact h
  | cons d m ih =>
    obtain ⟨x, y⟩ := d
    simp only [eraseCell] at h
    split at h
    · simp [h]
    · rcases List.mem_cons.1 h with h | h
      · simp [h]
      · simp [ih h]

/-! ## The canonical form -/

theorem insertCell_rising {a : Nat} {b : Byte} {m : Memory} (h : m.Pairwise (fun x y => x.1 < y.1)) :
    (insertCell a b m).Pairwise (fun x y => x.1 < y.1) := by
  induction m with
  | nil => simp [insertCell]
  | cons d m ih =>
    obtain ⟨x, y⟩ := d
    have hc := List.pairwise_cons.1 h
    simp only [insertCell]
    split
    · rename_i hlt
      refine List.pairwise_cons.2 ⟨?_, h⟩
      intro c hcm
      rcases List.mem_cons.1 hcm with rfl | hcm
      · exact hlt
      · exact Nat.lt_trans hlt (hc.1 c hcm)
    · split
      · subst_vars
        exact List.pairwise_cons.2 ⟨hc.1, hc.2⟩
      · refine List.pairwise_cons.2 ⟨?_, ih hc.2⟩
        intro c hcm
        rcases mem_insertCell hcm with rfl | hcm
        · show x < a
          omega
        · exact hc.1 c hcm

theorem eraseCell_rising {a : Nat} {m : Memory} (h : m.Pairwise (fun x y => x.1 < y.1)) :
    (eraseCell a m).Pairwise (fun x y => x.1 < y.1) := by
  induction m with
  | nil => exact h
  | cons d m ih =>
    obtain ⟨x, y⟩ := d
    have hc := List.pairwise_cons.1 h
    simp only [eraseCell]
    split
    · exact hc.2
    · exact List.pairwise_cons.2 ⟨fun c hcm => hc.1 c (mem_eraseCell hcm), ih hc.2⟩

theorem wf_nil (sp : Space) : Memory.wf sp [] := ⟨List.Pairwise.nil, by simp⟩

theorem below_nil (n : Nat) : Memory.below n [] := by simp [Memory.below]

/-- Every write keeps the canonical form. -/
theorem writeMem_wf {sp : Space} {m : Memory} (h : Memory.wf sp m) (a : Nat) (v : Option Byte) :
    Memory.wf sp (writeMem sp m a v) := by
  obtain ⟨hs, hd⟩ := h
  unfold writeMem
  split
  · exact ⟨eraseCell_rising hs, fun c hc => hd c (mem_eraseCell hc)⟩
  · rename_i hne
    cases v with
    | none => exact ⟨eraseCell_rising hs, fun c hc => hd c (mem_eraseCell hc)⟩
    | some b =>
      refine ⟨insertCell_rising hs, fun c hc => ?_⟩
      rcases mem_insertCell hc with rfl | hc
      · exact hne
      · exact hd c hc

/-- A write below a bound keeps the memory below it. -/
theorem writeMem_below {sp : Space} {m : Memory} {n a : Nat} (h : Memory.below n m) (ha : a < n) (v : Option Byte) :
    Memory.below n (writeMem sp m a v) := by
  intro c hc
  unfold writeMem at hc
  split at hc
  · exact h c (mem_eraseCell hc)
  · cases v with
    | none => exact h c (mem_eraseCell hc)
    | some b =>
      rcases mem_insertCell hc with rfl | hc
      · exact ha
      · exact h c hc

/-! ## Read after write -/

theorem writeMem_unlisted {sp : Space} {v : Option Byte} (h : v = unlisted sp) (m : Memory) (a : Nat) :
    writeMem sp m a v = eraseCell a m := by unfold writeMem; rw [if_pos h]

theorem writeMem_some {sp : Space} {b : Byte} (h : some b ≠ unlisted sp) (m : Memory) (a : Nat) :
    writeMem sp m a (some b) = insertCell a b m := by unfold writeMem; rw [if_neg h]

theorem writeMem_none (sp : Space) (m : Memory) (a : Nat) : writeMem sp m a none = eraseCell a m := by
  unfold writeMem; split <;> rfl

/-- Reads depend on what is listed. -/
theorem readMem_congr {sp : Space} {m n : Memory} {a : Nat} (h : lookup a m = lookup a n) :
    readMem sp m a = readMem sp n a := by unfold readMem; rw [h]

theorem readMem_of_some {sp : Space} {m : Memory} {a : Nat} {b : Byte} (h : lookup a m = some b) :
    readMem sp m a = some b := by unfold readMem; rw [h]

theorem readMem_of_none {sp : Space} {m : Memory} {a : Nat} (h : lookup a m = none) :
    readMem sp m a = unlisted sp := by unfold readMem; rw [h]

/-- A read after a write to the same address gives the value written. -/
theorem readMem_writeMem_same {sp : Space} {m : Memory} (h : Memory.wf sp m) (a : Nat) (v : Option Byte)
    (hv : v.isSome = true ∨ unlisted sp = none) : readMem sp (writeMem sp m a v) a = v := by
  by_cases heq : v = unlisted sp
  · rw [writeMem_unlisted heq, readMem_of_none (lookup_eraseCell_self h.1), heq]
  · cases v with
    | none => rcases hv with hv | hv <;> simp_all
    | some b =>
      rw [writeMem_some heq]
      exact readMem_of_some (by simp [lookup_insertCell])

/-- A write leaves every other address alone. -/
theorem readMem_writeMem_other {sp : Space} (m : Memory) {a x : Nat} (v : Option Byte) (h : x ≠ a) :
    readMem sp (writeMem sp m a v) x = readMem sp m x := by
  by_cases heq : v = unlisted sp
  · rw [writeMem_unlisted heq]
    exact readMem_congr (lookup_eraseCell_other m h)
  · cases v with
    | none =>
      rw [writeMem_none]
      exact readMem_congr (lookup_eraseCell_other m h)
    | some b =>
      rw [writeMem_some heq]
      exact readMem_congr (by rw [lookup_insertCell, if_neg h])

/-- A byte stored into RING or PAYBUF is listed whatever the memory's form. -/
theorem readMem_writeMem_some (sp : Space) (hsp : unlisted sp = none) (m : Memory) (a x : Nat) (b : Byte) :
    readMem sp (writeMem sp m a (some b)) x = if x = a then some b else readMem sp m x := by
  by_cases hx : x = a
  · subst hx
    rw [if_pos rfl, writeMem_some (by simp [hsp])]
    exact readMem_of_some (by simp [lookup_insertCell])
  · rw [if_neg hx, readMem_writeMem_other m _ hx]

/-- An emptied cell of RING or PAYBUF reads `none`. -/
theorem readMem_writeMem_none {sp : Space} (hsp : unlisted sp = none) {m : Memory} (h : Memory.wf sp m) (a x : Nat) :
    readMem sp (writeMem sp m a none) x = if x = a then none else readMem sp m x := by
  by_cases hx : x = a
  · subst hx
    rw [if_pos rfl, readMem_writeMem_same h _ _ (.inr hsp)]
  · rw [if_neg hx, readMem_writeMem_other m _ hx]

@[simp] theorem readMem_nil (sp : Space) (a : Nat) : readMem sp [] a = unlisted sp := rfl

/-- Two memories in canonical form that list the same bytes are equal. -/
theorem eq_of_lookup_eq {m n : Memory} (hm : m.Pairwise (fun x y => x.1 < y.1))
    (hn : n.Pairwise (fun x y => x.1 < y.1)) (h : ∀ a, lookup a m = lookup a n) : m = n := by
  induction m generalizing n with
  | nil =>
    cases n with
    | nil => rfl
    | cons d n =>
      obtain ⟨x, y⟩ := d
      have := h x
      simp [lookup_cons] at this
  | cons c m ih =>
    obtain ⟨x, y⟩ := c
    have hmc := List.pairwise_cons.1 hm
    cases n with
    | nil =>
      have := h x
      simp [lookup_cons] at this
    | cons d n =>
      obtain ⟨z, u⟩ := d
      have hnc := List.pairwise_cons.1 hn
      have hxz : x = z := by
        rcases Nat.lt_trichotomy x z with hlt | heq | hgt
        · have hx := h x
          rw [lookup_cons, if_pos rfl, lookup_cons, if_neg (by omega),
            lookup_eq_none_of_lt fun c hc => Nat.lt_trans hlt (hnc.1 c hc)] at hx
          cases hx
        · exact heq
        · have hz := h z
          rw [lookup_cons (a := z) (x := z), if_pos rfl, lookup_cons, if_neg (by omega),
            lookup_eq_none_of_lt fun c hc => Nat.lt_trans hgt (hmc.1 c hc)] at hz
          cases hz
      subst hxz
      have hyu : y = u := by
        have := h x
        simpa [lookup_cons] using this
      subst hyu
      congr 1
      refine ih hmc.2 hnc.2 fun a => ?_
      by_cases ha : a = x
      · subst ha
        rw [lookup_eq_none_of_lt hmc.1, lookup_eq_none_of_lt hnc.1]
      · have := h a
        simpa [lookup_cons, ha] using this

/-- Equal reads are equal data: two memories of a space in canonical form that read alike are equal. -/
theorem eq_of_readMem_eq {sp : Space} {m n : Memory} (hm : Memory.wf sp m) (hn : Memory.wf sp n)
    (h : ∀ a, readMem sp m a = readMem sp n a) : m = n := by
  refine eq_of_lookup_eq hm.1 hn.1 fun a => ?_
  have ha := h a
  unfold readMem at ha
  cases hl : lookup a m with
  | none =>
    cases hr : lookup a n with
    | none => rfl
    | some b =>
      rw [hl, hr] at ha
      exact absurd ha.symm (hn.2 _ (mem_of_lookup hr))
  | some b =>
    cases hr : lookup a n with
    | none =>
      rw [hl, hr] at ha
      exact absurd ha (hm.2 _ (mem_of_lookup hl))
    | some c => rw [hl, hr] at ha; exact ha

end Sys2Proof.Machine
end

