-- ==== Sys2Proof/Laws/State.lean ====
section
/-! SUPPORT. One lemma for each field of each named update of the state, true by definition. -/

namespace Sys2Proof.Machine

open Sys2Proof

/-! ## record -/

@[simp] theorem record_phase (o : Origin) (t : Txn) (x : Result) (s : State) : (record o t x s).phase = s.phase := rfl
@[simp] theorem record_err (o : Origin) (t : Txn) (x : Result) (s : State) : (record o t x s).err = s.err := rfl
@[simp] theorem record_cancel (o : Origin) (t : Txn) (x : Result) (s : State) : (record o t x s).cancel = s.cancel := rfl
@[simp] theorem record_ovfCount (o : Origin) (t : Txn) (x : Result) (s : State) : (record o t x s).ovfCount = s.ovfCount := rfl
@[simp] theorem record_fmt (o : Origin) (t : Txn) (x : Result) (s : State) : (record o t x s).fmt = s.fmt := rfl
@[simp] theorem record_socket (o : Origin) (t : Txn) (x : Result) (s : State) : (record o t x s).socket = s.socket := rfl
@[simp] theorem record_ring (o : Origin) (t : Txn) (x : Result) (s : State) : (record o t x s).ring = s.ring := rfl
@[simp] theorem record_cp (o : Origin) (t : Txn) (x : Result) (s : State) : (record o t x s).cp = s.cp := rfl
@[simp] theorem record_pk (o : Origin) (t : Txn) (x : Result) (s : State) : (record o t x s).pk = s.pk := rfl
@[simp] theorem record_trace (o : Origin) (t : Txn) (x : Result) (s : State) : (record o t x s).trace = s.trace ++ [⟨o, t, x⟩] := rfl
@[simp] theorem record_txLog (o : Origin) (t : Txn) (x : Result) (s : State) : (record o t x s).txLog = s.txLog := rfl
@[simp] theorem record_reportLog (o : Origin) (t : Txn) (x : Result) (s : State) : (record o t x s).reportLog = s.reportLog := rfl
@[simp] theorem record_exit (o : Origin) (t : Txn) (x : Result) (s : State) : (record o t x s).exit = s.exit := rfl
@[simp] theorem record_env (o : Origin) (t : Txn) (x : Result) (s : State) : (record o t x s).env = s.env := rfl

/-! ## trapEntry -/

@[simp] theorem trapEntry_phase (x : Raise) (s : State) : (trapEntry x s).phase = .fatal := rfl
@[simp] theorem trapEntry_err (x : Raise) (s : State) : (trapEntry x s).err = ⟨errCodeOf x.err, x.info⟩ := rfl
@[simp] theorem trapEntry_cancel (x : Raise) (s : State) : (trapEntry x s).cancel = s.cancel := rfl
@[simp] theorem trapEntry_ovfCount (x : Raise) (s : State) : (trapEntry x s).ovfCount = s.ovfCount := rfl
@[simp] theorem trapEntry_fmt (x : Raise) (s : State) : (trapEntry x s).fmt = s.fmt := rfl
@[simp] theorem trapEntry_socket (x : Raise) (s : State) : (trapEntry x s).socket = s.socket := rfl
@[simp] theorem trapEntry_ring (x : Raise) (s : State) : (trapEntry x s).ring = s.ring := rfl
@[simp] theorem trapEntry_cp (x : Raise) (s : State) : (trapEntry x s).cp = s.cp := rfl
@[simp] theorem trapEntry_pk (x : Raise) (s : State) : (trapEntry x s).pk = s.pk := rfl
@[simp] theorem trapEntry_trace (x : Raise) (s : State) : (trapEntry x s).trace = s.trace := rfl
@[simp] theorem trapEntry_txLog (x : Raise) (s : State) : (trapEntry x s).txLog = s.txLog := rfl
@[simp] theorem trapEntry_reportLog (x : Raise) (s : State) : (trapEntry x s).reportLog = s.reportLog ++ [.fatal (errCodeOf x.err) x.info] := rfl
@[simp] theorem trapEntry_exit (x : Raise) (s : State) : (trapEntry x s).exit = some Config.exitFail := rfl
@[simp] theorem trapEntry_env (x : Raise) (s : State) : (trapEntry x s).env = s.env := rfl

/-! ## resetBlock -/

@[simp] theorem resetBlock_phase (s : State) : (resetBlock s).phase = State.reset.phase := rfl
@[simp] theorem resetBlock_err (s : State) : (resetBlock s).err = State.reset.err := rfl
@[simp] theorem resetBlock_cancel (s : State) : (resetBlock s).cancel = State.reset.cancel := rfl
@[simp] theorem resetBlock_ovfCount (s : State) : (resetBlock s).ovfCount = State.reset.ovfCount := rfl
@[simp] theorem resetBlock_fmt (s : State) : (resetBlock s).fmt = State.reset.fmt := rfl
@[simp] theorem resetBlock_port (s : State) : (resetBlock s).socket.port = State.reset.socket.port := rfl
@[simp] theorem resetBlock_isOpen (s : State) : (resetBlock s).socket.isOpen = State.reset.socket.isOpen := rfl
@[simp] theorem resetBlock_ring (s : State) : (resetBlock s).ring = State.reset.ring := rfl
@[simp] theorem resetBlock_cp (s : State) : (resetBlock s).cp = State.reset.cp := rfl
@[simp] theorem resetBlock_pk (s : State) : (resetBlock s).pk = State.reset.pk := rfl
@[simp] theorem resetBlock_trace (s : State) : (resetBlock s).trace = s.trace := rfl
@[simp] theorem resetBlock_txLog (s : State) : (resetBlock s).txLog = s.txLog := rfl
@[simp] theorem resetBlock_reportLog (s : State) : (resetBlock s).reportLog = s.reportLog := rfl
@[simp] theorem resetBlock_exit (s : State) : (resetBlock s).exit = State.reset.exit := rfl
@[simp] theorem resetBlock_env (s : State) : (resetBlock s).env = s.env := rfl

/-! ## withRing -/

@[simp] theorem withRing_phase (s : State) (q : Ring) : (withRing s q).phase = s.phase := rfl
@[simp] theorem withRing_err (s : State) (q : Ring) : (withRing s q).err = s.err := rfl
@[simp] theorem withRing_cancel (s : State) (q : Ring) : (withRing s q).cancel = s.cancel := rfl
@[simp] theorem withRing_ovfCount (s : State) (q : Ring) : (withRing s q).ovfCount = s.ovfCount := rfl
@[simp] theorem withRing_fmt (s : State) (q : Ring) : (withRing s q).fmt = s.fmt := rfl
@[simp] theorem withRing_socket (s : State) (q : Ring) : (withRing s q).socket = s.socket := rfl
@[simp] theorem withRing_ring (s : State) (q : Ring) : (withRing s q).ring = q := rfl
@[simp] theorem withRing_cp (s : State) (q : Ring) : (withRing s q).cp = s.cp := rfl
@[simp] theorem withRing_pk (s : State) (q : Ring) : (withRing s q).pk = s.pk := rfl
@[simp] theorem withRing_trace (s : State) (q : Ring) : (withRing s q).trace = s.trace := rfl
@[simp] theorem withRing_txLog (s : State) (q : Ring) : (withRing s q).txLog = s.txLog := rfl
@[simp] theorem withRing_reportLog (s : State) (q : Ring) : (withRing s q).reportLog = s.reportLog := rfl
@[simp] theorem withRing_exit (s : State) (q : Ring) : (withRing s q).exit = s.exit := rfl
@[simp] theorem withRing_env (s : State) (q : Ring) : (withRing s q).env = s.env := rfl

/-! ## pkGoto -/

@[simp] theorem pkGoto_phase (s : State) (x : PkState) : (pkGoto s x).phase = s.phase := rfl
@[simp] theorem pkGoto_err (s : State) (x : PkState) : (pkGoto s x).err = s.err := rfl
@[simp] theorem pkGoto_cancel (s : State) (x : PkState) : (pkGoto s x).cancel = s.cancel := rfl
@[simp] theorem pkGoto_ovfCount (s : State) (x : PkState) : (pkGoto s x).ovfCount = s.ovfCount := rfl
@[simp] theorem pkGoto_fmt (s : State) (x : PkState) : (pkGoto s x).fmt = s.fmt := rfl
@[simp] theorem pkGoto_socket (s : State) (x : PkState) : (pkGoto s x).socket = s.socket := rfl
@[simp] theorem pkGoto_ring (s : State) (x : PkState) : (pkGoto s x).ring = s.ring := rfl
@[simp] theorem pkGoto_cp (s : State) (x : PkState) : (pkGoto s x).cp = s.cp := rfl
@[simp] theorem pkGoto_pk (s : State) (x : PkState) : (pkGoto s x).pk = { s.pk with state := x } := rfl
@[simp] theorem pkGoto_trace (s : State) (x : PkState) : (pkGoto s x).trace = s.trace := rfl
@[simp] theorem pkGoto_txLog (s : State) (x : PkState) : (pkGoto s x).txLog = s.txLog := rfl
@[simp] theorem pkGoto_reportLog (s : State) (x : PkState) : (pkGoto s x).reportLog = s.reportLog := rfl
@[simp] theorem pkGoto_exit (s : State) (x : PkState) : (pkGoto s x).exit = s.exit := rfl
@[simp] theorem pkGoto_env (s : State) (x : PkState) : (pkGoto s x).env = s.env := rfl

/-! ## sendDatagram -/

@[simp] theorem sendDatagram_phase (sent : Word) (s : State) : (sendDatagram sent s).phase = s.phase := rfl
@[simp] theorem sendDatagram_err (sent : Word) (s : State) : (sendDatagram sent s).err = s.err := rfl
@[simp] theorem sendDatagram_cancel (sent : Word) (s : State) : (sendDatagram sent s).cancel = s.cancel := rfl
@[simp] theorem sendDatagram_ovfCount (sent : Word) (s : State) : (sendDatagram sent s).ovfCount = s.ovfCount := rfl
@[simp] theorem sendDatagram_fmt (sent : Word) (s : State) : (sendDatagram sent s).fmt = s.fmt := rfl
@[simp] theorem sendDatagram_socket (sent : Word) (s : State) : (sendDatagram sent s).socket = s.socket := rfl
@[simp] theorem sendDatagram_ring (sent : Word) (s : State) : (sendDatagram sent s).ring = s.ring := rfl
@[simp] theorem sendDatagram_cp (sent : Word) (s : State) : (sendDatagram sent s).cp = s.cp := rfl
@[simp] theorem sendDatagram_pk (sent : Word) (s : State) : (sendDatagram sent s).pk = s.pk := rfl
@[simp] theorem sendDatagram_trace (sent : Word) (s : State) : (sendDatagram sent s).trace = s.trace := rfl
@[simp] theorem sendDatagram_txLog (sent : Word) (s : State) : (sendDatagram sent s).txLog = s.txLog ++ [⟨s.datagram, sent⟩] := rfl
@[simp] theorem sendDatagram_reportLog (sent : Word) (s : State) : (sendDatagram sent s).reportLog = s.reportLog := rfl
@[simp] theorem sendDatagram_exit (sent : Word) (s : State) : (sendDatagram sent s).exit = s.exit := rfl
@[simp] theorem sendDatagram_env_srcMem (sent : Word) (s : State) : (sendDatagram sent s).env.srcMem = s.env.srcMem := rfl
@[simp] theorem sendDatagram_env_net (sent : Word) (s : State) : (sendDatagram sent s).env.net = s.env.net ++ [⟨s.socket.addr, s.socket.port, s.datagram⟩] := rfl
@[simp] theorem sendDatagram_env_schedule (sent : Word) (s : State) : (sendDatagram sent s).env.schedule = s.env.schedule := rfl
@[simp] theorem sendDatagram_env_pending (sent : Word) (s : State) : (sendDatagram sent s).env.pending = s.env.pending := rfl
@[simp] theorem sendDatagram_env_issuer (sent : Word) (s : State) : (sendDatagram sent s).env.issuer = s.env.issuer := rfl

/-! ## stopBlock -/

@[simp] theorem stopBlock_phase (s : State) : (stopBlock s).phase = .stopped := rfl
@[simp] theorem stopBlock_err (s : State) : (stopBlock s).err = s.err := rfl
@[simp] theorem stopBlock_cancel (s : State) : (stopBlock s).cancel = s.cancel := rfl
@[simp] theorem stopBlock_ovfCount (s : State) : (stopBlock s).ovfCount = s.ovfCount := rfl
@[simp] theorem stopBlock_fmt (s : State) : (stopBlock s).fmt = s.fmt := rfl
@[simp] theorem stopBlock_socket (s : State) : (stopBlock s).socket = { s.socket with isOpen := false } := rfl
@[simp] theorem stopBlock_ring (s : State) : (stopBlock s).ring = Ring.absent := rfl
@[simp] theorem stopBlock_cp (s : State) : (stopBlock s).cp = s.cp := rfl
@[simp] theorem stopBlock_pk (s : State) : (stopBlock s).pk = { s.pk with state := .done } := rfl
@[simp] theorem stopBlock_trace (s : State) : (stopBlock s).trace = s.trace := rfl
@[simp] theorem stopBlock_txLog (s : State) : (stopBlock s).txLog = s.txLog := rfl
@[simp] theorem stopBlock_reportLog (s : State) : (stopBlock s).reportLog = s.reportLog ++ [.stop] := rfl
@[simp] theorem stopBlock_exit (s : State) : (stopBlock s).exit = some 0 := rfl
@[simp] theorem stopBlock_env (s : State) : (stopBlock s).env = s.env := rfl

/-! ## stayPending -/

@[simp] theorem stayPending_phase (t : Txn) (s : State) : (stayPending t s).phase = s.phase := rfl
@[simp] theorem stayPending_err (t : Txn) (s : State) : (stayPending t s).err = s.err := rfl
@[simp] theorem stayPending_cancel (t : Txn) (s : State) : (stayPending t s).cancel = s.cancel := rfl
@[simp] theorem stayPending_ovfCount (t : Txn) (s : State) : (stayPending t s).ovfCount = s.ovfCount := rfl
@[simp] theorem stayPending_fmt (t : Txn) (s : State) : (stayPending t s).fmt = s.fmt := rfl
@[simp] theorem stayPending_socket (t : Txn) (s : State) : (stayPending t s).socket = s.socket := rfl
@[simp] theorem stayPending_ring (t : Txn) (s : State) : (stayPending t s).ring = s.ring := rfl
@[simp] theorem stayPending_cp (t : Txn) (s : State) : (stayPending t s).cp = s.cp := rfl
@[simp] theorem stayPending_pk (t : Txn) (s : State) : (stayPending t s).pk = s.pk := rfl
@[simp] theorem stayPending_trace (t : Txn) (s : State) : (stayPending t s).trace = s.trace := rfl
@[simp] theorem stayPending_txLog (t : Txn) (s : State) : (stayPending t s).txLog = s.txLog := rfl
@[simp] theorem stayPending_reportLog (t : Txn) (s : State) : (stayPending t s).reportLog = s.reportLog := rfl
@[simp] theorem stayPending_exit (t : Txn) (s : State) : (stayPending t s).exit = s.exit := rfl
@[simp] theorem stayPending_env_srcMem (t : Txn) (s : State) : (stayPending t s).env.srcMem = s.env.srcMem := rfl
@[simp] theorem stayPending_env_net (t : Txn) (s : State) : (stayPending t s).env.net = s.env.net := rfl
@[simp] theorem stayPending_env_schedule (t : Txn) (s : State) : (stayPending t s).env.schedule = s.env.schedule := rfl
@[simp] theorem stayPending_env_pending (t : Txn) (s : State) : (stayPending t s).env.pending = setPending s.env.pending s.env.issuer (t :: pendingOf s.env.pending s.env.issuer) := rfl
@[simp] theorem stayPending_env_issuer (t : Txn) (s : State) : (stayPending t s).env.issuer = s.env.issuer := rfl

/-! ## takeTurn -/

@[simp] theorem takeTurn_phase (s : State) (a : Agent) (turns : List Turn) (rest : List Txn) : (takeTurn s a turns rest).phase = s.phase := rfl
@[simp] theorem takeTurn_err (s : State) (a : Agent) (turns : List Turn) (rest : List Txn) : (takeTurn s a turns rest).err = s.err := rfl
@[simp] theorem takeTurn_cancel (s : State) (a : Agent) (turns : List Turn) (rest : List Txn) : (takeTurn s a turns rest).cancel = s.cancel := rfl
@[simp] theorem takeTurn_ovfCount (s : State) (a : Agent) (turns : List Turn) (rest : List Txn) : (takeTurn s a turns rest).ovfCount = s.ovfCount := rfl
@[simp] theorem takeTurn_fmt (s : State) (a : Agent) (turns : List Turn) (rest : List Txn) : (takeTurn s a turns rest).fmt = s.fmt := rfl
@[simp] theorem takeTurn_socket (s : State) (a : Agent) (turns : List Turn) (rest : List Txn) : (takeTurn s a turns rest).socket = s.socket := rfl
@[simp] theorem takeTurn_ring (s : State) (a : Agent) (turns : List Turn) (rest : List Txn) : (takeTurn s a turns rest).ring = s.ring := rfl
@[simp] theorem takeTurn_cp (s : State) (a : Agent) (turns : List Turn) (rest : List Txn) : (takeTurn s a turns rest).cp = s.cp := rfl
@[simp] theorem takeTurn_pk (s : State) (a : Agent) (turns : List Turn) (rest : List Txn) : (takeTurn s a turns rest).pk = s.pk := rfl
@[simp] theorem takeTurn_trace (s : State) (a : Agent) (turns : List Turn) (rest : List Txn) : (takeTurn s a turns rest).trace = s.trace := rfl
@[simp] theorem takeTurn_txLog (s : State) (a : Agent) (turns : List Turn) (rest : List Txn) : (takeTurn s a turns rest).txLog = s.txLog := rfl
@[simp] theorem takeTurn_reportLog (s : State) (a : Agent) (turns : List Turn) (rest : List Txn) : (takeTurn s a turns rest).reportLog = s.reportLog := rfl
@[simp] theorem takeTurn_exit (s : State) (a : Agent) (turns : List Turn) (rest : List Txn) : (takeTurn s a turns rest).exit = s.exit := rfl
@[simp] theorem takeTurn_env_srcMem (s : State) (a : Agent) (turns : List Turn) (rest : List Txn) : (takeTurn s a turns rest).env.srcMem = s.env.srcMem := rfl
@[simp] theorem takeTurn_env_net (s : State) (a : Agent) (turns : List Turn) (rest : List Txn) : (takeTurn s a turns rest).env.net = s.env.net := rfl
@[simp] theorem takeTurn_env_schedule (s : State) (a : Agent) (turns : List Turn) (rest : List Txn) : (takeTurn s a turns rest).env.schedule = turns := rfl
@[simp] theorem takeTurn_env_pending (s : State) (a : Agent) (turns : List Turn) (rest : List Txn) : (takeTurn s a turns rest).env.pending = setPending s.env.pending a rest := rfl
@[simp] theorem takeTurn_env_issuer (s : State) (a : Agent) (turns : List Turn) (rest : List Txn) : (takeTurn s a turns rest).env.issuer = a := rfl

/-! ## issueNext -/

@[simp] theorem issueNext_phase (s : State) (a : Agent) (t : Txn) : (issueNext s a t).phase = s.phase := rfl
@[simp] theorem issueNext_err (s : State) (a : Agent) (t : Txn) : (issueNext s a t).err = s.err := rfl
@[simp] theorem issueNext_cancel (s : State) (a : Agent) (t : Txn) : (issueNext s a t).cancel = s.cancel := rfl
@[simp] theorem issueNext_ovfCount (s : State) (a : Agent) (t : Txn) : (issueNext s a t).ovfCount = s.ovfCount := rfl
@[simp] theorem issueNext_fmt (s : State) (a : Agent) (t : Txn) : (issueNext s a t).fmt = s.fmt := rfl
@[simp] theorem issueNext_socket (s : State) (a : Agent) (t : Txn) : (issueNext s a t).socket = s.socket := rfl
@[simp] theorem issueNext_ring (s : State) (a : Agent) (t : Txn) : (issueNext s a t).ring = s.ring := rfl
@[simp] theorem issueNext_cp (s : State) (a : Agent) (t : Txn) : (issueNext s a t).cp = s.cp := rfl
@[simp] theorem issueNext_pk (s : State) (a : Agent) (t : Txn) : (issueNext s a t).pk = s.pk := rfl
@[simp] theorem issueNext_trace (s : State) (a : Agent) (t : Txn) : (issueNext s a t).trace = s.trace := rfl
@[simp] theorem issueNext_txLog (s : State) (a : Agent) (t : Txn) : (issueNext s a t).txLog = s.txLog := rfl
@[simp] theorem issueNext_reportLog (s : State) (a : Agent) (t : Txn) : (issueNext s a t).reportLog = s.reportLog := rfl
@[simp] theorem issueNext_exit (s : State) (a : Agent) (t : Txn) : (issueNext s a t).exit = s.exit := rfl
@[simp] theorem issueNext_env_srcMem (s : State) (a : Agent) (t : Txn) : (issueNext s a t).env.srcMem = s.env.srcMem := rfl
@[simp] theorem issueNext_env_net (s : State) (a : Agent) (t : Txn) : (issueNext s a t).env.net = s.env.net := rfl
@[simp] theorem issueNext_env_schedule (s : State) (a : Agent) (t : Txn) : (issueNext s a t).env.schedule = .agent a :: s.env.schedule := rfl
@[simp] theorem issueNext_env_pending (s : State) (a : Agent) (t : Txn) : (issueNext s a t).env.pending = setPending s.env.pending a (t :: pendingOf s.env.pending a) := rfl
@[simp] theorem issueNext_env_issuer (s : State) (a : Agent) (t : Txn) : (issueNext s a t).env.issuer = s.env.issuer := rfl

/-! ## withSchedule -/

@[simp] theorem withSchedule_phase (s : State) (turns : List Turn) : (withSchedule s turns).phase = s.phase := rfl
@[simp] theorem withSchedule_err (s : State) (turns : List Turn) : (withSchedule s turns).err = s.err := rfl
@[simp] theorem withSchedule_cancel (s : State) (turns : List Turn) : (withSchedule s turns).cancel = s.cancel := rfl
@[simp] theorem withSchedule_ovfCount (s : State) (turns : List Turn) : (withSchedule s turns).ovfCount = s.ovfCount := rfl
@[simp] theorem withSchedule_fmt (s : State) (turns : List Turn) : (withSchedule s turns).fmt = s.fmt := rfl
@[simp] theorem withSchedule_socket (s : State) (turns : List Turn) : (withSchedule s turns).socket = s.socket := rfl
@[simp] theorem withSchedule_ring (s : State) (turns : List Turn) : (withSchedule s turns).ring = s.ring := rfl
@[simp] theorem withSchedule_cp (s : State) (turns : List Turn) : (withSchedule s turns).cp = s.cp := rfl
@[simp] theorem withSchedule_pk (s : State) (turns : List Turn) : (withSchedule s turns).pk = s.pk := rfl
@[simp] theorem withSchedule_trace (s : State) (turns : List Turn) : (withSchedule s turns).trace = s.trace := rfl
@[simp] theorem withSchedule_txLog (s : State) (turns : List Turn) : (withSchedule s turns).txLog = s.txLog := rfl
@[simp] theorem withSchedule_reportLog (s : State) (turns : List Turn) : (withSchedule s turns).reportLog = s.reportLog := rfl
@[simp] theorem withSchedule_exit (s : State) (turns : List Turn) : (withSchedule s turns).exit = s.exit := rfl
@[simp] theorem withSchedule_env_srcMem (s : State) (turns : List Turn) : (withSchedule s turns).env.srcMem = s.env.srcMem := rfl
@[simp] theorem withSchedule_env_net (s : State) (turns : List Turn) : (withSchedule s turns).env.net = s.env.net := rfl
@[simp] theorem withSchedule_env_schedule (s : State) (turns : List Turn) : (withSchedule s turns).env.schedule = turns := rfl
@[simp] theorem withSchedule_env_pending (s : State) (turns : List Turn) : (withSchedule s turns).env.pending = s.env.pending := rfl
@[simp] theorem withSchedule_env_issuer (s : State) (turns : List Turn) : (withSchedule s turns).env.issuer = s.env.issuer := rfl

/-! ## hostWrite -/

@[simp] theorem hostWrite_phase (s : State) (addr : Nat) (b : Byte) : (hostWrite s addr b).phase = s.phase := rfl
@[simp] theorem hostWrite_err (s : State) (addr : Nat) (b : Byte) : (hostWrite s addr b).err = s.err := rfl
@[simp] theorem hostWrite_cancel (s : State) (addr : Nat) (b : Byte) : (hostWrite s addr b).cancel = s.cancel := rfl
@[simp] theorem hostWrite_ovfCount (s : State) (addr : Nat) (b : Byte) : (hostWrite s addr b).ovfCount = s.ovfCount := rfl
@[simp] theorem hostWrite_fmt (s : State) (addr : Nat) (b : Byte) : (hostWrite s addr b).fmt = s.fmt := rfl
@[simp] theorem hostWrite_socket (s : State) (addr : Nat) (b : Byte) : (hostWrite s addr b).socket = s.socket := rfl
@[simp] theorem hostWrite_ring (s : State) (addr : Nat) (b : Byte) : (hostWrite s addr b).ring = s.ring := rfl
@[simp] theorem hostWrite_cp (s : State) (addr : Nat) (b : Byte) : (hostWrite s addr b).cp = s.cp := rfl
@[simp] theorem hostWrite_pk (s : State) (addr : Nat) (b : Byte) : (hostWrite s addr b).pk = s.pk := rfl
@[simp] theorem hostWrite_trace (s : State) (addr : Nat) (b : Byte) : (hostWrite s addr b).trace = s.trace := rfl
@[simp] theorem hostWrite_txLog (s : State) (addr : Nat) (b : Byte) : (hostWrite s addr b).txLog = s.txLog := rfl
@[simp] theorem hostWrite_reportLog (s : State) (addr : Nat) (b : Byte) : (hostWrite s addr b).reportLog = s.reportLog := rfl
@[simp] theorem hostWrite_exit (s : State) (addr : Nat) (b : Byte) : (hostWrite s addr b).exit = s.exit := rfl
@[simp] theorem hostWrite_env_srcMem (s : State) (addr : Nat) (b : Byte) : (hostWrite s addr b).env.srcMem = writeMem .srcMem s.env.srcMem addr (some b) := rfl
@[simp] theorem hostWrite_env_net (s : State) (addr : Nat) (b : Byte) : (hostWrite s addr b).env.net = s.env.net := rfl
@[simp] theorem hostWrite_env_schedule (s : State) (addr : Nat) (b : Byte) : (hostWrite s addr b).env.schedule = s.env.schedule := rfl
@[simp] theorem hostWrite_env_pending (s : State) (addr : Nat) (b : Byte) : (hostWrite s addr b).env.pending = s.env.pending := rfl
@[simp] theorem hostWrite_env_issuer (s : State) (addr : Nat) (b : Byte) : (hostWrite s addr b).env.issuer = s.env.issuer := rfl

/-! ## ringSyncR2p -/

@[simp] theorem ringSyncR2p_present (q : Ring) : (ringSyncR2p q).present = q.present := rfl
@[simp] theorem ringSyncR2p_cap (q : Ring) : (ringSyncR2p q).cap = q.cap := rfl
@[simp] theorem ringSyncR2p_cells (q : Ring) : (ringSyncR2p q).cells = q.cells := rfl
@[simp] theorem ringSyncR2p_w (q : Ring) : (ringSyncR2p q).w = q.w := rfl
@[simp] theorem ringSyncR2p_r (q : Ring) : (ringSyncR2p q).r = q.r := rfl
@[simp] theorem ringSyncR2p_rp (q : Ring) : (ringSyncR2p q).rp = q.r := rfl
@[simp] theorem ringSyncR2p_wc (q : Ring) : (ringSyncR2p q).wc = q.wc := rfl

/-! ## ringSyncW2c -/

@[simp] theorem ringSyncW2c_present (q : Ring) : (ringSyncW2c q).present = q.present := rfl
@[simp] theorem ringSyncW2c_cap (q : Ring) : (ringSyncW2c q).cap = q.cap := rfl
@[simp] theorem ringSyncW2c_cells (q : Ring) : (ringSyncW2c q).cells = q.cells := rfl
@[simp] theorem ringSyncW2c_w (q : Ring) : (ringSyncW2c q).w = q.w := rfl
@[simp] theorem ringSyncW2c_r (q : Ring) : (ringSyncW2c q).r = q.r := rfl
@[simp] theorem ringSyncW2c_rp (q : Ring) : (ringSyncW2c q).rp = q.rp := rfl
@[simp] theorem ringSyncW2c_wc (q : Ring) : (ringSyncW2c q).wc = q.w := rfl

/-! ## Pending operations -/

@[simp] theorem pendingOf_setPending (p : Pending) (a : Agent) (ts : List Txn) :
    pendingOf (setPending p a ts) a = ts := by
  cases a <;> rfl

@[simp] theorem setPending_setPending (p : Pending) (a : Agent) (ts us : List Txn) :
    setPending (setPending p a ts) a us = setPending p a us := by
  cases a <;> rfl

@[simp] theorem setPending_pendingOf (p : Pending) (a : Agent) : setPending p a (pendingOf p a) = p := by
  cases a <;> rfl

theorem pendingOf_setPending_other (p : Pending) {a b : Agent} (ts : List Txn) (h : b ≠ a) :
    pendingOf (setPending p a ts) b = pendingOf p b := by
  cases a <;> cases b <;> simp_all [setPending, pendingOf]

end Sys2Proof.Machine
end

