-- ==== Sys2Proof/Laws/Ops.lean ====
section
/-! SUPPORT. One lemma for each shared operation that says everything it can do; provers cite these and do not unfold
the operation. -/

namespace Sys2Proof.Machine

open Sys2Proof

/-! ## From issue to outcome -/

theorem settle_done (t : Txn) (s s' : State) (x : Result) :
    settle t s (.done s' x) = record (.agent s.env.issuer) t x s' := rfl

theorem settle_raise (t : Txn) (s kept : State) (x : Raise) :
    settle t s (.raise kept x) = record (.agent s.env.issuer) t (.raised x) (trapEntry x kept) := rfl

theorem settle_noStep (t : Txn) (s : State) : settle t s .noStep = record (.agent s.env.issuer) t .noStep s := rfl

theorem settle_hold (t : Txn) (s : State) : settle t s .hold = stayPending t s := rfl

/-- In a dead phase an operation has no step; only the attempt is recorded (60_exceptions.md R264). -/
theorem issue_dead {s : State} (i : Instr) (g : Bool) (b : Act) (h : isDead s.phase = true) :
    issue i g b s = .next (record (.agent s.env.issuer) (recordOf i) .noStep s) := by
  simp [issue, h, settle]

/-- An agent that does not own the operation raises OWNERSHIP, whatever the guard (R268, R271). -/
theorem issue_foreign {s : State} {i : Instr} (g : Bool) (b : Act) (h : isDead s.phase = false)
    (ho : mayIssue (recordOf i).code s.env.issuer = false) :
    issue i g b s = .next (record (.agent s.env.issuer) (recordOf i) (.raised ⟨.ownership, zextByte (recordOf i).code⟩)
      (trapEntry ⟨.ownership, zextByte (recordOf i).code⟩ s)) := by
  simp [issue, h, checked, ho, settle]

/-- Out of its phase or engine state an operation raises SEQ_ERR (R268). -/
theorem issue_unguarded {s : State} {i : Instr} (b : Act) (h : isDead s.phase = false)
    (ho : mayIssue (recordOf i).code s.env.issuer = true) :
    issue i false b s = .next (record (.agent s.env.issuer) (recordOf i) (.raised ⟨.seqErr, zextByte (recordOf i).code⟩)
      (trapEntry ⟨.seqErr, zextByte (recordOf i).code⟩ s)) := by
  simp [issue, h, checked, ho, settle]

/-- Issued by its owner in its phase and state, an operation runs its rule's statements. -/
theorem issue_runs {s : State} {i : Instr} (b : Act) (h : isDead s.phase = false)
    (ho : mayIssue (recordOf i).code s.env.issuer = true) :
    issue i true b s = .next (settle (recordOf i) s b) := by
  simp [issue, h, checked, ho]

/-- Everything that can come of issuing an operation. -/
theorem issue_cases {s t : State} {i : Instr} {g : Bool} {b : Act} (h : issue i g b s = .next t) :
    (isDead s.phase = true ∧ t = record (.agent s.env.issuer) (recordOf i) .noStep s) ∨
    (isDead s.phase = false ∧ ∃ x : Raise, (x.err = .ownership ∨ x.err = .seqErr) ∧
      x.info = zextByte (recordOf i).code ∧
      t = record (.agent s.env.issuer) (recordOf i) (.raised x) (trapEntry x s)) ∨
    (isDead s.phase = false ∧ mayIssue (recordOf i).code s.env.issuer = true ∧ g = true ∧
      t = settle (recordOf i) s b) := by
  by_cases hd : isDead s.phase = true
  · rw [issue_dead i g b hd] at h
    injection h with h
    exact .inl ⟨hd, h.symm⟩
  · have hl : isDead s.phase = false := by simpa using hd
    right
    by_cases ho : mayIssue (recordOf i).code s.env.issuer = true
    · cases g with
      | false =>
        rw [issue_unguarded b hl ho] at h
        injection h with h
        exact .inl ⟨hl, _, .inr rfl, rfl, h.symm⟩
      | true =>
        rw [issue_runs b hl ho] at h
        injection h with h
        exact .inr ⟨hl, ho, rfl, h.symm⟩
    · rw [issue_foreign g b hl (by simpa using ho)] at h
      injection h with h
      exact .inl ⟨hl, _, .inl rfl, rfl, h.symm⟩

/-- Everything that can come of issuing an operation that steps in dead phases too. -/
theorem issueAlways_cases {s t : State} {i : Instr} {b : Act} (h : issueAlways i b s = .next t) :
    (s.phase = .fatal ∧ mayIssue (recordOf i).code s.env.issuer = false ∧
      t = record (.agent s.env.issuer) (recordOf i) .noStep s) ∨
    (s.phase ≠ .fatal ∧ mayIssue (recordOf i).code s.env.issuer = false ∧
      t = record (.agent s.env.issuer) (recordOf i) (.raised ⟨.ownership, zextByte (recordOf i).code⟩)
        (trapEntry ⟨.ownership, zextByte (recordOf i).code⟩ s)) ∨
    (mayIssue (recordOf i).code s.env.issuer = true ∧ t = settle (recordOf i) s b) := by
  unfold issueAlways at h
  injection h with h
  cases ho : mayIssue (recordOf i).code s.env.issuer with
  | true => exact .inr (.inr ⟨rfl, by simpa [checked, ho] using h.symm⟩)
  | false =>
    by_cases hd : s.phase = .fatal
    · exact .inl ⟨hd, rfl, by simpa [ho, hd, settle] using h.symm⟩
    · exact .inr (.inl ⟨hd, rfl, by simpa [checked, ho, hd, settle] using h.symm⟩)

/-- Outside FATAL an agent that does not own such an operation raises OWNERSHIP, in STOPPED too (R264, R268, R271). -/
theorem issueAlways_foreign {s : State} {i : Instr} (b : Act) (hp : s.phase ≠ .fatal)
    (ho : mayIssue (recordOf i).code s.env.issuer = false) :
    issueAlways i b s = .next (record (.agent s.env.issuer) (recordOf i)
      (.raised ⟨.ownership, zextByte (recordOf i).code⟩) (trapEntry ⟨.ownership, zextByte (recordOf i).code⟩ s)) := by
  simp [issueAlways, checked, ho, hp, settle]

/-- Issued by its owner, such an operation runs in every phase. -/
theorem issueAlways_runs {s : State} {i : Instr} (b : Act) (ho : mayIssue (recordOf i).code s.env.issuer = true) :
    issueAlways i b s = .next (settle (recordOf i) s b) := by
  simp [issueAlways, checked, ho]

/-! ## The ring'q statements -/

theorem ringStore_ok {k : Nat} {b : Byte} {q : Ring} (h : k < q.freeProd) :
    ringStore k b q = .ok { q with cells := writeMem .ring q.cells (q.writeCell k) (some b) } := by
  rw [ringStore, if_neg (by omega)]

theorem ringStore_raises {k : Nat} {b : Byte} {q : Ring} (h : q.freeProd ≤ k) :
    ringStore k b q = .error ⟨.storeRange, lowWord k⟩ := by
  rw [ringStore, if_pos h]

theorem ringAdvanceWrite_ok {n : Nat} {q : Ring} (h : n ≤ q.freeProd) :
    ringAdvanceWrite n q = .ok { q with w := q.w + n } := by
  rw [ringAdvanceWrite, if_neg (by omega)]

theorem ringAdvanceWrite_raises {n : Nat} {q : Ring} (h : q.freeProd < n) :
    ringAdvanceWrite n q = .error ⟨.advWriteRange, lowWord n⟩ := by
  rw [ringAdvanceWrite, if_pos h]

theorem ringLoad_ok {k : Nat} {b : Byte} {q : Ring} (h : k < q.fillCons) (hb : q.at (q.readCell k) = some b) :
    ringLoad k q = .ok b := by
  rw [ringLoad, if_neg (by omega), hb]

theorem ringLoad_unwritten {k : Nat} {q : Ring} (h : k < q.fillCons) (hb : q.at (q.readCell k) = none) :
    ringLoad k q = .error ⟨.loadUnwritten, lowWord (q.r + k)⟩ := by
  rw [ringLoad, if_neg (by omega), hb]

theorem ringLoad_raises {k : Nat} {q : Ring} (h : q.fillCons ≤ k) : ringLoad k q = .error ⟨.loadRange, lowWord k⟩ := by
  rw [ringLoad, if_pos h]

theorem ringAdvanceRead_ok {n : Nat} {q : Ring} (h : n ≤ q.fillCons) :
    ringAdvanceRead n q = .ok { q with cells := releaseCells q.capacity q.r n q.cells, r := q.r + n } := by
  rw [ringAdvanceRead, if_neg (by omega)]

theorem ringAdvanceRead_raises {n : Nat} {q : Ring} (h : q.fillCons < n) :
    ringAdvanceRead n q = .error ⟨.advReadRange, lowWord n⟩ := by
  rw [ringAdvanceRead, if_pos h]

theorem ringCreate_ok {cap : Word} (h : cap ≠ 0#32) : ringCreate cap = .ok ⟨true, cap, [], 0, 0, 0, 0⟩ := by
  rw [ringCreate, if_neg h]

theorem ringCreate_raises : ringCreate 0#32 = .error ⟨.rbCreateErr, 0#32⟩ := rfl

/-! ## Releasing cells -/

theorem releaseCells_wf {cap pos n : Nat} {m : Memory} (h : Memory.wf .ring m) :
    Memory.wf .ring (releaseCells cap pos n m) := by
  induction n with
  | zero => exact h
  | succ n ih => exact writeMem_wf ih _ _

theorem releaseCells_below {cap pos n : Nat} {m : Memory} (hc : 0 < cap) (h : Memory.below cap m) :
    Memory.below cap (releaseCells cap pos n m) := by
  induction n with
  | zero => exact h
  | succ n ih => exact writeMem_below ih (Nat.mod_lt _ hc) _

/-- A released cell reads `none`. -/
theorem releaseCells_released {cap pos n i : Nat} {m : Memory} (h : Memory.wf .ring m) (hi : i < n) :
    readMem .ring (releaseCells cap pos n m) ((pos + i) % cap) = none := by
  induction n with
  | zero => omega
  | succ n ih =>
    rw [releaseCells, readMem_writeMem_none rfl (releaseCells_wf h)]
    split
    · rfl
    · rename_i hne
      refine ih ?_
      by_contra hge
      exact hne (by rw [show i = n by omega])

/-- A cell that no released position has reads as before. -/
theorem releaseCells_other {cap pos n x : Nat} {m : Memory} (hx : ∀ i < n, x ≠ (pos + i) % cap) :
    readMem .ring (releaseCells cap pos n m) x = readMem .ring m x := by
  induction n with
  | zero => rfl
  | succ n ih =>
    rw [releaseCells, readMem_writeMem_other _ _ (hx n (by omega))]
    exact ih fun i hi => hx i (by omega)

/-! ## Filling the payload -/

theorem putPayload_wf {bs : List Byte} {j : Nat} {m : Memory} (h : Memory.wf .paybuf m) :
    Memory.wf .paybuf (putPayload j bs m) := by
  induction bs generalizing j m with
  | nil => exact h
  | cons b bs ih => exact ih (writeMem_wf h _ _)

theorem putPayload_below {bs : List Byte} {j n : Nat} {m : Memory} (h : Memory.below n m) (hj : j + bs.length ≤ n) :
    Memory.below n (putPayload j bs m) := by
  induction bs generalizing j m with
  | nil => exact h
  | cons b bs ih =>
    simp only [List.length_cons] at hj
    exact ih (writeMem_below h (by omega) _) (by omega)

/-- The cells filled hold the bytes in order; every other cell reads as before. -/
theorem readMem_putPayload (bs : List Byte) (j x : Nat) (m : Memory) :
    readMem .paybuf (putPayload j bs m) x =
      if j ≤ x ∧ x < j + bs.length then bs[x - j]? else readMem .paybuf m x := by
  induction bs generalizing j m with
  | nil => simp [putPayload]
  | cons b bs ih =>
    rw [putPayload, ih, readMem_writeMem_some _ rfl]
    simp only [List.length_cons]
    by_cases h1 : x = j
    · subst h1
      simp
    · by_cases h2 : j + 1 ≤ x ∧ x < j + 1 + bs.length
      · rw [if_pos h2, if_pos (by omega), show x - j = (x - (j + 1)) + 1 by omega]
        simp
      · rw [if_neg h2, if_neg h1, if_neg (by omega)]

/-! ## Sequences of stores and loads -/

/-- The ring after a list of stores at offsets from the write cursor. -/
def storedRing (q : Ring) : List (Nat × Byte) → Memory → Memory
  | [], m => m
  | (k, b) :: rest, m => storedRing q rest (writeMem .ring m (q.writeCell k) (some b))

theorem storedRing_ring (q : Ring) (m : Memory) : storedRing { q with cells := m } = storedRing q := by
  funext l n
  induction l generalizing n with
  | nil => rfl
  | cons p l ih => obtain ⟨k, b⟩ := p; exact ih _

/-- Stores inside PROD'q view of the free region all step, and change nothing but the ring. -/
theorem ringStoreAll_ok {l : List (Nat × Byte)} {q : Ring} (h : ∀ p ∈ l, p.1 < q.freeProd) :
    ringStoreAll l q = .ok { q with cells := storedRing q l q.cells } := by
  induction l generalizing q with
  | nil => rfl
  | cons p l ih =>
    obtain ⟨k, b⟩ := p
    rw [ringStoreAll, ringStore_ok (h (k, b) (by simp))]
    refine (ih (q := { q with cells := writeMem .ring q.cells (q.writeCell k) (some b) })
      fun p hp => h p (by simp [hp])).trans ?_
    rw [storedRing_ring]
    rfl

theorem ringStore_inv {k : Nat} {b : Byte} {q u : Ring} (h : ringStore k b q = .ok u) :
    k < q.freeProd ∧ u = { q with cells := writeMem .ring q.cells (q.writeCell k) (some b) } := by
  by_cases hk : q.freeProd ≤ k
  · rw [ringStore_raises hk] at h
    cases h
  · rw [ringStore_ok (by omega)] at h
    injection h with h
    exact ⟨by omega, h.symm⟩

/-- If a sequence of stores steps, every offset was inside PROD'q view, and only the ring changed. -/
theorem ringStoreAll_inv {l : List (Nat × Byte)} {q u : Ring} (h : ringStoreAll l q = .ok u) :
    (∀ p ∈ l, p.1 < q.freeProd) ∧ u = { q with cells := storedRing q l q.cells } := by
  induction l generalizing q with
  | nil =>
    injection h with h
    exact ⟨by simp, h.symm⟩
  | cons p l ih =>
    obtain ⟨k, b⟩ := p
    rw [ringStoreAll] at h
    cases hs : ringStore k b q with
    | error x => rw [hs] at h; cases h
    | ok q' =>
      rw [hs] at h
      obtain ⟨hk, rfl⟩ := ringStore_inv hs
      obtain ⟨hl, rfl⟩ := ih h
      refine ⟨?_, ?_⟩
      · intro p hp
        rcases List.mem_cons.1 hp with rfl | hp
        · exact hk
        · exact hl p hp
      · rw [storedRing_ring]
        rfl

theorem storedRing_wf {q : Ring} {l : List (Nat × Byte)} {m : Memory} (h : Memory.wf .ring m) :
    Memory.wf .ring (storedRing q l m) := by
  induction l generalizing m with
  | nil => exact h
  | cons p l ih => obtain ⟨k, b⟩ := p; exact ih (writeMem_wf h _ _)

theorem storedRing_below {q : Ring} {l : List (Nat × Byte)} {m : Memory} (hc : 0 < q.capacity)
    (h : Memory.below q.capacity m) : Memory.below q.capacity (storedRing q l m) := by
  induction l generalizing m with
  | nil => exact h
  | cons p l ih => obtain ⟨k, b⟩ := p; exact ih (writeMem_below h (Nat.mod_lt _ hc) _)

/-- A cell that no store names reads as before. -/
theorem storedRing_other {q : Ring} {l : List (Nat × Byte)} {m : Memory} {x : Nat}
    (h : ∀ p ∈ l, x ≠ q.writeCell p.1) : readMem .ring (storedRing q l m) x = readMem .ring m x := by
  induction l generalizing m with
  | nil => rfl
  | cons p l ih =>
    obtain ⟨k, b⟩ := p
    rw [storedRing, ih fun p hp => h p (by simp [hp]), readMem_writeMem_other _ _ (h (k, b) (by simp))]

/-- A store never empties a cell. -/
theorem storedRing_isSome {q : Ring} {l : List (Nat × Byte)} {m : Memory} {x : Nat}
    (h : (readMem .ring m x).isSome = true) : (readMem .ring (storedRing q l m) x).isSome = true := by
  induction l generalizing m with
  | nil => exact h
  | cons p l ih =>
    obtain ⟨k, b⟩ := p
    refine ih ?_
    rw [readMem_writeMem_some _ rfl]
    split <;> simp [h]

/-- A cell that some store names holds a byte. -/
theorem storedRing_named {q : Ring} {l : List (Nat × Byte)} {m : Memory} {k : Nat} {b : Byte} (h : (k, b) ∈ l) :
    (readMem .ring (storedRing q l m) (q.writeCell k)).isSome = true := by
  induction l generalizing m with
  | nil => simp at h
  | cons p l ih =>
    rcases List.mem_cons.1 h with rfl | h
    · rw [storedRing]
      refine storedRing_isSome ?_
      rw [readMem_writeMem_some _ rfl, if_pos rfl]
      rfl
    · exact ih h

/-- If all stores that name a cell store the same byte, and some store names it, the cell holds that byte. -/
theorem storedRing_byte {q : Ring} {l : List (Nat × Byte)} {m : Memory} {k : Nat} {b : Byte} (h : (k, b) ∈ l)
    (hu : ∀ p ∈ l, q.writeCell p.1 = q.writeCell k → p.2 = b) :
    readMem .ring (storedRing q l m) (q.writeCell k) = some b := by
  induction l generalizing m k with
  | nil => simp at h
  | cons p l ih =>
    obtain ⟨k', b'⟩ := p
    rw [storedRing]
    by_cases hin : ∃ p ∈ l, q.writeCell p.1 = q.writeCell k
    · obtain ⟨⟨k2, b2⟩, hp, hcell⟩ := hin
      obtain rfl : b2 = b := hu (k2, b2) (by simp [hp]) hcell
      rw [← hcell]
      exact ih hp fun q hq hqc => hu q (by simp [hq]) (hqc.trans hcell)
    · have hk : (k, b) = (k', b') := by
        rcases List.mem_cons.1 h with h | h
        · exact h
        · exact absurd ⟨_, h, rfl⟩ hin
      obtain ⟨rfl, rfl⟩ := Prod.mk.inj hk
      rw [storedRing_other fun p hp hx => hin ⟨p, hp, hx.symm⟩, readMem_writeMem_some _ rfl, if_pos rfl]

theorem ringLoad_inv {k : Nat} {b : Byte} {q : Ring} (h : ringLoad k q = .ok b) :
    k < q.fillCons ∧ q.at (q.readCell k) = some b := by
  by_cases hk : q.fillCons ≤ k
  · rw [ringLoad_raises hk] at h
    cases h
  · cases hc : q.at (q.readCell k) with
    | none => rw [ringLoad_unwritten (by omega) hc] at h; cases h
    | some c =>
      rw [ringLoad_ok (by omega) hc] at h
      injection h with h
      exact ⟨by omega, by rw [h]⟩

/-- If a sequence of loads steps, it gives the cellq' bytes in order. -/
theorem ringLoadAll_inv {n k : Nat} {q : Ring} {bs : List Byte} (h : ringLoadAll k n q = .ok bs) :
    bs.length = n ∧ ∀ i < n, q.at (q.readCell (k + i)) = bs[i]? := by
  induction n generalizing k bs with
  | zero =>
    injection h with h
    subst h
    exact ⟨rfl, by omega⟩
  | succ n ih =>
    rw [ringLoadAll] at h
    cases hb : ringLoad k q with
    | error x => rw [hb] at h; cases h
    | ok b =>
      rw [hb] at h
      simp only at h
      cases hr : ringLoadAll (k + 1) n q with
      | error x => rw [hr] at h; cases h
      | ok rest =>
        rw [hr] at h
        injection h with h
        subst h
        obtain ⟨hlen, hcells⟩ := ih hr
        refine ⟨by simp [hlen], fun i hi => ?_⟩
        cases i with
        | zero => simpa using (ringLoad_inv hb).2
        | succ i =>
          rw [show k + (i + 1) = k + 1 + i by omega, hcells i (by omega)]
          simp

/-- Loads inside CONS'q view of stored cells all step. -/
theorem ringLoadAll_ok {n k : Nat} {q : Ring} (hn : k + n ≤ q.fillCons)
    (hc : ∀ i < n, (q.at (q.readCell (k + i))).isSome = true) : ∃ bs, ringLoadAll k n q = .ok bs := by
  induction n generalizing k with
  | zero => exact ⟨[], rfl⟩
  | succ n ih =>
    obtain ⟨b, hb⟩ := Option.isSome_iff_exists.1 (hc 0 (by omega))
    obtain ⟨bs, hbs⟩ := ih (k := k + 1) (by omega) fun i hi => by
      have := hc (i + 1) (by omega)
      rwa [show k + (i + 1) = k + 1 + i by omega] at this
    refine ⟨b :: bs, ?_⟩
    rw [Nat.add_zero] at hb
    rw [ringLoadAll, ringLoad_ok (by omega) hb]
    simp only [hbs]

/-- The first empty cell among those loaded raises LOAD_UNWRITTEN with its stream position (43_packetizer.md R203). -/
theorem ringLoadAll_unwritten {n k j : Nat} {q : Ring} (hn : k + n ≤ q.fillCons) (hj : j < n)
    (hb : ∀ i < j, q.at (q.readCell (k + i)) ≠ none) (he : q.at (q.readCell (k + j)) = none) :
    ringLoadAll k n q = .error ⟨.loadUnwritten, lowWord (q.r + (k + j))⟩ := by
  induction n generalizing k j with
  | zero => omega
  | succ n ih =>
    rw [ringLoadAll]
    cases j with
    | zero => rw [ringLoad_unwritten (by omega) (by simpa using he)]; rfl
    | succ j =>
      obtain ⟨b, hb0⟩ := Option.ne_none_iff_exists'.1 (hb 0 (by omega))
      rw [Nat.add_zero] at hb0
      rw [ringLoad_ok (by omega) hb0]
      simp only
      rw [ih (k := k + 1) (j := j) (by omega) (by omega)
        (fun i hi => by have := hb (i + 1) (by omega); rwa [show k + (i + 1) = k + 1 + i by omega] at this)
        (by rwa [show k + (j + 1) = k + 1 + j by omega] at he), show k + (j + 1) = k + 1 + j by omega]

/-! ## Cells and offsets -/

/-- Two positions less than a capacity apart have different cells. -/
theorem mod_inj {cap pos i j : Nat} (hi : i < cap) (hj : j < cap) (h : (pos + i) % cap = (pos + j) % cap) : i = j := by
  have := Nat.ModEq.add_left_cancel' pos (show pos + i ≡ pos + j [MOD cap] from h)
  rw [Nat.ModEq, Nat.mod_eq_of_lt hi, Nat.mod_eq_of_lt hj] at this
  exact this

theorem freeProd_le (q : Ring) : q.freeProd ≤ q.capacity := Nat.sub_le _ _

theorem mem_holeStores {s : State} {k : Nat} {p : Nat × Byte} :
    p ∈ holeStores s k ↔ ∃ j < k * s.fmt.bytesPerFrame, p = (s.cp.done * s.fmt.bytesPerFrame + j, 0x00#8) := by
  simp only [holeStores, List.mem_map, List.mem_range]
  exact ⟨fun ⟨j, h, e⟩ => ⟨j, h, e.symm⟩, fun ⟨j, h, e⟩ => ⟨j, h, e.symm⟩⟩

theorem mem_areaStores {s : State} {k p0 s0 p1 s1 : Nat} {p : Nat × Byte} :
    p ∈ areaStores s k p0 s0 p1 s1 ↔ ∃ f < k, ∃ c < 2, ∃ b < s.fmt.bytesPerSample,
      p = (s.fmt.offset (s.cp.done + f) c b, memRead s.env.srcMem (areaAddr p0 s0 p1 s1 f c b)) := by
  simp only [areaStores, List.mem_flatMap, List.mem_map, List.mem_range, Config.channels]
  constructor
  · rintro ⟨f, hf, c, hc, b, hb, e⟩
    exact ⟨f, hf, c, hc, b, hb, e.symm⟩
  · rintro ⟨f, hf, c, hc, b, hb, e⟩
    exact ⟨f, hf, c, hc, b, hb, e.symm⟩

/-- The offset of a sample byte lies inside its frame. -/
theorem offset_lt {x : Format} (hx : x.bytesPerFrame = 2 * x.bytesPerSample) {f c b : Nat} (hc : c < 2)
    (hb : b < x.bytesPerSample) :
    f * x.bytesPerFrame ≤ x.offset f c b ∧ x.offset f c b < (f + 1) * x.bytesPerFrame := by
  have h1 : c * x.bytesPerSample ≤ x.bytesPerSample := by
    have : c * x.bytesPerSample ≤ 1 * x.bytesPerSample := Nat.mul_le_mul_right _ (by omega)
    omega
  have h2 : (f + 1) * x.bytesPerFrame = f * x.bytesPerFrame + x.bytesPerFrame := Nat.succ_mul _ _
  unfold Format.offset
  omega

/-- An offset names one sample byte of one channel of one frame. -/
theorem offset_inj {x : Format} (hx : x.bytesPerFrame = 2 * x.bytesPerSample) {f f' c c' b b' : Nat} (hc : c < 2)
    (hc' : c' < 2) (hb : b < x.bytesPerSample) (hb' : b' < x.bytesPerSample)
    (h : x.offset f c b = x.offset f' c' b') : f = f' ∧ c = c' ∧ b = b' := by
  have h1 := offset_lt hx hc hb (f := f)
  have h2 := offset_lt hx hc' hb' (f := f')
  have hf : f = f' := by
    rcases Nat.lt_trichotomy f f' with hlt | heq | hgt
    · have := Nat.mul_le_mul_right x.bytesPerFrame (show f + 1 ≤ f' by omega)
      omega
    · exact heq
    · have := Nat.mul_le_mul_right x.bytesPerFrame (show f' + 1 ≤ f by omega)
      omega
  subst hf
  unfold Format.offset at h
  have hcc : c = c' := by
    rcases (show c = 0 ∨ c = 1 by omega) with rfl | rfl <;> rcases (show c' = 0 ∨ c' = 1 by omega) with rfl | rfl <;>
      omega
  subst hcc
  exact ⟨rfl, rfl, by omega⟩

/-! ## Sub-reads and drains -/

/-- A sub-read of no frame, or of more frames than remain, raises HOST_PROTO (41_capture_producer.md R153, R154). -/
theorem subread_refused {k : Nat} {l : List (Nat × Byte)} {s : State} (h : k = 0 ∨ s.cp.framesLeft < k) :
    subread k l s = .raise s ⟨.hostProto, lowWord k⟩ := by
  rw [subread, if_pos h]

/-- A sub-read whose stores fit PROD's view steps. -/
theorem subread_ok {k : Nat} {l : List (Nat × Byte)} {s : State} (hk : 1 ≤ k) (hk' : k ≤ s.cp.framesLeft)
    (hl : ∀ p ∈ l, p.1 < s.ring.freeProd) :
    subread k l s = .done
      { s with ring := { s.ring with cells := storedRing s.ring l s.ring.cells }, cp := s.cp.after k } .nothing := by
  rw [subread, if_neg (by omega), ringStoreAll_ok hl]

theorem drainCount_le (s : State) : s.drainCount ≤ s.ring.fillCons := Nat.min_le_left _ _

/-- A drain of stored bytes steps (43_packetizer.md R203). -/
theorem drain_ok {s : State} {bytes : List Byte} (h : ringLoadAll 0 s.drainCount s.ring = .ok bytes) :
    drain s = .ok
      { s with
        ring := { s.ring with
          cells := releaseCells s.ring.capacity s.ring.r s.drainCount s.ring.cells, r := s.ring.r + s.drainCount }
        pk := s.pk.after bytes } := by
  rw [drain, h, ringAdvanceRead_ok (drainCount_le s)]

/-- Everything a drain can do. -/
theorem drain_inv {s t : State} (h : drain s = .ok t) : ∃ bytes, ringLoadAll 0 s.drainCount s.ring = .ok bytes ∧
    t = { s with
        ring := { s.ring with
          cells := releaseCells s.ring.capacity s.ring.r s.drainCount s.ring.cells, r := s.ring.r + s.drainCount }
        pk := s.pk.after bytes } := by
  cases hb : ringLoadAll 0 s.drainCount s.ring with
  | error x => rw [drain, hb] at h; cases h
  | ok bytes =>
    rw [drain_ok hb] at h
    injection h with h
    exact ⟨bytes, rfl, h.symm⟩

/-! ## The HOST's memory and the reset memories -/

/-- The HOST's own write keeps the canonical form. -/
theorem hostWrite_wf {s : State} (h : Memory.wf .srcMem s.env.srcMem) (addr : Nat) (b : Byte) :
    Memory.wf .srcMem (hostWrite s addr b).env.srcMem := writeMem_wf h _ _

/-- The HOST's own write sets one byte of its memory. -/
theorem memRead_hostWrite {s : State} (h : Memory.wf .srcMem s.env.srcMem) (addr : Nat) (b : Byte) (x : Nat) :
    memRead (hostWrite s addr b).env.srcMem x = if x = addr then b else memRead s.env.srcMem x := by
  simp only [memRead, hostWrite_env_srcMem]
  by_cases hx : x = addr
  · subst hx
    rw [readMem_writeMem_same h _ _ (.inl rfl), if_pos rfl]
  · rw [readMem_writeMem_other _ _ hx, if_neg hx]

/-- The memories after power-on have the canonical form: nothing is listed. -/
theorem reset_memories_wf : Memory.wf .ring State.reset.ring.cells ∧ Memory.wf .paybuf State.reset.pk.paybuf ∧
    Memory.wf .srcMem State.reset.env.srcMem := ⟨wf_nil _, wf_nil _, wf_nil _⟩

end Sys2Proof.Machine
end

