-- ==== Sys2Proof/Laws/Issue.lean ====
section
/-! SUPPORT. What the guards say, and that an operation whose meaning is an `issue` passes the checks of
60_exceptions.md R268 first. -/

namespace Sys2Proof.Machine

open Sys2Proof

theorem alive_iff {s : State} : Alive s ↔ isDead s.phase = false := by
  unfold Alive
  cases s.phase <;> simp [isDead]

theorem not_alive_iff {s : State} : ¬ Alive s ↔ isDead s.phase = true := by
  rw [alive_iff]; simp

theorem standalone_iff {s : State} : s.standalone = true ↔ Standalone s := by simp [State.standalone, Standalone]

theorem creatable_iff {s : State} : s.creatable = true ↔ s.phase = .config ∧ s.ring.present = false := by
  simp [State.creatable]

theorem syncable_iff {s : State} : s.syncable = true ↔ Syncable s := by
  simp only [State.syncable, Syncable, Bool.and_eq_true, Bool.not_eq_true']
  rw [← alive_iff]

theorem cpIn_iff {s : State} {x : CpState} : s.cpIn x = true ↔ CpIn x s := by simp [State.cpIn, CpIn]

theorem pkIn_iff {s : State} {x : PkState} : s.pkIn x = true ↔ PkIn x s := by simp [State.pkIn, PkIn]

theorem stopping_iff {s : State} : s.stopping = true ↔ s.pk.state = .stopping ∨ s.pk.state = .done := by
  simp [State.stopping]

theorem CpIn.alive {s : State} {x : CpState} (h : CpIn x s) : isDead s.phase = false := by rw [h.1]; rfl

theorem PkIn.alive {s : State} {x : PkState} (h : PkIn x s) : isDead s.phase = false := by rw [h.1]; rfl

theorem Standalone.alive {s : State} (h : Standalone s) : isDead s.phase = false := by rw [h.1]; rfl

/-- An operation whose meaning is an `issue` passes the checks of R268 first. -/
theorem checksFirst_of_issue {i : Instr} {code : Byte} {agents : List Agent} {guard : State → Prop} {g : State → Bool}
    {body : State → Act} (hexec : ∀ s, exec i s = issue i (g s) (body s) s) (hcode : (recordOf i).code = code)
    (howner : ∀ a, mayIssue code a = true ↔ a ∈ agents) (hguard : ∀ s, Alive s → (g s = true ↔ guard s)) :
    ChecksFirst i code agents guard := by
  refine ⟨hcode, fun s => ⟨fun h => ?_, fun h ha => ?_, fun h ha hg => ?_⟩⟩
  · rw [hexec, issue_dead _ _ _ (not_alive_iff.1 h)]
    rfl
  · rw [hexec, issue_foreign _ _ (alive_iff.1 h) (by rw [hcode]; exact Bool.eq_false_iff.2 fun hx => ha ((howner _).1 hx)), hcode]
    simp [trapped, zextByte]
  · rw [hexec, show g s = false from Bool.eq_false_iff.2 fun hx => hg ((hguard s h).1 hx),
      issue_unguarded _ (alive_iff.1 h) (by rw [hcode]; exact (howner _).2 ha), hcode]
    simp [trapped, zextByte]

/-- Issued by its owner with its guard met, such an operation runs its rule's statements. -/
theorem exec_runs {i : Instr} {g : Bool} {body : Act} {s : State} (hexec : exec i s = issue i g body s)
    (hlive : isDead s.phase = false) (howner : mayIssue (recordOf i).code s.env.issuer = true) (hguard : g = true) :
    exec i s = .next (settle (recordOf i) s body) := by
  rw [hexec, hguard, issue_runs _ hlive howner]

end Sys2Proof.Machine
end

