-- ==== Sys2Proof/Laws/Exec.lean ====
section
/-! SUPPORT. Everything that executing an instruction can come to: it has no step, it raises, it holds, or it has its own
effect. Statements about every instruction are proved by cases on this and do not unfold the meanings. -/

namespace Sys2Proof.Machine

open Sys2Proof

/-- The effect of each operation where it steps: the state `s'` its rule leaves and its result `r`. -/
def Effect (i : Instr) (s s' : State) (r : Result) : Prop :=
  match i with
  | .rbCreate cap => s.phase = .config ∧ s.ring.present = false ∧ cap ≠ 0#32 ∧
      s' = { s with ring := ⟨true, cap, [], 0, 0, 0, 0⟩ }
  | .rbCapacity => Standalone s ∧ s' = s
  | .rbWritePtr => Standalone s ∧ s' = s
  | .rbFreeCount => Standalone s ∧ s' = s
  | .rbStore k b => Standalone s ∧ k < s.ring.freeProd ∧
      s' = { s with ring := { s.ring with cells := writeMem .ring s.ring.cells (s.ring.writeCell k) (some b) } }
  | .rbAdvanceWrite n => Standalone s ∧ n ≤ s.ring.freeProd ∧ s' = { s with ring := { s.ring with w := s.ring.w + n } }
  | .rbSyncR2p => Syncable s ∧ s' = { s with ring := { s.ring with rp := s.ring.r } }
  | .rbReadPtr => Standalone s ∧ s' = s
  | .rbFillCount => Standalone s ∧ s' = s
  | .rbLoad k => Standalone s ∧ k < s.ring.fillCons ∧
      (∃ b, s.ring.at (s.ring.readCell k) = some b ∧ r = .byte b) ∧ s' = s
  | .rbAdvanceRead n => Standalone s ∧ n ≤ s.ring.fillCons ∧
      s' = { s with ring := { s.ring with
        cells := releaseCells s.ring.capacity s.ring.r n s.ring.cells, r := s.ring.r + n } }
  | .rbSyncW2c => Syncable s ∧ s' = { s with ring := { s.ring with wc := s.ring.w } }
  | .rbDestroy => Standalone s ∧ s' = { s with ring := Ring.absent }
  | .cpInvoke min max => CpIn .idle s ∧ s.pk.state ≠ .stopping ∧ s.pk.state ≠ .done ∧ min ≤ max ∧
      s' = { s with cp := { s.cp with state := .check, min := min, max := max } }
  | .cpCheck => CpIn .check s ∧ s.cp.min ≤ s.freeFrames ∧
      s' = { s with cp := { s.cp with
        state := if s.writeFrames = 0 then .commit else .reading, wf := s.writeFrames, done := 0 } }
  | .cpSubreadHole k => CpIn .reading s ∧ 1 ≤ k ∧ k ≤ s.cp.framesLeft ∧
      (∀ p ∈ holeStores s k, p.1 < s.ring.freeProd) ∧
      s' = { s with
        ring := { s.ring with cells := storedRing s.ring (holeStores s k) s.ring.cells }, cp := s.cp.after k }
  | .cpSubreadAreas k p0 s0 p1 s1 => CpIn .reading s ∧ 1 ≤ k ∧ k ≤ s.cp.framesLeft ∧
      (∀ p ∈ areaStores s k p0 s0 p1 s1, p.1 < s.ring.freeProd) ∧
      s' = { s with
        ring := { s.ring with cells := storedRing s.ring (areaStores s k p0 s0 p1 s1) s.ring.cells }
        cp := s.cp.after k }
  | .cpSubreadErr _ => False
  | .cpCommit => CpIn .commit s ∧ s.cp.wf * s.fmt.bytesPerFrame ≤ s.ring.freeProd ∧
      s' = { s with
        ring := { s.ring with w := s.ring.w + s.cp.wf * s.fmt.bytesPerFrame }, cp := { s.cp with state := .idle } }
  | .cpOvfNotify => s.phase = .running ∧
      s' = { s with ovfCount := s.ovfCount + 1#32, reportLog := s.reportLog ++ [.ovf (s.ovfCount + 1#32)] }
  | .fnRateCode _ => s' = s
  | .fnBitDepth _ => s' = s
  | .fnBuildHeader _ _ => s' = s
  | .fnDecodeRate _ => s' = s
  | .pkTop => PkIn .top s ∧ s' = { s with pk := { s.pk with state := if s.cancel then .stopping else .poll } }
  | .pkPoll => PkIn .poll s ∧ s' = { s with pk := { s.pk with state := .drain } }
  | .pkDrain => PkIn .drain s ∧ ∃ bytes, ringLoadAll 0 s.drainCount s.ring = .ok bytes ∧
      s' = { s with
        ring := { s.ring with
          cells := releaseCells s.ring.capacity s.ring.r s.drainCount s.ring.cells, r := s.ring.r + s.drainCount }
        pk := s.pk.after bytes }
  | .pkWait => PkIn .wait s ∧ s' = { s with pk := { s.pk with state := .poll } }
  | .pkSend sent => PkIn .send s ∧ sent = 1157#32 ∧
      s' = { sendDatagram sent s with pk := { s.pk with state := .top, filled := 0 } }
  | .pkStop => PkIn .stopping s ∧ s.cp.state = .idle ∧ s' = stopBlock s
  | .ctlReset => s' = resetBlock s
  | .ctlConfigure _ rate bps cap _ => s.phase = .config ∧ s.ring.present = false ∧
      ∃ rc bd, rateCode rate = .ok rc ∧ bitDepth bps = .ok bd ∧ lowWord (requestedCapacity rate bps cap) ≠ 0#32 ∧
        s' = { s with
          fmt := ⟨rate, bps, frameBytes bps, headerOf rc bd⟩
          ring := ⟨true, lowWord (requestedCapacity rate bps cap), [], 0, 0, 0, 0⟩
          phase := .ready }
  | .ctlSocketOpen _ addr port => (s.phase = .config ∨ s.phase = .ready) ∧ s.socket.isOpen = false ∧
      s' = { s with socket := ⟨addr, port, true⟩ }
  | .ctlStart _ => s.phase = .ready ∧ s.socket.isOpen = true ∧
      s' = { s with phase := .running, pk := { s.pk with state := .top } }
  | .ctlCancel => s' = { s with cancel := true }
  | .ctlCsrRead _ => s' = s
  | .rate44k1 _ => s' = s
  | .rate48k _ => s' = s

/-- The state a raise keeps: the state before, but for what PK_SEND has sent (60_exceptions.md R263). -/
def Kept (i : Instr) (s kept : State) (x : Raise) : Prop :=
  kept = s ∨ ∃ sent, i = .pkSend sent ∧ x = ⟨.txShort, sent⟩ ∧ sent ≠ 1157#32 ∧ PkIn .send s ∧ kept = sendDatagram sent s

/-- Who stands behind the TRACE entry of an instruction. -/
def originOf (i : Instr) (s : State) : Origin := if i.isWire then .wire else .agent s.env.issuer

/-- What an operation's statements come to, once its checks are passed. -/
def ActSays (i : Instr) (s : State) : Act → Prop
  | .done s' r => Effect i s s' r
  | .raise kept x => Kept i s kept x
  | .noStep => ∃ min max, i = .cpInvoke min max ∧ CpIn .idle s ∧ (s.pk.state = .stopping ∨ s.pk.state = .done)
  | .hold => i = .pkStop ∧ PkIn .stopping s ∧ s.cp.state ≠ .idle

/-- Everything an instruction can come to. -/
def Outcomes (i : Instr) (s t : State) : Prop :=
  (t = record (originOf i s) (recordOf i) .noStep s ∧
    (¬ Alive s ∨ ∃ min max, i = .cpInvoke min max ∧ CpIn .idle s ∧ (s.pk.state = .stopping ∨ s.pk.state = .done))) ∨
  ((Alive s ∨ (i = .ctlReset ∧ s.phase = .stopped)) ∧ i.isWire = false ∧ ∃ x kept, Kept i s kept x ∧
    t = record (.agent s.env.issuer) (recordOf i) (.raised x) (trapEntry x kept)) ∨
  ((Alive s ∨ i = .ctlReset ∨ ∃ n, i = .ctlCsrRead n) ∧
    (i.isWire = false → mayIssue (recordOf i).code s.env.issuer = true) ∧
    ∃ s' r, Effect i s s' r ∧ t = record (originOf i s) (recordOf i) r s') ∨
  (i = .pkStop ∧ PkIn .stopping s ∧ s.cp.state ≠ .idle ∧ t = stayPending (recordOf i) s)

theorem actSays_ring {i : Instr} {s : State} {e : Except Raise Ring}
    (h : ∀ q, e = .ok q → Effect i s (withRing s q) .nothing) : ActSays i s (ringActOf s e) := by
  cases e with
  | error x => exact .inl rfl
  | ok q => exact h q rfl

theorem actSays_state {i : Instr} {s : State} {e : Except Raise State}
    (h : ∀ s', e = .ok s' → Effect i s s' .nothing) : ActSays i s (actOf s e) := by
  cases e with
  | error x => exact .inl rfl
  | ok s' => exact h s' rfl

/-- An operation whose statements say what `ActSays` says comes to one of the outcomes. -/
theorem outcomes_of_issue {i : Instr} {g : Bool} {b : Act} {s t : State} (hw : i.isWire = false)
    (h : issue i g b s = .next t) (hb : isDead s.phase = false → g = true → ActSays i s b) : Outcomes i s t := by
  have ho : originOf i s = .agent s.env.issuer := by simp [originOf, hw]
  rcases issue_cases h with ⟨hd, rfl⟩ | ⟨hl, x, _, _, rfl⟩ | ⟨hl, hi, hg, rfl⟩
  · exact .inl ⟨by rw [ho], .inl (not_alive_iff.2 hd)⟩
  · exact .inr (.inl ⟨.inl (alive_iff.2 hl), hw, x, s, .inl rfl, rfl⟩)
  · have hs := hb hl hg
    cases b with
    | done s' r => exact .inr (.inr (.inl ⟨.inl (alive_iff.2 hl), fun _ => hi, s', r, hs, by rw [ho]; rfl⟩))
    | raise kept x => exact .inr (.inl ⟨.inl (alive_iff.2 hl), hw, x, kept, hs, rfl⟩)
    | noStep => exact .inl ⟨by rw [ho]; rfl, .inr hs⟩
    | hold => exact .inr (.inr (.inr ⟨hs.1, hs.2.1, hs.2.2, rfl⟩))

/-- Likewise for the two operations that step in dead phases too. -/
theorem outcomes_of_issueAlways {i : Instr} {s s' t : State} {r : Result} (hw : i.isWire = false)
    (hi : i = .ctlReset ∨ ∃ n, i = .ctlCsrRead n)
    (h : issueAlways i (.done s' r) s = .next t) (hb : Effect i s s' r) : Outcomes i s t := by
  have ho : originOf i s = .agent s.env.issuer := by simp [originOf, hw]
  rcases issueAlways_cases h with ⟨hd, _, rfl⟩ | ⟨hp, hm, rfl⟩ | ⟨hm, rfl⟩
  · exact .inl ⟨by rw [ho], .inl (by simp [Alive, hd])⟩
  · refine .inr (.inl ⟨?_, hw, _, s, .inl rfl, rfl⟩)
    rcases hi with rfl | ⟨n, rfl⟩
    · cases hs : s.phase with
      | config => exact .inl (.inl hs)
      | ready => exact .inl (.inr (.inl hs))
      | running => exact .inl (.inr (.inr hs))
      | stopped => exact .inr ⟨rfl, rfl⟩
      | fatal => exact absurd hs hp
    · simp [mayIssue, ownerOf, unitOf, fnOf, recordOf] at hm
  · exact .inr (.inr (.inl ⟨.inr hi, fun _ => hm, s', r, hb, by rw [ho]; rfl⟩))

theorem outcomes_of_wire {i : Instr} {rate : Nat} {s t : State} (hw : i.isWire = true) (hi : ∀ r, Effect i s s r)
    (h : readWire i rate s = .next t) : Outcomes i s t := by
  have ho : originOf i s = .wire := by simp [originOf, hw]
  injection h with h
  subst h
  cases hd : isDead s.phase with
  | true => exact .inl ⟨by rw [ho]; rfl, .inl (not_alive_iff.2 hd)⟩
  | false =>
    exact .inr (.inr (.inl ⟨.inl (alive_iff.2 hd), by simp [hw], s, _, hi _, by rw [ho]⟩))

theorem actSays_subread {i : Instr} {k : Nat} {l : List (Nat × Byte)} {s : State}
    (h : 1 ≤ k → k ≤ s.cp.framesLeft → (∀ p ∈ l, p.1 < s.ring.freeProd) →
      Effect i s { s with ring := { s.ring with cells := storedRing s.ring l s.ring.cells }, cp := s.cp.after k }
        .nothing) : ActSays i s (subread k l s) := by
  by_cases hk : k = 0 ∨ s.cp.framesLeft < k
  · rw [subread_refused hk]
    exact .inl rfl
  · rw [subread, if_neg hk]
    cases hr : ringStoreAll l s.ring with
    | error x => exact .inl rfl
    | ok q =>
      obtain ⟨hl, rfl⟩ := ringStoreAll_inv hr
      exact h (by omega) (by omega) hl

theorem actSays_configure {found : Bool} {rate : Word} {bps : Byte} {cap : Word} {allocOk : Bool} {s s' : State}
    (h : configure found rate bps cap allocOk s = .ok s') (hp : s.phase = .config) (hr : s.ring.present = false) :
    Effect (.ctlConfigure found rate bps cap allocOk) s s' .nothing := by
  unfold configure at h
  split at h
  · cases h
  · split at h
    · cases h
    · rename_i rc hrc
      split at h
      · cases h
      · rename_i bd hbd
        split at h
        · cases h
        · by_cases hc : lowWord (requestedCapacity rate bps cap) = 0#32
          · rw [hc] at h
            cases h
          · rw [ringCreate_ok hc] at h
            injection h with h
            exact ⟨hp, hr, rc, bd, hrc, hbd, hc, h.symm⟩

/-- Executing an instruction comes to one of its outcomes. -/
theorem exec_outcomes {i : Instr} {s t : State} (h : exec i s = .next t) : Outcomes i s t := by
  cases i with
  | rbCreate cap =>
    refine outcomes_of_issue rfl h fun _ hg => actSays_ring fun q hq => ?_
    by_cases hc : cap = 0#32
    · subst hc
      cases hq
    · rw [ringCreate_ok hc] at hq
      injection hq with hq
      subst hq
      exact ⟨(creatable_iff.1 hg).1, (creatable_iff.1 hg).2, hc, rfl⟩
  | rbCapacity => exact outcomes_of_issue rfl h fun _ hg => ⟨standalone_iff.1 hg, rfl⟩
  | rbWritePtr => exact outcomes_of_issue rfl h fun _ hg => ⟨standalone_iff.1 hg, rfl⟩
  | rbFreeCount => exact outcomes_of_issue rfl h fun _ hg => ⟨standalone_iff.1 hg, rfl⟩
  | rbStore k b =>
    refine outcomes_of_issue rfl h fun _ hg => actSays_ring fun q hq => ?_
    obtain ⟨hk, rfl⟩ := ringStore_inv hq
    exact ⟨standalone_iff.1 hg, hk, rfl⟩
  | rbAdvanceWrite n =>
    refine outcomes_of_issue rfl h fun _ hg => actSays_ring fun q hq => ?_
    by_cases hn : n ≤ s.ring.freeProd
    · rw [ringAdvanceWrite_ok hn] at hq
      injection hq with hq
      subst hq
      exact ⟨standalone_iff.1 hg, hn, rfl⟩
    · rw [ringAdvanceWrite_raises (by omega)] at hq
      cases hq
  | rbSyncR2p => exact outcomes_of_issue rfl h fun _ hg => ⟨syncable_iff.1 hg, rfl⟩
  | rbReadPtr => exact outcomes_of_issue rfl h fun _ hg => ⟨standalone_iff.1 hg, rfl⟩
  | rbFillCount => exact outcomes_of_issue rfl h fun _ hg => ⟨standalone_iff.1 hg, rfl⟩
  | rbLoad k =>
    refine outcomes_of_issue rfl h fun _ hg => ?_
    cases hb : ringLoad k s.ring with
    | error x => exact .inl rfl
    | ok b =>
      obtain ⟨hk, hc⟩ := ringLoad_inv hb
      exact ⟨standalone_iff.1 hg, hk, ⟨b, hc, rfl⟩, rfl⟩
  | rbAdvanceRead n =>
    refine outcomes_of_issue rfl h fun _ hg => actSays_ring fun q hq => ?_
    by_cases hn : n ≤ s.ring.fillCons
    · rw [ringAdvanceRead_ok hn] at hq
      injection hq with hq
      subst hq
      exact ⟨standalone_iff.1 hg, hn, rfl⟩
    · rw [ringAdvanceRead_raises (by omega)] at hq
      cases hq
  | rbSyncW2c => exact outcomes_of_issue rfl h fun _ hg => ⟨syncable_iff.1 hg, rfl⟩
  | rbDestroy => exact outcomes_of_issue rfl h fun _ hg => ⟨standalone_iff.1 hg, rfl⟩
  | cpInvoke min max =>
    refine outcomes_of_issue rfl h fun _ hg => ?_
    by_cases hst : s.stopping = true
    · rw [if_pos hst]
      exact ⟨min, max, rfl, cpIn_iff.1 hg, stopping_iff.1 hst⟩
    · rw [if_neg hst]
      split
      · exact .inl rfl
      · rw [stopping_iff, not_or] at hst
        exact ⟨cpIn_iff.1 hg, hst.1, hst.2, by omega, rfl⟩
  | cpCheck =>
    refine outcomes_of_issue rfl h fun _ hg => ?_
    split
    · exact .inl rfl
    · exact ⟨cpIn_iff.1 hg, by omega, rfl⟩
  | cpSubreadHole k =>
    exact outcomes_of_issue rfl h fun _ hg => actSays_subread fun h1 h2 h3 => ⟨cpIn_iff.1 hg, h1, h2, h3, rfl⟩
  | cpSubreadAreas k p0 s0 p1 s1 =>
    exact outcomes_of_issue rfl h fun _ hg => actSays_subread fun h1 h2 h3 => ⟨cpIn_iff.1 hg, h1, h2, h3, rfl⟩
  | cpSubreadErr e => exact outcomes_of_issue rfl h fun _ _ => .inl rfl
  | cpCommit =>
    refine outcomes_of_issue rfl h fun _ hg => ?_
    by_cases hn : s.cp.wf * s.fmt.bytesPerFrame ≤ s.ring.freeProd
    · rw [ringAdvanceWrite_ok hn]
      exact ⟨cpIn_iff.1 hg, hn, rfl⟩
    · rw [ringAdvanceWrite_raises (by omega)]
      exact .inl rfl
  | cpOvfNotify => exact outcomes_of_issue rfl h fun _ hg => ⟨by simpa using hg, rfl⟩
  | fnRateCode rate => exact outcomes_of_issue rfl h fun _ _ => rfl
  | fnBitDepth bps => exact outcomes_of_issue rfl h fun _ _ => rfl
  | fnBuildHeader rate bps => exact outcomes_of_issue rfl h fun _ _ => rfl
  | fnDecodeRate code => exact outcomes_of_issue rfl h fun _ _ => rfl
  | pkTop => exact outcomes_of_issue rfl h fun _ hg => ⟨pkIn_iff.1 hg, rfl⟩
  | pkPoll => exact outcomes_of_issue rfl h fun _ hg => ⟨pkIn_iff.1 hg, rfl⟩
  | pkDrain =>
    refine outcomes_of_issue rfl h fun _ hg => actSays_state fun s' hs => ?_
    obtain ⟨bytes, hb, rfl⟩ := drain_inv hs
    exact ⟨pkIn_iff.1 hg, bytes, hb, rfl⟩
  | pkWait => exact outcomes_of_issue rfl h fun _ hg => ⟨pkIn_iff.1 hg, rfl⟩
  | pkSend sent =>
    refine outcomes_of_issue rfl h fun _ hg => ?_
    split
    · rename_i hs
      exact ⟨pkIn_iff.1 hg, hs, rfl⟩
    · rename_i hs
      exact .inr ⟨sent, rfl, rfl, hs, pkIn_iff.1 hg, rfl⟩
  | pkStop =>
    refine outcomes_of_issue rfl h fun _ hg => ?_
    split
    · rename_i hs
      exact ⟨pkIn_iff.1 hg, hs, rfl⟩
    · rename_i hs
      exact ⟨rfl, pkIn_iff.1 hg, hs⟩
  | ctlReset => exact outcomes_of_issueAlways rfl (.inl rfl) h rfl
  | ctlConfigure found rate bps cap allocOk =>
    exact outcomes_of_issue rfl h fun _ hg => actSays_state fun s' hs =>
      actSays_configure hs (creatable_iff.1 hg).1 (creatable_iff.1 hg).2
  | ctlSocketOpen ok addr port =>
    refine outcomes_of_issue rfl h fun _ hg => ?_
    split
    · simp only [Bool.and_eq_true, Bool.or_eq_true, decide_eq_true_eq, Bool.not_eq_true'] at hg
      exact ⟨hg.1, hg.2, rfl⟩
    · exact .inl rfl
  | ctlStart ok =>
    refine outcomes_of_issue rfl h fun _ hg => ?_
    split
    · simp only [Bool.and_eq_true, decide_eq_true_eq] at hg
      exact ⟨hg.1, hg.2, rfl⟩
    · exact .inl rfl
  | ctlCancel => exact outcomes_of_issue rfl h fun _ _ => rfl
  | ctlCsrRead n => exact outcomes_of_issueAlways rfl (.inr ⟨n, rfl⟩) h rfl
  | rate44k1 m => exact outcomes_of_wire rfl (fun _ => rfl) h
  | rate48k m => exact outcomes_of_wire rfl (fun _ => rfl) h

end Sys2Proof.Machine
end

