-- ==== Sys2Proof/Laws/PerInstr.lean ====
section
/-! SUPPORT. Per-instruction families: a statement about each instruction as syntax, one lemma for each constructor. -/

namespace Sys2Proof.Laws.RecordFits

open Sys2Proof

/-- An operation's record is one of its code: the code is assigned, and every operand has its name, its place and a value
of its width (30_encoding.md R93). A wire pattern has no operands (R106). -/
def Statement (i : Instr) : Prop :=
  if i.isWire then (recordOf i).operands = [] else (recordOf i).wellFormed = true

theorem fits_bits {w : Nat} (v : BitVec w) : OperandWidth.admits (.bits w) v.toNat = true := by
  simpa [OperandWidth.admits] using v.isLt

theorem fits_bit (v : Bool) : OperandWidth.admits (.bits 1) (bitValue v) = true := by cases v <;> rfl

theorem fits_nat (v : Nat) : OperandWidth.admits .nat v = true := rfl

theorem rbCreate (cap : Word) : Statement (.rbCreate cap) := by
  simp [Statement, Instr.isWire, Txn.wellFormed, recordOf, operandFields, unitOf, fnOf, recordMatches,
    fits_bits]

theorem rbCapacity : Statement .rbCapacity := rfl

theorem rbWritePtr : Statement .rbWritePtr := rfl

theorem rbFreeCount : Statement .rbFreeCount := rfl

theorem rbStore (k : Nat) (b : Byte) : Statement (.rbStore k b) := by
  simp [Statement, Instr.isWire, Txn.wellFormed, recordOf, operandFields, unitOf, fnOf, recordMatches,
    fits_bits, fits_nat]

theorem rbAdvanceWrite (n : Nat) : Statement (.rbAdvanceWrite n) := by
  simp [Statement, Instr.isWire, Txn.wellFormed, recordOf, operandFields, unitOf, fnOf, recordMatches,
    fits_nat]

theorem rbSyncR2p : Statement .rbSyncR2p := rfl

theorem rbReadPtr : Statement .rbReadPtr := rfl

theorem rbFillCount : Statement .rbFillCount := rfl

theorem rbLoad (k : Nat) : Statement (.rbLoad k) := by
  simp [Statement, Instr.isWire, Txn.wellFormed, recordOf, operandFields, unitOf, fnOf, recordMatches,
    fits_nat]

theorem rbAdvanceRead (n : Nat) : Statement (.rbAdvanceRead n) := by
  simp [Statement, Instr.isWire, Txn.wellFormed, recordOf, operandFields, unitOf, fnOf, recordMatches,
    fits_nat]

theorem rbSyncW2c : Statement .rbSyncW2c := rfl

theorem rbDestroy : Statement .rbDestroy := rfl

theorem cpInvoke (min max : Nat) : Statement (.cpInvoke min max) := by
  simp [Statement, Instr.isWire, Txn.wellFormed, recordOf, operandFields, unitOf, fnOf, recordMatches,
    fits_nat]

theorem cpCheck : Statement .cpCheck := rfl

theorem cpSubreadHole (k : Nat) : Statement (.cpSubreadHole k) := by
  simp [Statement, Instr.isWire, Txn.wellFormed, recordOf, operandFields, unitOf, fnOf, recordMatches,
    fits_nat]

theorem cpSubreadAreas (k p0 s0 p1 s1 : Nat) : Statement (.cpSubreadAreas k p0 s0 p1 s1) := by
  simp [Statement, Instr.isWire, Txn.wellFormed, recordOf, operandFields, unitOf, fnOf, recordMatches,
    fits_nat]

theorem cpSubreadErr (e : Word) : Statement (.cpSubreadErr e) := by
  simp [Statement, Instr.isWire, Txn.wellFormed, recordOf, operandFields, unitOf, fnOf, recordMatches,
    fits_bits]

theorem cpCommit : Statement .cpCommit := rfl

theorem cpOvfNotify : Statement .cpOvfNotify := rfl

theorem fnRateCode (rate : Word) : Statement (.fnRateCode rate) := by
  simp [Statement, Instr.isWire, Txn.wellFormed, recordOf, operandFields, unitOf, fnOf, recordMatches,
    fits_bits]

theorem fnBitDepth (bps : Byte) : Statement (.fnBitDepth bps) := by
  simp [Statement, Instr.isWire, Txn.wellFormed, recordOf, operandFields, unitOf, fnOf, recordMatches,
    fits_bits]

theorem fnBuildHeader (rate : Word) (bps : Byte) : Statement (.fnBuildHeader rate bps) := by
  simp [Statement, Instr.isWire, Txn.wellFormed, recordOf, operandFields, unitOf, fnOf, recordMatches,
    fits_bits]

theorem fnDecodeRate (code : Byte) : Statement (.fnDecodeRate code) := by
  simp [Statement, Instr.isWire, Txn.wellFormed, recordOf, operandFields, unitOf, fnOf, recordMatches,
    fits_bits]

theorem pkTop : Statement .pkTop := rfl

theorem pkPoll : Statement .pkPoll := rfl

theorem pkDrain : Statement .pkDrain := rfl

theorem pkWait : Statement .pkWait := rfl

theorem pkSend (s : Word) : Statement (.pkSend s) := by
  simp [Statement, Instr.isWire, Txn.wellFormed, recordOf, operandFields, unitOf, fnOf, recordMatches,
    fits_bits]

theorem pkStop : Statement .pkStop := rfl

theorem ctlReset : Statement .ctlReset := rfl

theorem ctlConfigure (found : Bool) (rate : Word) (bps : Byte) (cap : Word) (allocOk : Bool) : Statement (.ctlConfigure found rate bps cap allocOk) := by
  simp [Statement, Instr.isWire, Txn.wellFormed, recordOf, operandFields, unitOf, fnOf, recordMatches,
    fits_bits, fits_bit]

theorem ctlSocketOpen (ok : Bool) (addr : Nat) (port : BitVec 16) : Statement (.ctlSocketOpen ok addr port) := by
  simp [Statement, Instr.isWire, Txn.wellFormed, recordOf, operandFields, unitOf, fnOf, recordMatches,
    fits_bits, fits_bit, fits_nat]

theorem ctlStart (ok : Bool) : Statement (.ctlStart ok) := by
  simp [Statement, Instr.isWire, Txn.wellFormed, recordOf, operandFields, unitOf, fnOf, recordMatches,
    fits_bit]

theorem ctlCancel : Statement .ctlCancel := rfl

theorem ctlCsrRead (n : Byte) : Statement (.ctlCsrRead n) := by
  simp [Statement, Instr.isWire, Txn.wellFormed, recordOf, operandFields, unitOf, fnOf, recordMatches,
    fits_bits]

theorem rate44k1 (m : BitVec 7) : Statement (.rate44k1 m) := rfl

theorem rate48k (m : BitVec 7) : Statement (.rate48k m) := rfl

end Sys2Proof.Laws.RecordFits
end

