-- ==== Sys2Proof/Machine/Script.lean ====
section
/-! DEFINITION. Test scripts (30_encoding.md R97), the pseudo-operations (R98) and the simulator's oracle schedule
(20_memory.md R79): how lists of transactions with their agents are written. Nothing of the block depends on them
(log 22, log 23). -/

namespace Sys2Proof.Machine

open Sys2Proof

/-! ## The transcriber: from named operands to a record -/

/-- The operands a script may omit (R97). -/
def defaultOperand : OperandName → Option Nat
  | .port => some 4010
  | .cap => some 0
  | .ok => some 1
  | .found => some 1
  | .allocOk => some 1
  | .k | .b | .n | .min | .max | .p0 | .s0 | .p1 | .s1 | .e | .rate | .bps | .code | .s | .addr => none

/-- The value given for a name. -/
def givenValue (name : OperandName) : List Operand → Option Nat
  | [] => none
  | o :: os => if o.name = name then some o.value else givenValue name os

/-- One operand for each field, given or by default; a field with neither is missing (R93). -/
def fillRecord (given : List Operand) : List OperandField → Except DecodeError (List Operand)
  | [] => .ok []
  | f :: fs =>
    match givenValue f.name given, defaultOperand f.name with
    | some v, _ => (fillRecord given fs).map (⟨f.name, v⟩ :: ·)
    | none, some v => (fillRecord given fs).map (⟨f.name, v⟩ :: ·)
    | none, none => .error (.missingOperand f.name)

/-- The first given operand that is no field of the code, or that is given twice. -/
def surplusOperand (fs : List OperandField) : List Operand → Option OperandName
  | [] => none
  | o :: os =>
    if fs.any (fun f => decide (f.name = o.name)) && (givenValue o.name os).isNone then surplusOperand fs os
    else some o.name

/-- The transaction of a code and operands given by name in any order (R93, R97). -/
def transcribe (code : Byte) (given : List Operand) : Except DecodeError Txn :=
  match operandFields code with
  | none => .error (.reserved code)
  | some fs =>
    match surplusOperand fs given with
    | some name => .error (.extraOperand name)
    | none => (fillRecord given fs).map fun os => ⟨code, os⟩

/-! ## The text of a script line -/

/-- The mnemonics with their codes (R93). -/
def mnemonicTable : List (String × Byte) :=
  [("RB_CREATE", 0x00#8), ("RB_CAPACITY", 0x01#8), ("RB_WRITE_PTR", 0x02#8), ("RB_FREE_COUNT", 0x03#8),
   ("RB_STORE", 0x04#8), ("RB_ADVANCE_WRITE", 0x05#8), ("RB_SYNC_R2P", 0x06#8), ("RB_READ_PTR", 0x07#8),
   ("RB_FILL_COUNT", 0x08#8), ("RB_LOAD", 0x09#8), ("RB_ADVANCE_READ", 0x0A#8), ("RB_SYNC_W2C", 0x0B#8),
   ("RB_DESTROY", 0x0C#8)] ++
  [("CP_INVOKE", 0x20#8), ("CP_CHECK", 0x21#8), ("CP_SUBREAD_HOLE", 0x22#8), ("CP_SUBREAD_AREAS", 0x23#8),
   ("CP_SUBREAD_ERR", 0x24#8), ("CP_COMMIT", 0x25#8), ("CP_OVF_NOTIFY", 0x26#8),
   ("FN_RATE_CODE", 0x40#8), ("FN_BIT_DEPTH", 0x41#8), ("FN_BUILD_HEADER", 0x42#8), ("FN_DECODE_RATE", 0x43#8)] ++
  [("PK_TOP", 0x60#8), ("PK_POLL", 0x61#8), ("PK_DRAIN", 0x62#8), ("PK_WAIT", 0x63#8), ("PK_SEND", 0x64#8),
   ("PK_STOP", 0x65#8), ("CTL_RESET", 0x80#8), ("CTL_CONFIGURE", 0x81#8), ("CTL_SOCKET_OPEN", 0x82#8),
   ("CTL_START", 0x83#8), ("CTL_CANCEL", 0x84#8), ("CTL_CSR_READ", 0x85#8)]

/-- The names of operands as scripts write them (R93, R97). -/
def operandTable : List (String × OperandName) :=
  [("cap", .cap), ("k", .k), ("b", .b), ("n", .n), ("min", .min), ("max", .max), ("p0", .p0), ("s0", .s0),
   ("p1", .p1), ("s1", .s1), ("e", .e), ("rate", .rate), ("bps", .bps), ("code", .code), ("s", .s),
   ("found", .found), ("alloc_ok", .allocOk), ("ok", .ok), ("addr", .addr), ("port", .port)]

/-- The agents as scripts write them after `@` (R97). -/
def agentTable : List (String × Agent) := [("PROD", .prod), ("CONS", .cons), ("HOST", .host), ("SIG", .sig)]

/-- The entry of a table under a name. -/
def tableEntry {α : Type} (name : List Char) : List (String × α) → Option α
  | [] => none
  | (key, v) :: rest => if key.toList = name then some v else tableEntry name rest

/-- Spaces off both ends. -/
def trimSpaces (cs : List Char) : List Char :=
  ((cs.dropWhile (· == ' ')).reverse.dropWhile (· == ' ')).reverse

/-- The value of a digit, decimal or hexadecimal. -/
def digitValue (c : Char) : Option Nat :=
  if '0' ≤ c ∧ c ≤ '9' then some (c.toNat - '0'.toNat)
  else if 'a' ≤ c ∧ c ≤ 'f' then some (c.toNat - 'a'.toNat + 10)
  else if 'A' ≤ c ∧ c ≤ 'F' then some (c.toNat - 'A'.toNat + 10)
  else none

/-- Digits in a base, after a value read so far. -/
def parseDigits (base acc : Nat) : List Char → Option Nat
  | [] => some acc
  | c :: cs =>
    match digitValue c with
    | none => none
    | some d => if d < base then parseDigits base (acc * base + d) cs else none

/-- A value, "decimal or `0x` hexadecimal" (R97). -/
def parseValue : List Char → Option Nat
  | [] => none
  | '0' :: 'x' :: c :: cs => parseDigits 16 0 (c :: cs)
  | c :: cs => parseDigits 10 0 (c :: cs)

/-- One `name=value`. -/
def parseOperand (cs : List Char) : Option Operand :=
  match tableEntry (trimSpaces (cs.takeWhile (· != '='))) operandTable,
        parseValue (trimSpaces ((cs.dropWhile (· != '=')).drop 1)) with
  | some name, some v => some ⟨name, v⟩
  | _, _ => none

/-- The operands of a line, separated by commas; none at all is an empty record. -/
def parseOperands (cs : List Char) : Option (List Operand) :=
  if trimSpaces cs = [] then some []
  else (cs.splitOn ',').mapM parseOperand

/-- What a script line is. -/
inductive ScriptLine where
  | blank
  | operation (a : Agent) (t : Txn)
  | malformed
  deriving DecidableEq, Repr

/-- A line's text before a comment, in which a mnemonic, operands and an agent stand (R97). -/
def parseBody (cs : List Char) : ScriptLine :=
  let front := trimSpaces (cs.takeWhile (· != '@'))
  match tableEntry (front.takeWhile (· != ' ')) mnemonicTable,
        parseOperands (front.dropWhile (· != ' ')),
        tableEntry (trimSpaces ((cs.dropWhile (· != '@')).drop 1)) agentTable with
  | some code, some given, some a =>
    match transcribe code given with
    | .ok t => .operation a t
    | .error _ => .malformed
  | _, _, _ => .malformed

/-- `MNEMONIC name=value, name=value @AGENT`, and `;` begins a comment (R97). -/
def parseLine (line : String) : ScriptLine :=
  let body := trimSpaces (line.toList.takeWhile (· != ';'))
  if body = [] then .blank else parseBody body

/-! ## Pseudo-operations (R98) -/

/-- An operation with its agent. -/
def op (a : Agent) (i : Instr) : Agent × Txn := (a, recordOf i)

/-- The stores of RB_PUSH at offsets `k`, `k+1`, … -/
def pushStores (k : Nat) : List Byte → List (Agent × Txn)
  | [] => []
  | b :: bs => op .prod (.rbStore k b) :: pushStores (k + 1) bs

/-- `RB_PUSH b0, …, b(m−1) @PROD`. -/
def rbPush (bs : List Byte) : List (Agent × Txn) :=
  pushStores 0 bs ++ [op .prod (.rbAdvanceWrite bs.length)]

/-- `RB_POP m @CONS`. -/
def rbPop (m : Nat) : List (Agent × Txn) :=
  (List.range m).map (fun i => op .cons (.rbLoad i)) ++ [op .cons (.rbAdvanceRead m)]

/-- `SYNC_ALL`. -/
def syncAll : List (Agent × Txn) := [op .cons .rbSyncW2c, op .prod .rbSyncR2p]

/-- A HOST answer to a sub-read (41_capture_producer.md R153–R155). -/
inductive Answer where
  | hole (k : Nat)
  | areas (k p0 s0 p1 s1 : Nat)
  | failed (e : Word)
  deriving DecidableEq, Repr

/-- The sub-read operation that carries an answer. -/
def answerInstr : Answer → Instr
  | .hole k => .cpSubreadHole k
  | .areas k p0 s0 p1 s1 => .cpSubreadAreas k p0 s0 p1 s1
  | .failed e => .cpSubreadErr e

/-- `CP_CALLBACK min=a, max=b; <answers>`. -/
def cpCallback (min max : Nat) (answers : List Answer) : List (Agent × Txn) :=
  [op .host (.cpInvoke min max), op .prod .cpCheck] ++ answers.map (fun x => op .prod (answerInstr x)) ++
    [op .prod .cpCommit]

/-! ## The oracle schedule (20_memory.md R79) -/

/-- The view copy the oracle takes after an operation: RB_SYNC_W2C after an advance of the write cursor, RB_SYNC_R2P
after an advance of the read cursor, by a direct issue or inside CP_COMMIT and PK_DRAIN. -/
def oracleSync (t : Txn) : List (Agent × Txn) :=
  if t.code = 0x05#8 ∨ t.code = 0x25#8 then [op .cons .rbSyncW2c]
  else if t.code = 0x0A#8 ∨ t.code = 0x62#8 then [op .prod .rbSyncR2p]
  else []

/-- The copies the oracle takes after a step from `s` to `t`: those of the operation that the step took, by its new TRACE
entry. An advance that raised or had no step is none. -/
def oracleCopies (s t : State) : List (Agent × Txn) :=
  match t.trace.drop s.trace.length with
  | [⟨.agent _, x, .nothing⟩] => oracleSync x
  | _ => []

/-- A step under the oracle schedule: the next turn, and after an advance its view copy as the very next turn, ahead of
whatever its agent has pending, a held PK_STOP too (R79, D42; log 23). -/
def oracleStep (s : State) : Host.Outcome State Fault Refusal :=
  match step s with
  | .next t => .next (loadProgram (oracleCopies s t) t)
  | .refused r => .refused r

/-- Steps under the oracle schedule. A program under it is `underOracle` from `loadProgram`. -/
def underOracle : Nat → State → Host.Outcome State Fault Refusal
  | 0, s => .next s
  | n + 1, s =>
    match oracleStep s with
    | .next t => underOracle n t
    | .refused r => .refused r

end Sys2Proof.Machine
end

