-- ==== Sys2Proof/Laws/Script.lean ====
section
/-! SUPPORT. The oracle schedule (20_memory.md R79): what an issued record does at the next step, and that the copy after
an advance is taken by the very next step, whatever its agent has pending. -/

namespace Sys2Proof.Machine

open Sys2Proof

/-- An issued record runs as its instruction at the next step, ahead of what its agent has pending. -/
theorem step_issueNext {s : State} {a : Agent} {x : Txn} {i : Instr} (h : decode (.txn x) = .ok i) :
    step (issueNext s a x) = exec i { s with env := { s.env with issuer := a } } := by
  simp [step, fetch, fetchTxn, h, takeTurn, issueNext]

theorem oracleStep_next {s t : State} (h : step s = .next t) :
    oracleStep s = .next (loadProgram (oracleCopies s t) t) := by rw [oracleStep, h]

/-- After an advance of the write cursor the next step copies `W` into `WC`; turns and pending operations are as the
advance left them. -/
theorem oracle_takes_syncW2c {s t : State} (h : step s = .next t)
    (hc : oracleCopies s t = [op .cons .rbSyncW2c]) (ht : Syncable t) :
    ∃ u v, oracleStep s = .next u ∧ step u = .next v ∧ v.ring = { t.ring with wc := t.ring.w } ∧
      v.env.schedule = t.env.schedule ∧ v.env.pending = t.env.pending := by
  have hu := oracleStep_next h
  rw [hc] at hu
  have hv := exec_runs (i := .rbSyncW2c) (s := { t with env := { t.env with issuer := .cons } }) rfl (alive_iff.1 ht.2) rfl
    (syncable_iff.2 ht)
  exact ⟨_, _, hu, (step_issueNext (i := .rbSyncW2c) rfl).trans hv, rfl, rfl, rfl⟩

/-- After an advance of the read cursor the next step copies `R` into `RP`; turns and pending operations are as the
advance left them. -/
theorem oracle_takes_syncR2p {s t : State} (h : step s = .next t)
    (hc : oracleCopies s t = [op .prod .rbSyncR2p]) (ht : Syncable t) :
    ∃ u v, oracleStep s = .next u ∧ step u = .next v ∧ v.ring = { t.ring with rp := t.ring.r } ∧
      v.env.schedule = t.env.schedule ∧ v.env.pending = t.env.pending := by
  have hu := oracleStep_next h
  rw [hc] at hu
  have hv := exec_runs (i := .rbSyncR2p) (s := { t with env := { t.env with issuer := .prod } }) rfl (alive_iff.1 ht.2) rfl
    (syncable_iff.2 ht)
  exact ⟨_, _, hu, (step_issueNext (i := .rbSyncR2p) rfl).trans hv, rfl, rfl, rfl⟩

end Sys2Proof.Machine
end

