-- ==== Sys2Proof/Tests/Slice0.lean ====
section
/-! SUPPORT. The author's own tests: ill-formed terms that are refused, a word of every encoding written out from the spec,
one small step or two for each instruction, with its result from 95_test_vectors.md, and a witness for the hypotheses of
every obligation. -/

namespace Sys2Proof.Tests

open Sys2Proof Sys2Proof.Machine

/-! ## Well-formedness refuses ill-formed terms (30_encoding.md R93, R95) -/

theorem test_wf_accepts : (⟨0x04#8, [⟨.k, 3⟩, ⟨.b, 255⟩]⟩ : Txn).wellFormed = true := by decide

theorem test_wf_reserved_code : (⟨0x0D#8, []⟩ : Txn).wellFormed = false := by decide

theorem test_wf_missing_operand : (⟨0x04#8, [⟨.k, 3⟩]⟩ : Txn).wellFormed = false := by decide

theorem test_wf_extra_operand : (⟨0x60#8, [⟨.k, 3⟩]⟩ : Txn).wellFormed = false := by decide

theorem test_wf_misnamed_operand : (⟨0x05#8, [⟨.k, 3⟩]⟩ : Txn).wellFormed = false := by decide

theorem test_wf_wide_operand : (⟨0x04#8, [⟨.k, 3⟩, ⟨.b, 256⟩]⟩ : Txn).wellFormed = false := by decide

theorem test_wf_wide_bit : (⟨0x83#8, [⟨.ok, 2⟩]⟩ : Txn).wellFormed = false := by decide

/-- `MULT` 0 is decodable and meaningless (R101): no encoder produces it. -/
theorem test_wf_wire_multiplier : (Instr.rate44k1 0#7).wellFormed = false ∧ (Instr.rate48k 0#7).wellFormed = false ∧
    (Instr.rate44k1 127#7).wellFormed = true := by decide

/-! ## Decoding: a word of every row, from the encoding column of spec/opcode_table.json and R93's operands -/

theorem test_decode_rbCreate : decode (.txn ⟨0b00000000#8, [⟨.cap, 6⟩]⟩) = .ok (.rbCreate 6#32) := by decide

theorem test_decode_rbCapacity : decode (.txn ⟨0b00000001#8, []⟩) = .ok .rbCapacity := by decide

theorem test_decode_rbWritePtr : decode (.txn ⟨0b00000010#8, []⟩) = .ok .rbWritePtr := by decide

theorem test_decode_rbFreeCount : decode (.txn ⟨0b00000011#8, []⟩) = .ok .rbFreeCount := by decide

theorem test_decode_rbStore :
    decode (.txn ⟨0b00000100#8, [⟨.k, 3⟩, ⟨.b, 0x11⟩]⟩) =
      .ok (.rbStore 3 0x11#8) := by decide

theorem test_decode_rbAdvanceWrite : decode (.txn ⟨0b00000101#8, [⟨.n, 4⟩]⟩) = .ok (.rbAdvanceWrite 4) := by decide

theorem test_decode_rbSyncR2p : decode (.txn ⟨0b00000110#8, []⟩) = .ok .rbSyncR2p := by decide

theorem test_decode_rbReadPtr : decode (.txn ⟨0b00000111#8, []⟩) = .ok .rbReadPtr := by decide

theorem test_decode_rbFillCount : decode (.txn ⟨0b00001000#8, []⟩) = .ok .rbFillCount := by decide

theorem test_decode_rbLoad : decode (.txn ⟨0b00001001#8, [⟨.k, 5⟩]⟩) = .ok (.rbLoad 5) := by decide

theorem test_decode_rbAdvanceRead : decode (.txn ⟨0b00001010#8, [⟨.n, 3⟩]⟩) = .ok (.rbAdvanceRead 3) := by decide

theorem test_decode_rbSyncW2c : decode (.txn ⟨0b00001011#8, []⟩) = .ok .rbSyncW2c := by decide

theorem test_decode_rbDestroy : decode (.txn ⟨0b00001100#8, []⟩) = .ok .rbDestroy := by decide

theorem test_decode_cpInvoke : decode (.txn ⟨0b00100000#8, [⟨.min, 2⟩, ⟨.max, 3⟩]⟩) = .ok (.cpInvoke 2 3) := by decide

theorem test_decode_cpCheck : decode (.txn ⟨0b00100001#8, []⟩) = .ok .cpCheck := by decide

theorem test_decode_cpSubreadHole : decode (.txn ⟨0b00100010#8, [⟨.k, 1⟩]⟩) = .ok (.cpSubreadHole 1) := by decide

theorem test_decode_cpSubreadAreas :
    decode (.txn ⟨0b00100011#8, [⟨.k, 2⟩, ⟨.p0, 0x1000⟩, ⟨.s0, 4⟩, ⟨.p1, 0x1002⟩, ⟨.s1, 8⟩]⟩) =
      .ok (.cpSubreadAreas 2 0x1000 4 0x1002 8) := by decide

theorem test_decode_cpSubreadErr :
    decode (.txn ⟨0b00100100#8, [⟨.e, 0xFFFFFFFF⟩]⟩) =
      .ok (.cpSubreadErr 0xFFFFFFFF#32) := by decide

theorem test_decode_cpCommit : decode (.txn ⟨0b00100101#8, []⟩) = .ok .cpCommit := by decide

theorem test_decode_cpOvfNotify : decode (.txn ⟨0b00100110#8, []⟩) = .ok .cpOvfNotify := by decide

theorem test_decode_fnRateCode :
    decode (.txn ⟨0b01000000#8, [⟨.rate, 44100⟩]⟩) =
      .ok (.fnRateCode 44100#32) := by decide

theorem test_decode_fnBitDepth : decode (.txn ⟨0b01000001#8, [⟨.bps, 2⟩]⟩) = .ok (.fnBitDepth 2#8) := by decide

theorem test_decode_fnBuildHeader :
    decode (.txn ⟨0b01000010#8, [⟨.rate, 48000⟩, ⟨.bps, 3⟩]⟩) =
      .ok (.fnBuildHeader 48000#32 3#8) := by decide

theorem test_decode_fnDecodeRate :
    decode (.txn ⟨0b01000011#8, [⟨.code, 0x81⟩]⟩) =
      .ok (.fnDecodeRate 0x81#8) := by decide

theorem test_decode_pkTop : decode (.txn ⟨0b01100000#8, []⟩) = .ok .pkTop := by decide

theorem test_decode_pkPoll : decode (.txn ⟨0b01100001#8, []⟩) = .ok .pkPoll := by decide

theorem test_decode_pkDrain : decode (.txn ⟨0b01100010#8, []⟩) = .ok .pkDrain := by decide

theorem test_decode_pkWait : decode (.txn ⟨0b01100011#8, []⟩) = .ok .pkWait := by decide

theorem test_decode_pkSend : decode (.txn ⟨0b01100100#8, [⟨.s, 1157⟩]⟩) = .ok (.pkSend 1157#32) := by decide

theorem test_decode_pkStop : decode (.txn ⟨0b01100101#8, []⟩) = .ok .pkStop := by decide

theorem test_decode_ctlReset : decode (.txn ⟨0b10000000#8, []⟩) = .ok .ctlReset := by decide

theorem test_decode_ctlConfigure :
    decode (.txn ⟨0b10000001#8, [⟨.found, 1⟩, ⟨.rate, 44100⟩, ⟨.bps, 2⟩, ⟨.cap, 2048⟩, ⟨.allocOk, 0⟩]⟩) =
      .ok (.ctlConfigure true 44100#32 2#8 2048#32 false) := by decide

theorem test_decode_ctlSocketOpen :
    decode (.txn ⟨0b10000010#8, [⟨.ok, 1⟩, ⟨.addr, 9⟩, ⟨.port, 4010⟩]⟩) =
      .ok (.ctlSocketOpen true 9 4010#16) := by decide

theorem test_decode_ctlStart : decode (.txn ⟨0b10000011#8, [⟨.ok, 0⟩]⟩) = .ok (.ctlStart false) := by decide

theorem test_decode_ctlCancel : decode (.txn ⟨0b10000100#8, []⟩) = .ok .ctlCancel := by decide

theorem test_decode_ctlCsrRead : decode (.txn ⟨0b10000101#8, [⟨.n, 0x0B⟩]⟩) = .ok (.ctlCsrRead 0x0B#8) := by decide

theorem test_decode_rate44k1 : decode (.wire 0b10000010#8) = .ok (.rate44k1 2#7) := by decide

theorem test_decode_rate48k : decode (.wire 0b01111111#8) = .ok (.rate48k 127#7) := by decide

theorem test_decode_reserved : decode (.txn ⟨0b00001101#8, []⟩) = .error (.reserved 0x0D#8) := by decide

theorem test_decode_wide_operand : decode (.txn ⟨0b00000100#8, [⟨.k, 3⟩, ⟨.b, 256⟩]⟩) = .error (.operandRange .b) := by
  decide

theorem test_decode_swapped_operands : decode (.txn ⟨0b00100000#8, [⟨.max, 3⟩, ⟨.min, 2⟩]⟩) =
    .error (.missingOperand .min) := by decide

theorem test_encode_rbStore : encode (.rbStore 3 0x11#8) = .txn ⟨0b00000100#8, [⟨.k, 3⟩, ⟨.b, 0x11⟩]⟩ := by decide

theorem test_encode_rate44k1 : encode (.rate44k1 2#7) = .wire 0b10000010#8 := by decide

/-- An operation's word is read as the operation, any other byte as byte 0 of a datagram (log 13). -/
theorem test_table_words : decodeTableWord 8 0x04 = some (.rbStore 0 0#8) ∧ decodeTableWord 8 0x80 = some .ctlReset ∧
    decodeTableWord 8 0xFF = some (.rate44k1 127#7) ∧ decodeTableWord 8 0x0D = some (.rate48k 13#7) ∧
    decodeTableWord 16 0x04 = none := by decide

/-! ## Small states -/

/-- The start of 95_test_vectors.md 2.2: CTL_RESET, then RB_CREATE with capacity 6. -/
def fifo : State := { State.reset with ring := ⟨true, 6#32, [], 0, 0, 0, 0⟩ }

/-- The state after V-RB9: six bytes 0xA0..0xA5 committed and visible to CONS, PROD's view lagging. -/
def fullFifo : State :=
  { State.reset with
    ring := ⟨true, 6#32, [(0, 0xA0#8), (1, 0xA1#8), (2, 0xA2#8), (3, 0xA3#8), (4, 0xA4#8), (5, 0xA5#8)], 6, 0, 0, 6⟩ }

/-- The state after V-RB17: positions 4 and 5 hold 0xA4 and 0xA5, positions 6, 7 and 8 were committed without a store,
position 9 holds 0xB3; R = RP = 4. -/
def gappedFifo : State :=
  { State.reset with ring := ⟨true, 6#32, [(3, 0xB3#8), (4, 0xA4#8), (5, 0xA5#8)], 10, 4, 4, 10⟩ }

/-- The format of `rate=44100, bps=2` (95_test_vectors.md S7, S10). -/
def stereo16 : Format := ⟨44100#32, 2#8, 4#8, ⟨0x81#8, 0x10#8, 0x02#8, 0x00#8, 0x03#8⟩⟩

/-- READY, with a ring of `cap` bytes. -/
def ready (cap : Word) : State :=
  { State.reset with phase := .ready, fmt := stereo16, ring := ⟨true, cap, [], 0, 0, 0, 0⟩ }

/-- RUNNING(cap) of 95_test_vectors.md. -/
def running (cap : Word) : State :=
  { ready cap with phase := .running, socket := ⟨9, 4010#16, true⟩, pk := ⟨.top, [], 0⟩ }

/-- RUNNING(16) in V-CP3: an invocation of 3 frames, in READING. -/
def reading : State := { running 16#32 with cp := ⟨.reading, 2, 3, 3, 0⟩ }

/-- V-CP6's last answer is done: 3 frames stored, in COMMIT. -/
def committing : State :=
  { running 16#32 with
    ring := ⟨true, 16#32, [(0, 0#8), (1, 0#8), (2, 0#8), (3, 0#8), (4, 1#8), (5, 2#8), (6, 5#8), (7, 6#8), (8, 3#8),
      (9, 4#8), (10, 7#8), (11, 8#8)], 0, 0, 0, 0⟩
    cp := ⟨.commit, 2, 3, 3, 3⟩ }

/-- The packetizer in a state of its loop. -/
def inLoop (x : PkState) : State := { running 16#32 with pk := ⟨x, [], 0⟩ }

/-- FATAL(0x10, 1). -/
def dead : State :=
  { running 16#32 with phase := .fatal, err := ⟨0x10#8, 1#32⟩, exit := some Config.exitFail }

/-- STOPPED, after PK_STOP. -/
def ended : State := stopBlock (running 16#32)

/-- A payload of `n` zero bytes. -/
@[irreducible] def zeroPayload (n : Nat) : Memory := putPayload 0 (List.replicate n 0x00#8) []

/-- In SEND with a full payload. -/
def sending : State := { running 16#32 with pk := ⟨.send, zeroPayload 1152, 1152⟩ }

/-- The state after an agent has issued an instruction and stepped; `none` if the step refuses. -/
def after (s : State) (a : Agent) (i : Instr) : Option State :=
  match step (issueNext s a (recordOf i)) with
  | .next t => some t
  | .refused _ => none

/-- What the instruction returned: the result in the last TRACE entry. -/
def result (s : State) (a : Agent) (i : Instr) : Option Result :=
  (after s a i).bind fun t => t.trace.getLast?.map TraceEntry.result

/-- The phase, the error code and the info after the instruction. -/
def trap (s : State) (a : Agent) (i : Instr) : Option (Phase × ErrRegs) := (after s a i).map fun t => (t.phase, t.err)

/-! ## The ring buffer (95_test_vectors.md 2.2) -/

/-- V-RB24; and the ring RB_CREATE makes. -/
theorem test_rbCreate : (after State.reset .host (.rbCreate 6#32)).map State.ring = some ⟨true, 6#32, [], 0, 0, 0, 0⟩ ∧
    trap State.reset .host (.rbCreate 0#32) = some (.fatal, ⟨0x04#8, 0#32⟩) := by decide

/-- V-RB1. -/
theorem test_rbCapacity : result fifo .cons .rbCapacity = some (.count 6) := by decide

/-- V-RB14. -/
theorem test_rbWritePtr : result gappedFifo .prod .rbWritePtr = some (.count 4) ∧
    result fullFifo .prod .rbWritePtr = some (.count 0) := by decide

/-- V-RB7, V-RB2. -/
theorem test_rbFreeCount : result fullFifo .prod .rbFreeCount = some (.count 0) ∧
    result fifo .prod .rbFreeCount = some (.count 6) := by decide

/-- V-RB5 (k = 5); V-RB15: the offset wraps. -/
theorem test_rbStore : (after fifo .prod (.rbStore 5 0xA5#8)).map (fun t => t.ring.cells) = some [(5, 0xA5#8)] ∧
    (after { fifo with ring := ⟨true, 6#32, [], 6, 4, 4, 6⟩ } .prod (.rbStore 3 0xB3#8)).map (fun t => t.ring.cells) =
      some [(3, 0xB3#8)] := by decide

/-- V-RB3. -/
theorem test_rbStore_range : trap fifo .prod (.rbStore 6 1#8) = some (.fatal, ⟨0x32#8, 6#32⟩) := by decide

/-- V-RB6, V-RB4. -/
theorem test_rbAdvanceWrite : (after fifo .prod (.rbAdvanceWrite 6)).map (fun t => t.ring.w) = some 6 ∧
    trap fifo .prod (.rbAdvanceWrite 7) = some (.fatal, ⟨0x30#8, 7#32⟩) := by decide

/-- V-RB13 (R = 4). -/
theorem test_rbSyncR2p : (after { fifo with ring := ⟨true, 6#32, [], 6, 4, 0, 6⟩ } .prod .rbSyncR2p).map
    (fun t => (t.ring.rp, t.ring.r, t.ring.wc)) = some (4, 4, 6) := by decide

/-- V-RB14. -/
theorem test_rbReadPtr : result gappedFifo .cons .rbReadPtr = some (.count 4) := by decide

/-- V-RB9. -/
theorem test_rbFillCount : result fullFifo .cons .rbFillCount = some (.count 6) ∧
    result fifo .cons .rbFillCount = some (.count 0) := by decide

/-- V-RB10, V-RB17. -/
theorem test_rbLoad : result fullFifo .cons (.rbLoad 5) = some (.byte 0xA5#8) ∧
    result gappedFifo .cons (.rbLoad 0) = some (.byte 0xA4#8) := by decide

/-- V-RB18, V-RB8. -/
theorem test_rbLoad_raises : trap gappedFifo .cons (.rbLoad 2) = some (.fatal, ⟨0x34#8, 6#32⟩) ∧
    trap fifo .cons (.rbLoad 0) = some (.fatal, ⟨0x33#8, 0#32⟩) := by decide

/-- V-RB11. -/
theorem test_rbAdvanceRead : (after fullFifo .cons (.rbAdvanceRead 4)).map (fun t => (t.ring.r, t.ring.cells)) =
    some (4, [(4, 0xA4#8), (5, 0xA5#8)]) := by decide

/-- V-RB20. -/
theorem test_rbAdvanceRead_range : trap gappedFifo .cons (.rbAdvanceRead 7) = some (.fatal, ⟨0x31#8, 7#32⟩) := by decide

/-- V-RB27. -/
theorem test_rbSyncW2c : (after { running 2048#32 with ring := ⟨true, 2048#32, [], 12, 0, 0, 0⟩ } .cons .rbSyncW2c).map
    (fun t => (t.ring.wc, t.ring.rp)) = some (12, 0) := by decide

/-- V-RB25, V-RB23. -/
theorem test_rbDestroy : (after fullFifo .host .rbDestroy).map State.ring = some ⟨false, 0#32, [], 0, 0, 0, 0⟩ ∧
    trap State.reset .cons .rbFillCount = some (.fatal, ⟨0x37#8, 0x08#32⟩) := by decide

/-! ## The capture producer (2.3) -/

/-- V-CP3, V-CP1. -/
theorem test_cpInvoke : (after (running 16#32) .host (.cpInvoke 2 3)).map State.cp = some ⟨.check, 2, 3, 0, 0⟩ ∧
    trap (running 16#32) .host (.cpInvoke 3 2) = some (.fatal, ⟨0x38#8, 0x20#32⟩) := by decide

/-- V-CP21. -/
theorem test_cpInvoke_stopping : result (inLoop .stopping) .host (.cpInvoke 0 1) = some .noStep ∧
    (after (inLoop .stopping) .host (.cpInvoke 0 1)).map State.cp = some ⟨.idle, 0, 0, 0, 0⟩ := by decide

/-- V-CP3, V-CP2. -/
theorem test_cpCheck : (after { running 16#32 with cp := ⟨.check, 2, 3, 0, 0⟩ } .prod .cpCheck).map State.cp =
      some ⟨.reading, 2, 3, 3, 0⟩ ∧
    (after { running 16#32 with cp := ⟨.check, 0, 0, 7, 7⟩ } .prod .cpCheck).map State.cp = some ⟨.commit, 0, 0, 0, 0⟩ := by
  decide

/-- V-CP8: W stays 12 and CP_STATE stays CHECK. -/
theorem test_cpCheck_overflow : (after
      { running 16#32 with ring := ⟨true, 16#32, [], 12, 0, 0, 0⟩, cp := ⟨.check, 2, 2, 3, 3⟩ } .prod .cpCheck).map
    (fun t => (t.phase, t.err, t.ring.w, t.cp.state)) = some (.fatal, ⟨0x10#8, 1#32⟩, 12, .check) := by decide

/-- V-CP6, the hole; V-CP5. -/
theorem test_cpSubreadHole : (after reading .prod (.cpSubreadHole 1)).map (fun t => (t.ring.cells, t.cp)) =
      some ([(0, 0#8), (1, 0#8), (2, 0#8), (3, 0#8)], ⟨.reading, 2, 3, 3, 1⟩) ∧
    trap reading .prod (.cpSubreadHole 4) = some (.fatal, ⟨0x38#8, 4#32⟩) := by decide

/-- V-CP6, the areas: bytes in positions 4..11, and COMMIT. -/
theorem test_cpSubreadAreas : (after
      { reading with
        cp := ⟨.reading, 2, 3, 3, 1⟩
        env := { reading.env with srcMem := [(0x1000, 1#8), (0x1001, 2#8), (0x1002, 3#8), (0x1003, 4#8),
          (0x2000, 5#8), (0x2001, 6#8), (0x2002, 7#8), (0x2003, 8#8)] } }
      .prod (.cpSubreadAreas 2 0x1000 2 0x2000 2)).map (fun t => (t.ring.cells, t.cp)) =
    some ([(4, 1#8), (5, 2#8), (6, 5#8), (7, 6#8), (8, 3#8), (9, 4#8), (10, 7#8), (11, 8#8)],
      ⟨.commit, 2, 3, 3, 3⟩) := by decide

/-- V-CP10, its last frame: the stores wrap from cell 15 to cell 0. -/
theorem test_cpSubreadAreas_wraps : (after
      { running 16#32 with
        ring := ⟨true, 16#32, [], 14, 8, 8, 8⟩
        cp := ⟨.reading, 1, 1, 1, 0⟩
        env := { State.reset.env with srcMem := [(0x10, 0x40#8), (0x11, 0x41#8), (0x12, 0x42#8), (0x13, 0x43#8)] } }
      .prod (.cpSubreadAreas 1 0x10 4 0x12 4)).map (fun t => t.ring.cells) =
    some [(0, 0x42#8), (1, 0x43#8), (14, 0x40#8), (15, 0x41#8)] := by decide

/-- V-CP13. -/
theorem test_cpSubreadErr : trap reading .prod (.cpSubreadErr 5#32) = some (.fatal, ⟨0x11#8, 5#32⟩) := by decide

/-- V-CP7. -/
theorem test_cpCommit : (after committing .prod .cpCommit).map (fun t => (t.ring.w, t.ring.wc, t.cp.state)) =
    some (12, 0, .idle) := by decide

/-- V-CP16, V-CP17. -/
theorem test_cpOvfNotify : (after (running 16#32) .host .cpOvfNotify).map (fun t => (t.ovfCount, t.reportLog)) =
      some (1#32, [.ovf 1#32]) ∧
    (after { running 16#32 with ovfCount := 0xFFFFFFFF#32 } .host .cpOvfNotify).map
      (fun t => (t.ovfCount, t.reportLog)) = some (0#32, [.ovf 0#32]) := by decide

/-! ## The format negotiator (1, 2.1) -/

/-- S1, V-FN2. -/
theorem test_fnRateCode : result State.reset .host (.fnRateCode 44100#32) = some (.fnByte (.ok 0x81#8)) ∧
    result State.reset .host (.fnRateCode 5600700#32) = some (.fnByte (.ok 0xFF#8)) := by decide

/-- V-FN7, V-FN10. -/
theorem test_fnRateCode_err :
    result State.reset .host (.fnRateCode 6144000#32) = some (.fnByte (.err ⟨.negRate, 6144000#32⟩)) ∧
    result State.reset .host (.fnRateCode 7056000#32) = some (.fnByte (.err ⟨.negRate, 7056000#32⟩)) := by decide

/-- V-FN12, V-FN13. -/
theorem test_fnBitDepth : result State.reset .host (.fnBitDepth 4#8) = some (.fnByte (.ok 32#8)) ∧
    result State.reset .host (.fnBitDepth 255#8) = some (.fnByte (.err ⟨.negDepth, 255#32⟩)) := by decide

/-- S7, V-FN16. -/
theorem test_fnBuildHeader : result State.reset .host (.fnBuildHeader 44100#32 2#8) =
      some (.fnHeader (.ok ⟨0x81#8, 0x10#8, 0x02#8, 0x00#8, 0x03#8⟩)) ∧
    result State.reset .host (.fnBuildHeader 32000#32 5#8) = some (.fnHeader (.err ⟨.negRate, 32000#32⟩)) := by decide

/-- S4, V-FN19. -/
theorem test_fnDecodeRate : result State.reset .host (.fnDecodeRate 0x82#8) = some (.fnRate (.ok 88200)) ∧
    result State.reset .host (.fnDecodeRate 0x7F#8) = some (.fnRate (.ok 6096000)) := by decide

/-- The result of a wire turn. -/
def wireResult (b : Byte) : Option Result :=
  match step { State.reset with env := { State.reset.env with schedule := [.wire b] } } with
  | .next t => t.trace.getLast?.map TraceEntry.result
  | .refused _ => none

/-- V-FN19: byte 0xFF on the wire is 5600700 Hz. -/
theorem test_rate44k1 : wireResult 0xFF#8 = some (.fnRate (.ok 5600700)) := by decide

/-- S5: byte 0x01 on the wire is 48000 Hz. -/
theorem test_rate48k : wireResult 0x01#8 = some (.fnRate (.ok 48000)) := by decide

/-! ## The packetizer (2.4) -/

/-- V-PK1, V-PK2. -/
theorem test_pkTop : (after (running 16#32) .cons .pkTop).map (fun t => t.pk.state) = some .poll ∧
    (after { running 16#32 with cancel := true } .cons .pkTop).map (fun t => t.pk.state) = some .stopping := by decide

/-- Program P1, line 6. -/
theorem test_pkPoll : (after (inLoop .poll) .cons .pkPoll).map (fun t => t.pk.state) = some .drain := by decide

/-- V-PK3, and a drain of two bytes that stays short of a packet: they move in order and are released. -/
theorem test_pkDrain : (after (inLoop .drain) .cons .pkDrain).map State.pk = some ⟨.wait, [], 0⟩ ∧
    (after { inLoop .drain with ring := ⟨true, 16#32, [(0, 7#8), (15, 6#8)], 17, 15, 4, 17⟩ } .cons .pkDrain).map
      (fun t => (t.pk, t.ring.cells, t.ring.r)) = some (⟨.wait, [(0, 6#8), (1, 7#8)], 2⟩, [], 17) := by decide

/-- Program P5, line 11. -/
theorem test_pkWait : (after (inLoop .wait) .cons .pkWait).map (fun t => t.pk.state) = some .poll := by decide

/-- V-PK7: the count empties, PK_STATE is TOP, and the datagram's header is the configured one. -/
theorem test_pkSend : (after (inLoop .send) .cons (.pkSend 1157#32)).map
      (fun t => (t.pk.filled, t.pk.state, t.txLog.map fun e => (e.sent, e.bytes.take 5))) =
    some (0, .top, [(1157#32, [0x81#8, 0x10#8, 0x02#8, 0x00#8, 0x03#8])]) := by decide

/-- V-PK8. -/
theorem test_pkSend_short : (after (inLoop .send) .cons (.pkSend 1156#32)).map
    (fun t => (t.phase, t.err, t.pk.state, t.txLog.map TxEntry.sent)) =
      some (.fatal, ⟨0x21#8, 1156#32⟩, .send, [1156#32]) := by decide

/-- V-PK12. -/
theorem test_pkStop : (after { inLoop .stopping with cancel := true } .cons .pkStop).map
      (fun t => (t.ring, t.socket.isOpen, t.phase, t.pk.state)) =
      some (⟨false, 0#32, [], 0, 0, 0, 0⟩, false, .stopped, .done) ∧
    (after { inLoop .stopping with cancel := true } .cons .pkStop).map (fun t => (t.reportLog, t.exit)) =
      some ([.stop], some 0) := by decide

/-- V-PK11: it holds; it is CONS's next operation again and TRACE has no entry. -/
theorem test_pkStop_holds : (after { inLoop .stopping with cp := ⟨.reading, 1, 1, 1, 0⟩ } .cons .pkStop).map
    (fun t => (t.phase, t.pk.state, t.env.pending.cons, t.trace)) =
      some (.running, .stopping, [⟨0x65#8, []⟩], []) := by decide

/-! ## Control (2.5) -/

/-- V-CTL17. -/
theorem test_ctlReset : (after { dead with reportLog := [.fatal 0x10#8 1#32] } .host .ctlReset).map
    (fun t => (t.phase, t.err, t.exit, t.reportLog)) =
      some (.config, ⟨0x00#8, 0#32⟩, none, [.fatal 0x10#8 1#32]) := by decide

/-- CTL_RESET by PROD: in STOPPED it raises OWNERSHIP (R264, R268, R271); in FATAL it has no step and the first error is
kept (R265). -/
theorem test_ctlReset_foreign :
    (after ended .prod .ctlReset).map (fun t => (t.phase, t.err)) = some (.fatal, ⟨0x35#8, 0x80#32⟩) ∧
    (after dead .prod .ctlReset).map (fun t => (t.phase, t.err, t.trace.map TraceEntry.result)) =
      some (.fatal, ⟨0x10#8, 1#32⟩, [.noStep]) := by decide

/-- V-CTL4. -/
theorem test_ctlConfigure : (after State.reset .host (.ctlConfigure true 48000#32 3#8 0#32 true)).map
    (fun t => (t.phase, t.fmt, t.ring.cap, t.ring.present)) =
      some (.ready, ⟨48000#32, 3#8, 6#8, ⟨0x01#8, 0x18#8, 0x02#8, 0x00#8, 0x03#8⟩⟩, 8640000#32, true) := by decide

/-- V-CTL6, V-EX6: the nominal capacity, and no configuration written. -/
theorem test_ctlConfigure_raises : (after State.reset .host (.ctlConfigure true 44100#32 2#8 0#32 false)).map
    (fun t => (t.phase, t.err, t.fmt, t.ring.present)) =
      some (.fatal, ⟨0x04#8, 5292000#32⟩, State.reset.fmt, false) := by decide

/-- V-CTL9, V-CTL8. -/
theorem test_ctlSocketOpen : (after State.reset .host (.ctlSocketOpen true 9 5000#16)).map State.socket =
      some ⟨9, 5000#16, true⟩ ∧
    trap State.reset .host (.ctlSocketOpen false 9 5000#16) = some (.fatal, ⟨0x20#8, 0#32⟩) := by decide

/-- V-CTL10, and the start of RUNNING. -/
theorem test_ctlStart : trap (ready 2048#32) .host (.ctlStart true) = some (.fatal, ⟨0x37#8, 0x83#32⟩) ∧
    (after { ready 2048#32 with socket := ⟨9, 4010#16, true⟩ } .host (.ctlStart true)).map
      (fun t => (t.phase, t.pk.state)) = some (.running, .top) := by decide

/-- V-CTL14, V-CTL13. -/
theorem test_ctlCancel : (after State.reset .sig .ctlCancel).map State.cancel = some true ∧
    trap State.reset .host .ctlCancel = some (.fatal, ⟨0x35#8, 0x84#32⟩) := by decide

/-- V-CTL15, V-CTL1. -/
theorem test_ctlCsrRead : result (running 5292000#32) .prod (.ctlCsrRead 0x00#8) = some (.word 0x00000132#32) ∧
    result (running 5292000#32) .host (.ctlCsrRead 0x07#8) = some (.word 0x00021081#32) := by decide

/-- V-CTL1: the default port, and a reserved register. -/
theorem test_ctlCsrRead_port : result State.reset .sig (.ctlCsrRead 0x0B#8) = some (.word 4010#32) ∧
    result State.reset .cons (.ctlCsrRead 0x11#8) = some (.word 0#32) := by decide

/-! ## Checks and exceptions (2.6) -/

/-- An agent issues a transaction. -/
def issued (s : State) (a : Agent) (t : Txn) : Option (Phase × ErrRegs) :=
  match step (issueNext s a t) with
  | .next u => some (u.phase, u.err)
  | .refused _ => none

/-- V-EX1, V-EX2, V-EX3. -/
theorem test_reserved_codes : issued State.reset .sig ⟨0x0D#8, []⟩ = some (.fatal, ⟨0x36#8, 0x0D#32⟩) ∧
    issued (running 16#32) .prod ⟨0xFF#8, []⟩ = some (.fatal, ⟨0x36#8, 0xFF#32⟩) ∧
    issued dead .prod ⟨0xFF#8, []⟩ = some (.fatal, ⟨0x10#8, 1#32⟩) := by decide

/-- V-EX4: ownership before the guard; V-RB26: the guard. -/
theorem test_check_order : trap (running 16#32) .cons (.rbStore 0 1#8) = some (.fatal, ⟨0x35#8, 0x04#32⟩) ∧
    trap (running 16#32) .prod (.rbStore 0 1#8) = some (.fatal, ⟨0x37#8, 0x04#32⟩) := by decide

/-- V-EX5: no step in FATAL, and the first error is kept. -/
theorem test_dead_phase : result dead .host .cpOvfNotify = some .noStep ∧
    trap dead .host .cpOvfNotify = some (.fatal, ⟨0x10#8, 1#32⟩) := by decide

/-- A record that is none of its code is refused (log 12). -/
theorem test_transcriber_error : issued State.reset .host ⟨0x00#8, []⟩ = none := by decide

/-! ## Scripts (30_encoding.md R97, R98) -/

/-- Program P5, line 5; program P1, line 9. -/
theorem test_script_lines : parseLine "PK_TOP @CONS" = .operation .cons ⟨0x60#8, []⟩ ∧
    parseLine "CP_SUBREAD_AREAS k=288, p0=0x1000, s0=4, p1=0x1002, s1=4 @PROD ; the frames" = .operation .prod
      ⟨0x23#8, [⟨.k, 288⟩, ⟨.p0, 0x1000⟩, ⟨.s0, 4⟩, ⟨.p1, 0x1002⟩, ⟨.s1, 4⟩]⟩ := by decide

/-- Program P3, line 5: RB_POP 3. -/
theorem test_rbPop : rbPop 3 = [(.cons, ⟨0x09#8, [⟨.k, 0⟩]⟩), (.cons, ⟨0x09#8, [⟨.k, 1⟩]⟩),
    (.cons, ⟨0x09#8, [⟨.k, 2⟩]⟩), (.cons, ⟨0x0A#8, [⟨.n, 3⟩]⟩)] := by decide

/-- The defaults of R97: `port` 4010, `ok` 1. -/
theorem test_script_defaults : parseLine "CTL_SOCKET_OPEN addr=9 @HOST" =
    .operation .host ⟨0x82#8, [⟨.ok, 1⟩, ⟨.addr, 9⟩, ⟨.port, 4010⟩]⟩ := by decide

/-- CP_COMMIT with a PK_STOP held before it (20_memory.md R79): `committing` with CONS in STOPPING and turns for the held
PK_STOP, the CP_COMMIT and the PK_STOP again. -/
def stoppingAtCommit : State :=
  loadProgram [op .cons .pkStop, op .prod .cpCommit] { committing with
    cancel := true
    pk := ⟨.stopping, [], 0⟩
    env := { committing.env with schedule := [.agent .cons] } }

/-- The oracle's copy is the third step: `WC = W`, and the PK_STOP is still held. -/
theorem test_oracle_copies_first : (match underOracle 3 stoppingAtCommit with
    | .next t => (t.ring.w, t.ring.wc, decide (t.phase = .running), (pendingOf t.env.pending .cons).length)
    | .refused _ => (0, 0, false, 0)) = (12, 12, true, 1) := by decide

/-- Then the PK_STOP runs. -/
theorem test_oracle_stops_after : (match underOracle 4 stoppingAtCommit with
    | .next t => (decide (t.phase = .stopped), (pendingOf t.env.pending .cons).length)
    | .refused _ => (false, 1)) = (true, 0) := by decide

/-! ## The memories after power-on -/

theorem test_reset_memories : Memory.wf .ring State.reset.ring.cells ∧ Memory.wf .paybuf State.reset.pk.paybuf ∧
    Memory.wf .srcMem State.reset.env.srcMem := by decide

/-- The host's word runs as the first instruction after reset. -/
theorem test_withFetchWord : step (State.reset.withFetchWord 8 0x01) =
    exec .rbCapacity { State.reset with env := { State.reset.env with issuer := .host } } := rfl

/-! ## Witnesses for the obligations: concrete states and operands that meet their hypotheses

Each obligation of the list has one theorem here, for each of its clauses at a boundary of its range. The clauses of
`ChecksFirst` (a dead phase; another agent; the owner with the guard unmet) share theirs. -/

/-- A state with an issuer. -/
def issuedBy (a : Agent) (s : State) : State := { s with env := { s.env with issuer := a } }

theorem witness_DecodeOfEncode : (Instr.rate44k1 1#7).wellFormed = true ∧ (Instr.rate48k 127#7).wellFormed = true ∧
    (Instr.ctlConfigure true 0xFFFFFFFF#32 255#8 0#32 false).wellFormed = true := by decide

theorem witness_EncodeOfDecode : decode (.txn ⟨0x05#8, [⟨.n, 7⟩]⟩) = .ok (.rbAdvanceWrite 7) ∧
    decode (.wire 0x80#8) = .ok (.rate44k1 0#7) := by decide

theorem witness_ReservedCodesRaise : operandFields 0x0D#8 = none ∧ operandFields 0xFF#8 = none ∧
    Alive State.reset ∧ ¬ Alive dead := by decide

theorem witness_StepRunsTheDecodedInstruction :
    (issueNext fifo .prod ⟨0x05#8, [⟨.n, 6⟩]⟩).env.schedule = [.agent .prod] ∧
    pendingOf (issueNext fifo .prod ⟨0x05#8, [⟨.n, 6⟩]⟩).env.pending .prod = [⟨0x05#8, [⟨.n, 6⟩]⟩] ∧
    decode (.txn ⟨0x05#8, [⟨.n, 6⟩]⟩) = .ok (.rbAdvanceWrite 6) ∧
    decode (.txn ⟨0x05#8, []⟩) = .error (.missingOperand .n) ∧ operandFields 0x05#8 ≠ none ∧
    pendingOf fifo.env.pending .sig = [] ∧ (withSchedule fifo [.wire 0x81#8]).env.schedule = [.wire 0x81#8] ∧
    (withSchedule fifo [.srcWrite 9 1#8]).env.schedule = [.srcWrite 9 1#8] ∧ Memory.wf .srcMem fifo.env.srcMem ∧
    fifo.env.schedule = [] := by decide

theorem witness_IssuedOperationRuns : decode (.txn ⟨0x65#8, []⟩) = .ok .pkStop ∧
    decodeTableWord 8 0x85 = some (.ctlCsrRead 0#8) ∧ decodeTableWord 8 0x86 = some (.rate44k1 6#7) := by decide

/-- The third clause of `ChecksFirst`: each guard is unmet somewhere in a live phase. FN operations and CTL_CANCEL have no
guard, so for them that clause says nothing. -/
theorem witness_guards_unmet : Alive State.reset ∧ ¬ Standalone State.reset ∧ ¬ Syncable State.reset ∧
    ¬ CpIn .idle State.reset ∧ ¬ CpIn .check (running 16#32) ∧ ¬ CpIn .reading (running 16#32) ∧
    ¬ CpIn .commit (running 16#32) ∧ ¬ PkIn .top State.reset ∧ ¬ PkIn .poll (running 16#32) ∧
    ¬ PkIn .drain (running 16#32) ∧ ¬ PkIn .wait (running 16#32) ∧ ¬ PkIn .send (running 16#32) ∧
    ¬ PkIn .stopping (running 16#32) ∧ fifo.phase = .config ∧ fifo.ring.present ≠ false ∧
    State.reset.phase ≠ .running ∧ Alive (running 16#32) ∧ (running 16#32).socket.isOpen ≠ false ∧
    (ready 16#32).socket.isOpen ≠ true := by decide

/-- The first two clauses of `ChecksFirst`: a dead phase; an agent that is no owner (for RB_CAPACITY and CTL_CSR_READ
every agent is one). -/
theorem witness_checks_first : ¬ Alive dead ∧ (issuedBy .sig State.reset).env.issuer ∉ [Agent.prod] ∧
    (issuedBy .sig State.reset).env.issuer ∉ [Agent.cons] ∧ (issuedBy .sig State.reset).env.issuer ∉ [Agent.host] ∧
    (issuedBy .host State.reset).env.issuer ∉ [Agent.sig] := by decide

theorem witness_RbCreateMakesAnEmptyRing : State.reset.env.issuer = .host ∧ State.reset.phase = .config ∧
    State.reset.ring.present = false ∧ 1#32 ≠ 0#32 := by decide

theorem witness_RbQueriesReturnTheCounts : Standalone fullFifo ∧ RingInv fullFifo.ring ∧ Standalone gappedFifo ∧
    RingInv gappedFifo.ring ∧ (issuedBy .prod fullFifo).env.issuer = .prod ∧ (issuedBy .cons fullFifo).env.issuer = .cons := by
  decide

theorem witness_RbStoreWritesOneCell : (issuedBy .prod fifo).env.issuer = .prod ∧ Standalone (issuedBy .prod fifo) ∧
    RingInv (issuedBy .prod fifo).ring ∧ 5 < (issuedBy .prod fifo).ring.cap.toNat - (fifo.ring.w - fifo.ring.rp) ∧
    (issuedBy .prod fifo).ring.cap.toNat - (fifo.ring.w - fifo.ring.rp) ≤ 6 := by decide

theorem witness_RbAdvanceWriteMovesW : Standalone (issuedBy .prod fifo) ∧ RingInv (issuedBy .prod fifo).ring ∧
    6 ≤ fifo.ring.cap.toNat - (fifo.ring.w - fifo.ring.rp) ∧
    fifo.ring.cap.toNat - (fifo.ring.w - fifo.ring.rp) < 7 := by decide

theorem witness_RbLoadReturnsTheByte : Standalone (issuedBy .cons gappedFifo) ∧ RingInv gappedFifo.ring ∧
    1 < gappedFifo.ring.wc - gappedFifo.ring.r ∧
    gappedFifo.ring.at ((gappedFifo.ring.r + 1) % gappedFifo.ring.cap.toNat) = some 0xA5#8 ∧
    2 < gappedFifo.ring.wc - gappedFifo.ring.r ∧
    gappedFifo.ring.at ((gappedFifo.ring.r + 2) % gappedFifo.ring.cap.toNat) = none ∧
    gappedFifo.ring.wc - gappedFifo.ring.r ≤ 6 := by decide

theorem witness_RbAdvanceReadReleases : Standalone (issuedBy .cons gappedFifo) ∧ RingInv gappedFifo.ring ∧
    Memory.wf .ring gappedFifo.ring.cells ∧ 6 ≤ gappedFifo.ring.wc - gappedFifo.ring.r ∧
    gappedFifo.ring.wc - gappedFifo.ring.r < 7 := by decide

theorem witness_RbSyncsCopyTheCursors : Syncable (issuedBy .prod fifo) ∧ Syncable (issuedBy .cons (ready 16#32)) ∧
    Syncable (running 16#32) ∧ (issuedBy .prod fifo).env.issuer = .prod ∧ (issuedBy .cons (ready 16#32)).env.issuer = .cons := by
  decide

theorem witness_RbDestroyReleasesTheRing : fullFifo.env.issuer = .host ∧ Standalone fullFifo := by decide

theorem witness_CpInvokeStartsAnInvocation : (running 16#32).env.issuer = .host ∧ CpIn .idle (running 16#32) ∧
    (running 16#32).pk.state ≠ .stopping ∧ (running 16#32).pk.state ≠ .done ∧ CpIn .idle (inLoop .stopping) ∧
    (inLoop .stopping).pk.state = .stopping := by decide

theorem witness_CpCheckChoosesTheWriteSize : CpIn .check { issuedBy .prod (running 16#32) with cp := ⟨.check, 4, 5, 0, 0⟩ } ∧
    RingInv (running 16#32).ring ∧ 1 ≤ (running 16#32).fmt.bpf.toNat ∧
    4 = ((running 16#32).ring.cap.toNat - ((running 16#32).ring.w - (running 16#32).ring.rp)) /
      (running 16#32).fmt.bpf.toNat ∧ CpIn .check { issuedBy .prod (running 16#32) with cp := ⟨.check, 5, 5, 0, 0⟩ } := by
  decide

theorem witness_CpSubreadHoleStoresSilence : (issuedBy .prod reading).env.issuer = .prod ∧
    CpIn .reading (issuedBy .prod reading) ∧ RingInv reading.ring ∧ reading.ring.present = true ∧
    reading.cp.done ≤ reading.cp.wf ∧ reading.cp.wf - reading.cp.done < 4 ∧ 3 ≤ reading.cp.wf - reading.cp.done ∧
    reading.cp.wf * reading.fmt.bpf.toNat ≤ reading.ring.cap.toNat - (reading.ring.w - reading.ring.rp) := by decide

theorem witness_CpSubreadAreasInterleaves : CpIn .reading (issuedBy .prod reading) ∧ RingInv reading.ring ∧
    reading.ring.present = true ∧ reading.cp.done ≤ reading.cp.wf ∧ 3 ≤ reading.cp.wf - reading.cp.done ∧
    reading.cp.wf - reading.cp.done < 4 ∧ reading.fmt.bpf.toNat = 2 * reading.fmt.bps.toNat ∧
    reading.cp.wf * reading.fmt.bpf.toNat ≤ reading.ring.cap.toNat - (reading.ring.w - reading.ring.rp) := by decide

theorem witness_CpSubreadErrRaises : (issuedBy .prod reading).env.issuer = .prod ∧
    CpIn .reading (issuedBy .prod reading) := by decide

theorem witness_CpCommitAdvancesOnce : CpIn .commit (issuedBy .prod committing) ∧ RingInv committing.ring ∧
    committing.cp.wf * committing.fmt.bpf.toNat ≤
      committing.ring.cap.toNat - (committing.ring.w - committing.ring.rp) := by decide

theorem witness_CpOvfNotifyCounts : (running 16#32).env.issuer = .host ∧ (running 16#32).phase = .running := by decide

theorem witness_FnOperationsReturn : State.reset.env.issuer = .host ∧ Alive State.reset ∧ Alive (running 16#32) ∧
    rateCode 5600700#32 = .ok 0xFF#8 ∧ rateCode 6096000#32 = .ok 0x7F#8 ∧
    rateCode 7056000#32 = .err ⟨.negRate, 7056000#32⟩ ∧ bitDepth 1#8 = .ok 8#8 ∧ bitDepth 4#8 = .ok 32#8 ∧
    bitDepth 5#8 = .err ⟨.negDepth, 5#32⟩ ∧ bitDepth 0#8 = .err ⟨.negDepth, 0#32⟩ := by decide

theorem witness_WirePatternsAreRates : Alive State.reset ∧ ¬ Alive dead := by decide

theorem witness_RateCodesRoundTrip : rateCode 44100#32 = .ok 0x81#8 ∧ (0x7F#8 : Byte) ≠ 0x00#8 ∧
    (0x7F#8 : Byte) ≠ 0x80#8 ∧ 44100 * 160 = 48000 * 147 ∧ 7056000 ∣ (7056000#32 : Word).toNat := by decide

/-- No code represents 32000 Hz (S6). -/
theorem witness_RateCodesRoundTrip_none : ∀ c, rateCode 32000#32 ≠ .ok c := by
  intro c h
  rw [show rateCode 32000#32 = .err ⟨.negRate, 32000#32⟩ by decide] at h
  cases h

theorem witness_PkControlMoves : (issuedBy .cons (inLoop .top)).env.issuer = .cons ∧ PkIn .top (issuedBy .cons (inLoop .top)) ∧
    PkIn .poll (issuedBy .cons (inLoop .poll)) ∧ PkIn .wait (issuedBy .cons (inLoop .wait)) := by decide

/-- In DRAIN with two bytes stored from stream position 15 on, across the wrap, and a third committed without a store. -/
def draining : State := { inLoop .drain with ring := ⟨true, 16#32, [(0, 7#8), (15, 6#8)], 18, 15, 4, 17⟩ }

theorem witness_PkDrainMovesBytes : PkIn .drain (issuedBy .cons draining) ∧ RingInv draining.ring ∧
    Memory.wf .ring draining.ring.cells ∧ draining.pk.filled ≤ 1152 ∧
    2 = min (draining.ring.wc - draining.ring.r) (1152 - draining.pk.filled) ∧
    (∀ j < 2, draining.ring.at ((draining.ring.r + j) % draining.ring.cap.toNat) ≠ none) := by decide

/-- The same with the third position visible: it is empty, and the ones before it are not. -/
theorem witness_PkDrainMovesBytes_empty :
    RingInv { draining.ring with wc := 18 } ∧
    2 < min (({ draining.ring with wc := 18 } : Ring).wc - draining.ring.r) (1152 - draining.pk.filled) ∧
    draining.ring.at ((draining.ring.r + 2) % draining.ring.cap.toNat) = none ∧
    (∀ i < 2, draining.ring.at ((draining.ring.r + i) % draining.ring.cap.toNat) ≠ none) := by decide

theorem witness_PkSendEmitsTheDatagram : PkIn .send (issuedBy .cons sending) ∧ (issuedBy .cons sending).env.issuer = .cons :=
  ⟨⟨rfl, rfl⟩, rfl⟩

theorem witness_PkStopEndsTheRun : PkIn .stopping (issuedBy .cons (inLoop .stopping)) ∧
    (inLoop .stopping).cp.state = .idle ∧
    PkIn .stopping { issuedBy .cons (inLoop .stopping) with cp := ⟨.reading, 1, 1, 1, 0⟩ } := by decide

theorem witness_CtlResetRestoresTheBlock : Alive (running 16#32) ∧ (issuedBy .sig (running 16#32)).env.issuer ≠ .host ∧
    (issuedBy .prod ended).phase ≠ .fatal ∧ (issuedBy .prod ended).env.issuer ≠ .host ∧
    dead.env.issuer = .host := by decide

theorem witness_CtlConfigureNegotiates : State.reset.env.issuer = .host ∧ State.reset.phase = .config ∧
    State.reset.ring.present = false ∧ rateCode 32000#32 = .err ⟨.negRate, 32000#32⟩ ∧
    rateCode 6096000#32 = .ok 0x7F#8 ∧ bitDepth 5#8 = .err ⟨.negDepth, 5#32⟩ ∧ bitDepth 4#8 = .ok 32#8 := by decide

theorem witness_CtlSocketOpenSetsTheDestination : State.reset.env.issuer = .host ∧ State.reset.phase = .config ∧
    (ready 16#32).phase = .ready ∧ State.reset.socket.isOpen = false ∧ (ready 16#32).socket.isOpen = false := by decide

theorem witness_CtlStartRuns : (ready 16#32).env.issuer = .host ∧ (ready 16#32).phase = .ready ∧
    ({ ready 16#32 with socket := ⟨9, 4010#16, true⟩ } : State).socket.isOpen = true := by decide

theorem witness_CtlCancelSetsTheFlag : (issuedBy .sig State.reset).env.issuer = .sig ∧ Alive (issuedBy .sig State.reset) ∧
    Alive (issuedBy .sig (ready 16#32)) ∧ Alive (issuedBy .sig (running 16#32)) := by decide

/-- The register numbers of the clauses are different ones, and 0x11 is the first reserved one. -/
theorem witness_CtlCsrReadReturnsTheRegister : (0x10#8 : Byte).toNat < 0x11 ∧ 0x11 ≤ (0x11#8 : Byte).toNat ∧
    0x11 ≤ (0xFF#8 : Byte).toNat ∧ sending.pk.filled ≤ 1152 := ⟨by decide, by decide, by decide, le_rfl⟩

theorem witness_OwnersOfOperations : Instr.isWire .rbCapacity = false ∧ Instr.isWire .ctlReset = false ∧
    Alive (issuedBy .sig State.reset) ∧ ¬ Owned .ctlReset (issuedBy .sig State.reset) ∧
    (issuedBy .prod ended).phase = .stopped ∧ ¬ Owned .ctlReset (issuedBy .prod ended) := by decide

theorem witness_PowerOnAndResetValues : dead.env.issuer = .host ∧ (ready 16#32).env.issuer = .host := by decide

theorem witness_DeadPhasesHaveNoSteps : dead.phase = .fatal ∧ ({ dead with phase := .stopped } : State).phase = .stopped ∧
    Instr.isWire .pkTop = false ∧ Instr.pkTop ≠ .ctlReset ∧ dead.env.issuer = .host ∧ operandFields 0xA0#8 = none := by
  decide

/-- A next state of an instruction: every instruction gives one. -/
theorem witness_next (i : Instr) (s : State) : ∃ t, exec i s = .next t := by cases i <;> exact ⟨_, rfl⟩

theorem witness_OnlyResetLeavesFatal : dead.phase = .fatal ∧ ∃ t, exec .ctlReset dead = .next t :=
  ⟨rfl, witness_next _ _⟩

/-- V-RB24 and V-PK8: the two shapes of a trap. -/
theorem witness_TrapsArePrecise : State.reset.phase ≠ .fatal ∧
    (∃ t, exec (.rbCreate 0#32) State.reset = .next t ∧ t.phase = .fatal ∧ t.err.code = 0x04#8) ∧
    ∃ t, exec (.pkSend 0#32) (issuedBy .cons (inLoop .send)) = .next t ∧ t.phase = .fatal ∧ t.txLog.length = 1 :=
  ⟨by decide, ⟨_, rfl, by decide, by decide⟩, _, rfl, by decide, by decide⟩

theorem witness_FlagWriters : (∃ t, exec .ctlCancel (issuedBy .sig State.reset) = .next t ∧ t.cancel = true) ∧
    Instr.cpOvfNotify ≠ .pkTop ∧ ∃ t, exec .cpOvfNotify (running 16#32) = .next t ∧ t.ovfCount = 1#32 :=
  ⟨⟨_, rfl, by decide⟩, by decide, _, rfl, by decide⟩

/-- Power-on with a ring of one byte to be created and a byte to be committed. -/
def toFill : State := loadProgram [(.host, recordOf (.rbCreate 1#32)), (.prod, recordOf (.rbAdvanceWrite 1))] State.reset

theorem toFill_reachable : Reachable toFill :=
  .env State.reset toFill .reset ⟨toFill.env.schedule, toFill.env.pending, [], by decide, rfl⟩

/-- A reachable state with an empty ring, and one with a full ring. -/
theorem witness_CountsOfTheRing :
    (∃ s, Reachable s ∧ s.ring.present = true ∧ s.ring.fill < s.ring.capacity) ∧
    ∃ s, Reachable s ∧ s.ring.present = true ∧ s.ring.fill = s.ring.capacity :=
  ⟨⟨_, .step toFill _ toFill_reachable rfl, by decide, by decide⟩,
    _, .step _ _ (.step toFill _ toFill_reachable rfl) rfl, by decide, by decide⟩

theorem witness_EmptyAndFullAreDistinct : Standalone fullFifo ∧ RingInv fullFifo.ring ∧
    fullFifo.ring.w - fullFifo.ring.r = fullFifo.ring.capacity ∧ (issuedBy .prod fullFifo).env.issuer = .prod ∧
    Standalone fifo ∧ fifo.ring.w = fifo.ring.r ∧ (issuedBy .cons fifo).env.issuer = .cons := by decide

theorem witness_FiniteCursorsSuffice : RingInv gappedFifo.ring ∧ gappedFifo.ring.present = true ∧
    gappedFifo.ring.capacity < 7 ∧ gappedFifo.ring.capacity ∣ 12 := by decide

/-- The invariants hold of an invocation in READING and of one in COMMIT. -/
theorem witness_inv_reading : Inv (issuedBy .prod reading) :=
  ⟨by decide, by decide, by decide, by decide, by decide, by decide, by decide, by decide, by decide⟩

theorem witness_inv_committing : Inv (issuedBy .prod committing) :=
  ⟨by decide, by decide, by decide, by decide, by decide, by decide, by decide, by decide, by decide⟩

theorem witness_inv_draining : Inv (issuedBy .cons (inLoop .drain)) :=
  ⟨by decide, by decide, by decide, by decide, by decide, by decide, by decide, by decide, by decide⟩

theorem witness_inv_ready : Inv (ready 16#32) :=
  ⟨by decide, by decide, by decide, by decide, by decide, by decide, by decide, by decide, by decide⟩

theorem zeroPayload_wf (n : Nat) : Memory.wf .paybuf (zeroPayload n) := by
  rw [zeroPayload]
  exact putPayload_wf (wf_nil _)

theorem zeroPayload_below (n : Nat) : Memory.below n (zeroPayload n) := by
  rw [zeroPayload]
  exact putPayload_below (below_nil _) (by simp)

theorem zeroPayload_isSome {n j : Nat} (h : j < n) : (readMem .paybuf (zeroPayload n) j).isSome = true := by
  rw [zeroPayload, readMem_putPayload, if_pos ⟨Nat.zero_le _, by simpa using h⟩,
    List.getElem?_eq_getElem (by simpa using h)]
  rfl

/-- They hold of a full packet in SEND. -/
theorem witness_inv_sending : Inv (issuedBy .cons sending) where
  mem := ⟨by decide, by decide, zeroPayload_wf 1152, zeroPayload_below 1152, by decide⟩
  ring := by decide
  trap := by decide
  lifecycle := ⟨nofun, nofun, fun _ => ⟨rfl, rfl, nofun, nofun⟩, nofun⟩
  config := by decide
  cp := by decide
  pk := ⟨nofun, nofun, fun _ => rfl, fun _ h => zeroPayload_isSome h⟩
  stored := fun _ => ⟨by decide, by decide⟩
  logs := fun _ h => nomatch h

theorem witness_StepKeepsInvariants : Inv (issueNext reading .prod ⟨0x22#8, [⟨.k, 3⟩]⟩) ∧
    ∃ t, step (issueNext reading .prod ⟨0x22#8, [⟨.k, 3⟩]⟩) = .next t ∧ t.cp.state = .commit :=
  ⟨⟨by decide, by decide, by decide, by decide, by decide, by decide, by decide, by decide, by decide⟩, _, rfl,
    by decide⟩

theorem witness_ReachableStatesHaveInvariants : Reachable State.reset := .reset

theorem witness_ConfigurationIsImmutable : Inv (ready 16#32) ∧ (ready 16#32).phase = .ready ∧
    (sending.socket.isOpen = true) ∧ Inv (issuedBy .cons sending) ∧ ∃ t, exec (.ctlStart true) (ready 16#32) = .next t :=
  ⟨witness_inv_ready, rfl, rfl, witness_inv_sending, witness_next _ _⟩

theorem witness_NoInnerFault : Inv (issuedBy .prod reading) ∧ CpIn .reading (issuedBy .prod reading) ∧
    1 ≤ 3 ∧ 3 ≤ reading.cp.wf - reading.cp.done ∧ Inv (issuedBy .prod committing) ∧ CpIn .commit (issuedBy .prod committing) ∧
    Inv (issuedBy .cons (inLoop .drain)) ∧ PkIn .drain (issuedBy .cons (inLoop .drain)) :=
  ⟨witness_inv_reading, by decide, by decide, by decide, witness_inv_committing, by decide, witness_inv_draining,
    by decide⟩

theorem witness_StreamIsAQueue : Inv (issuedBy .prod committing) ∧ Alive (issuedBy .prod committing) ∧
    ∃ t, exec .cpCommit (issuedBy .prod committing) = .next t ∧ t.phase ≠ .fatal ∧ t.pipeline.length = 12 :=
  ⟨witness_inv_committing, by decide, _, rfl, by decide, by decide⟩

theorem witness_CancellationStopsTheLoop : Inv { issuedBy .cons (inLoop .drain) with cancel := true } ∧
    (inLoop .drain).pk.state ∈ [PkState.poll, .drain, .wait, .send] ∧
    (inLoop .top).pk.state ∈ [PkState.off, .top, .stopping, .done] ∧
    ∃ t, exec .pkDrain { issuedBy .cons (inLoop .drain) with cancel := true } = .next t :=
  ⟨⟨by decide, by decide, by decide, by decide, by decide, by decide, by decide, by decide, by decide⟩, by decide,
    by decide, witness_next _ _⟩

theorem witness_DatagramsCarryTheHeader : Inv (issuedBy .cons sending) ∧ PkIn .send (issuedBy .cons sending) ∧
    (issuedBy .cons sending).env.issuer = .cons ∧ ∃ t, exec (.pkSend 1157#32) (issuedBy .cons sending) = .next t :=
  ⟨witness_inv_sending, ⟨rfl, rfl⟩, rfl, witness_next _ _⟩

theorem witness_OnlyStopHolds : PkIn .stopping { issuedBy .cons (inLoop .stopping) with cp := ⟨.check, 0, 0, 0, 0⟩ } ∧
    ({ inLoop .stopping with cp := ⟨.check, 0, 0, 0, 0⟩ } : State).cp.state ≠ .idle := by decide

theorem witness_FrameOfRing : Alive (issuedBy .prod fifo) ∧
    (∃ t, exec (.rbStore 5 1#8) (issuedBy .prod fifo) = .next t ∧ t.phase = .config) ∧
    ∃ t, exec (.rbAdvanceRead 6) (issuedBy .cons fullFifo) = .next t ∧ t.phase = .config :=
  ⟨by decide, ⟨_, rfl, by decide⟩, _, rfl, by decide⟩

theorem witness_FrameOfProducer : Alive (issuedBy .prod reading) ∧
    (∃ t, exec (.cpSubreadHole 3) (issuedBy .prod reading) = .next t ∧ t.phase = .running) ∧
    ∃ t, exec (.cpSubreadAreas 3 0 4 2 4) (issuedBy .prod reading) = .next t ∧ t.phase = .running :=
  ⟨by decide, ⟨_, rfl, by decide⟩, _, rfl, by decide⟩

theorem witness_FrameOfPacketizer : Alive (issuedBy .cons draining) ∧
    (∃ t, exec .pkDrain (issuedBy .cons draining) = .next t ∧ t.pk.filled = 2) ∧
    (∃ t, exec (.rate48k 1#7) fifo = .next t) ∧
    ¬ ((inLoop .stopping).pk.state = .stopping ∧ (inLoop .stopping).cp.state ≠ .idle) :=
  ⟨by decide, ⟨_, rfl, by decide⟩, witness_next _ _, by decide⟩

theorem witness_FrameOfControl : Alive (running 16#32) ∧ (∃ t, exec .ctlReset (running 16#32) = .next t) ∧
    ∃ t, exec .ctlReset dead = .next t :=
  ⟨by decide, witness_next _ _, witness_next _ _⟩

theorem witness_ErrorsHaveTheirCauses : (inLoop .send).phase ≠ .fatal ∧
    (∃ t, exec (.pkSend 1158#32) (issuedBy .cons (inLoop .send)) = .next t ∧ t.phase = .fatal ∧ t.err.code = 0x21#8) ∧
    ∃ t, exec (.rbLoad 2) (issuedBy .cons gappedFifo) = .next t ∧ t.phase = .fatal ∧ t.err = ⟨0x34#8, 6#32⟩ :=
  ⟨by decide, ⟨_, rfl, by decide, by decide⟩, _, rfl, by decide, by decide⟩

/-! ### Runs -/

/-- The operation an agent issues at a point of a run, and the states it goes through. -/
def follow (s : State) (issued : Nat → Agent × Txn) : Nat → State
  | 0 => s
  | n + 1 =>
    match step (issueNext (follow s issued n) (issued n).1 (issued n).2) with
    | .next t => t
    | .refused _ => follow s issued n

/-- PROD and CONS copy their views in turn. -/
def syncs (n : Nat) : Agent × Txn := if n % 2 = 0 then (.prod, recordOf .rbSyncR2p) else (.cons, recordOf .rbSyncW2c)

/-- CONS goes round its loop with nothing to send. -/
def polls (n : Nat) : Agent × Txn :=
  (.cons, recordOf (if n = 0 then .pkTop else if n % 3 = 1 then .pkPoll else if n % 3 = 2 then .pkDrain else .pkWait))

theorem syncs_step {s : State} (h : Syncable s) (n : Nat) :
    ∃ t, step (issueNext s (syncs n).1 (syncs n).2) = .next t ∧ Syncable t := by
  unfold syncs
  split
  · rw [step_issueNext (i := .rbSyncR2p) rfl]
    exact ⟨_, exec_runs (i := .rbSyncR2p) (s := issuedBy .prod s) rfl (alive_iff.1 h.2) rfl (syncable_iff.2 h), h⟩
  · rw [step_issueNext (i := .rbSyncW2c) rfl]
    exact ⟨_, exec_runs (i := .rbSyncW2c) (s := issuedBy .cons s) rfl (alive_iff.1 h.2) rfl (syncable_iff.2 h), h⟩

theorem follow_syncable (n : Nat) : Syncable (follow fullFifo syncs n) := by
  induction n with
  | zero => decide
  | succ n ih =>
    obtain ⟨t, ht, hs⟩ := syncs_step ih n
    rw [follow, ht]
    exact hs

/-- The hypotheses of ViewsCatchUp are met by a run in CONFIG in which the views are copied in turn. -/
theorem witness_ViewsCatchUp : IsRun (follow fullFifo syncs) syncs ∧ FairSyncs (follow fullFifo syncs) syncs ∧
    Inv (follow fullFifo syncs 0) ∧ (∀ m, 0 ≤ m → Syncable (follow fullFifo syncs m)) ∧
    ∀ m, 0 ≤ m → (syncs m).2 ≠ recordOf .rbDestroy ∧ (syncs m).2 ≠ recordOf .ctlReset := by
  refine ⟨fun n => ?_, ⟨fun n _ => ⟨2 * n, by omega, ?_⟩, fun n _ => ⟨2 * n + 1, by omega, ?_⟩⟩,
    ⟨by decide, by decide, by decide, by decide, by decide, by decide, by decide, by decide, by decide⟩,
    fun m _ => follow_syncable m, fun m _ => ?_⟩
  · obtain ⟨t, ht, _⟩ := syncs_step (follow_syncable n) n
    rw [Moves, follow, ht]
  · rw [syncs, if_pos (by omega)]
    exact ⟨rfl, rfl⟩
  · rw [syncs, if_neg (by omega)]
    exact ⟨rfl, rfl⟩
  · unfold syncs
    split <;> decide

/-- The packetizer at a point of the run `polls`. -/
def pollState (n : Nat) : PkState :=
  if n = 0 then .top else if n % 3 = 1 then .poll else if n % 3 = 2 then .drain else .wait

/-- The loop goes round with an empty ring. -/
abbrev Round (n : Nat) (s : State) : Prop :=
  s.phase = .running ∧ s.cancel = false ∧ s.cp.state = .idle ∧ s.pk.state = pollState n ∧ s.pk.filled = 0 ∧
  s.ring.wc - s.ring.r = 0

theorem polls_step {s : State} {n : Nat} (h : Round n s) :
    ∃ t, step (issueNext s (polls n).1 (polls n).2) = .next t ∧ Round (n + 1) t := by
  obtain ⟨hp, hc, hi, hs, hf, hw⟩ := h
  have hlive : isDead s.phase = false := by rw [hp]; rfl
  unfold polls
  by_cases h0 : n = 0
  · subst h0
    rw [if_pos rfl, step_issueNext (i := .pkTop) rfl]
    refine ⟨_, exec_runs (i := .pkTop) (s := issuedBy .cons s) rfl hlive rfl (pkIn_iff.2 ⟨hp, hs⟩), ?_⟩
    exact ⟨hp, hc, hi, by simp [settle, issuedBy, hc, pollState], hf, hw⟩
  · rw [if_neg h0]
    by_cases h1 : n % 3 = 1
    · rw [if_pos h1, step_issueNext (i := .pkPoll) rfl]
      have hs' : s.pk.state = .poll := by rw [hs, pollState, if_neg h0, if_pos h1]
      refine ⟨_, exec_runs (i := .pkPoll) (s := issuedBy .cons s) rfl hlive rfl (pkIn_iff.2 ⟨hp, hs'⟩), ?_⟩
      refine ⟨hp, hc, hi, ?_, hf, hw⟩
      rw [pollState, if_neg (by omega), if_neg (by omega), if_pos (by omega)]
      rfl
    · rw [if_neg h1]
      by_cases h2 : n % 3 = 2
      · rw [if_pos h2, step_issueNext (i := .pkDrain) rfl]
        have hs' : s.pk.state = .drain := by rw [hs, pollState, if_neg h0, if_neg h1, if_pos h2]
        have hd : (issuedBy .cons s).drainCount = 0 := by
          have : (issuedBy .cons s).drainCount ≤ s.ring.wc - s.ring.r := drainCount_le _
          omega
        refine ⟨_, exec_runs (i := .pkDrain) (s := issuedBy .cons s) rfl hlive rfl (pkIn_iff.2 ⟨hp, hs'⟩), ?_⟩
        rw [drain_ok (bytes := []) (by rw [hd]; rfl), hd]
        refine ⟨hp, hc, hi, ?_, by simpa [settle, actOf, Packetizer.after, issuedBy] using hf,
          by simpa [settle, actOf, issuedBy] using hw⟩
        rw [pollState, if_neg (by omega), if_neg (by omega), if_neg (by omega)]
        simp [settle, actOf, Packetizer.after, issuedBy, hf]
      · rw [if_neg h2, step_issueNext (i := .pkWait) rfl]
        have hs' : s.pk.state = .wait := by rw [hs, pollState, if_neg h0, if_neg h1, if_neg h2]
        refine ⟨_, exec_runs (i := .pkWait) (s := issuedBy .cons s) rfl hlive rfl (pkIn_iff.2 ⟨hp, hs'⟩), ?_⟩
        refine ⟨hp, hc, hi, ?_, hf, hw⟩
        rw [pollState, if_neg (by omega), if_pos (by omega)]
        rfl

theorem follow_polls (n : Nat) : Round n (follow (running 16#32) polls n) := by
  induction n with
  | zero => decide
  | succ n ih =>
    obtain ⟨t, ht, hs⟩ := polls_step ih
    rw [follow, ht]
    exact hs

theorem pollState_moves (n : Nat) : pollState n ≠ pollState (n + 1) := by
  unfold pollState
  by_cases h0 : n = 0
  · subst h0
    decide
  · rcases (by omega : n % 3 = 0 ∨ n % 3 = 1 ∨ n % 3 = 2) with h | h | h
    · simp [h0, h, show (n + 1) % 3 = 1 by omega]
    · simp [h0, h, show (n + 1) % 3 = 2 by omega]
    · simp [h0, h, show (n + 1) % 3 = 0 by omega]

/-- No state of the loop lasts. -/
theorem polls_move {x : PkState} (n : Nat) (h : ∀ m, n ≤ m → PkIn x (follow (running 16#32) polls m)) : False :=
  pollState_moves n (((follow_polls n).2.2.2.1.symm.trans (h n le_rfl).2).trans
    ((follow_polls (n + 1)).2.2.2.1.symm.trans (h (n + 1) (by omega)).2).symm)

/-- The hypotheses of EnginesMoveOn are met by a run in which CONS goes round its loop, and there its operations are
enabled. -/
theorem witness_EnginesMoveOn : IsRun (follow (running 16#32) polls) polls ∧
    FairEngines (follow (running 16#32) polls) polls ∧ engineEnabled .pkTop (follow (running 16#32) polls 0) := by
  have hcp : ∀ n x, x ≠ .idle → ¬ CpIn x (follow (running 16#32) polls n) := fun n x hx h =>
    hx (h.2.symm.trans (follow_polls n).2.2.1)
  refine ⟨fun n => ?_, fun a i _ n h => ?_, rfl, rfl⟩
  · obtain ⟨t, ht, _⟩ := polls_step (follow_polls n)
    rw [Moves, follow, ht]
  · cases i with
    | cpCheck => exact absurd (h n le_rfl) (hcp n _ nofun)
    | cpSubreadHole k => exact absurd (h n le_rfl) (hcp n _ nofun)
    | cpSubreadAreas k p0 s0 p1 s1 => exact absurd (h n le_rfl) (hcp n _ nofun)
    | cpSubreadErr e => exact absurd (h n le_rfl) (hcp n _ nofun)
    | cpCommit => exact absurd (h n le_rfl) (hcp n _ nofun)
    | pkTop => exact (polls_move n h).elim
    | pkPoll => exact (polls_move n h).elim
    | pkDrain => exact (polls_move n h).elim
    | pkWait => exact (polls_move n h).elim
    | pkSend sent => exact (polls_move n h).elim
    | pkStop => exact (polls_move n fun m hm => (h m hm).1).elim
    | _ => exact (h n le_rfl).elim

end Sys2Proof.Tests
end

section
/-! Which transactions the decoder calls reserved, and what each kind of turn brings to a step (00_scope.md R6, R7). -/

namespace Sys2Proof

/-- A sequence of readers calls a code reserved only where a later reader does. -/
theorem bind_eq_reserved_iff {α β : Type} {x : Except DecodeError α} {f : α → Except DecodeError β} {c : Byte}
    (hx : x ≠ .error (.reserved c)) :
    (x >>= f) = .error (.reserved c) ↔ ∃ a, x = .ok a ∧ f a = .error (.reserved c) := by
  constructor
  · intro h
    by_contra hf
    cases x with
    | error e =>
      injection h with h
      exact hx (by rw [h])
    | ok a => exact hf ⟨a, rfl, h⟩
  · rintro ⟨a, rfl, h⟩
    exact h

/-- The decoder calls no code of R93's table reserved, whatever the record (30_encoding.md R95). -/
theorem decodeTxn_ne_reserved {t : Txn} {c : Byte} (h : operandFields t.code ≠ none) :
    decodeTxn t ≠ .error (.reserved c) := by
  unfold operandFields at h
  split at h
  case h_37 => exact absurd rfl h
  all_goals
    rename_i hu hf
    simp [decodeTxn, hu, hf, bind_eq_reserved_iff, takeNat_ne_reserved, takeBits_ne_reserved, takeBit_ne_reserved,
      endOf_ne_reserved]

end Sys2Proof

namespace Sys2Proof.Machine

open Sys2Proof

/-- A record that is none of its code has no meaning (30_encoding.md R93; log 12). -/
theorem fetchTxn_of_wrong_record {t : Txn} {e : DecodeError} (s : State) (h : decode (.txn t) = .error e)
    (hc : operandFields t.code ≠ none) : fetchTxn t s = .refused (.transcriberError e) := by
  cases e with
  | reserved c => exact absurd h (decodeTxn_ne_reserved hc)
  | missingOperand name => simp [fetchTxn, h]
  | extraOperand name => simp [fetchTxn, h]
  | operandRange name => simp [fetchTxn, h]

section
variable {s : State} {turns : List Turn}

theorem fetch_agent {a : Agent} {t : Txn} {rest : List Txn} (h : s.env.schedule = .agent a :: turns)
    (hp : pendingOf s.env.pending a = t :: rest) : fetch s = fetchTxn t (takeTurn s a turns rest) := by
  simp [fetch, h, hp]

theorem step_agent_of_decode {a : Agent} {t : Txn} {rest : List Txn} {i : Instr}
    (h : s.env.schedule = .agent a :: turns) (hp : pendingOf s.env.pending a = t :: rest)
    (hd : decode (.txn t) = .ok i) : step s = exec i (takeTurn s a turns rest) := by
  simp [step, fetch_agent h hp, fetchTxn, hd]

theorem step_agent_of_wrong_record {a : Agent} {t : Txn} {rest : List Txn} {e : DecodeError}
    (h : s.env.schedule = .agent a :: turns) (hp : pendingOf s.env.pending a = t :: rest)
    (hd : decode (.txn t) = .error e) (hc : operandFields t.code ≠ none) :
    step s = .refused (.transcriberError e) := by
  simp [step, fetch_agent h hp, fetchTxn_of_wrong_record _ hd hc]

theorem step_agent_idle {a : Agent} (h : s.env.schedule = .agent a :: turns)
    (hp : pendingOf s.env.pending a = []) : step s = .next (withSchedule s turns) := by
  simp [step, fetch, h, hp]

theorem step_wire {b : Byte} (h : s.env.schedule = .wire b :: turns) :
    step s = exec (decodeWire b) (withSchedule s turns) := by
  simp [step, fetch, h]

theorem step_srcWrite {x : Nat} {b : Byte} (h : s.env.schedule = .srcWrite x b :: turns) :
    step s = .next (hostWrite (withSchedule s turns) x b) := by
  simp [step, fetch, h]

theorem step_no_turn (h : s.env.schedule = []) : step s = .next s := by
  simp [step, fetch, h]

end

/-- Settles O6: one clause for each kind of turn. -/
theorem stepRunsTheDecodedInstruction : Obligations.StepRunsTheDecodedInstruction := by
  intro s turns
  refine ⟨?agent, ?wrongRecord, ?idle, ?wire, ?srcWrite, step_no_turn⟩
  case agent => exact fun _ _ _ _ => step_agent_of_decode
  case wrongRecord => exact fun _ _ _ _ => step_agent_of_wrong_record
  case idle => exact fun _ => step_agent_idle
  case wire => exact fun _ => step_wire
  case srcWrite =>
    intro x b h hwf
    exact ⟨_, step_srcWrite h, memRead_hostWrite (s := withSchedule s turns) hwf x b⟩

end Sys2Proof.Machine
end

section
/-! That the invariants of Safety.lean hold after power-on, that every outcome of an instruction keeps them, and so that
every step does: the updates outside the operations' own effects, then the effect of each operation. -/

namespace Sys2Proof.Machine

open Sys2Proof

variable {s : State}

/-- Of the model's own fields the invariants read the HOST's memory alone. -/
theorem inv_withEnv (h : Inv s) {e : Env} (he : Memory.wf .srcMem e.srcMem) : Inv { s with env := e } := by
  obtain ⟨hring, hcells, hpay, hbelow, -⟩ := h.mem
  exact { h with mem := ⟨hring, hcells, hpay, hbelow, he⟩ }

theorem Inv.srcMem_wf (h : Inv s) : Memory.wf .srcMem s.env.srcMem := by
  obtain ⟨-, -, -, -, hsrc⟩ := h.mem
  exact hsrc

/-! ## What the invariants say, phase by phase -/

theorem config_rests (h : Inv s) (hp : s.phase = .config) :
    s.cp.state = .idle ∧ s.pk.state = .off ∧ s.pk.filled = 0 := by
  obtain ⟨hconfig, -⟩ := h.lifecycle
  exact hconfig hp

theorem ready_rests (h : Inv s) (hp : s.phase = .ready) :
    s.ring.present = true ∧ s.cp.state = .idle ∧ s.pk.state = .off ∧ s.pk.filled = 0 := by
  obtain ⟨-, hready, -, -⟩ := h.lifecycle
  exact hready hp

theorem running_streams (h : Inv s) (hp : s.phase = .running) :
    s.ring.present = true ∧ s.socket.isOpen = true ∧ s.pk.state ≠ .off ∧ s.pk.state ≠ .done := by
  obtain ⟨-, -, hrunning, -⟩ := h.lifecycle
  exact hrunning hp

/-- An invocation that writes has its space in PROD's view (41_capture_producer.md R161). -/
theorem invocation_fits (h : CpInv s) (hs : s.cp.state = .reading ∨ s.cp.state = .commit) :
    s.cp.wf * s.fmt.bytesPerFrame ≤ s.ring.freeProd := by
  obtain ⟨-, hsize, -, -⟩ := h
  obtain ⟨-, -, hfits⟩ := hsize hs
  exact hfits

/-- What is done of an invocation never exceeds its write size (R159). -/
theorem done_le_wf (h : CpInv s) (hs : s.cp.state = .reading ∨ s.cp.state = .commit) : s.cp.done ≤ s.cp.wf := by
  obtain ⟨-, -, hreading, hcommit⟩ := h
  rcases hs with hs | hs
  · exact (hreading hs).le
  · exact (hcommit hs).le

/-! ## Updates outside the operations' own effects -/

theorem inv_record (h : Inv s) (o : Origin) (t : Txn) (x : Result) : Inv (record o t x s) := { h with }

theorem inv_stayPending (h : Inv s) (t : Txn) : Inv (stayPending t s) := inv_withEnv h h.srcMem_wf

theorem inv_takeTurn (h : Inv s) (a : Agent) (turns : List Turn) (rest : List Txn) : Inv (takeTurn s a turns rest) :=
  inv_withEnv h h.srcMem_wf

theorem inv_withSchedule (h : Inv s) (turns : List Turn) : Inv (withSchedule s turns) := inv_withEnv h h.srcMem_wf

theorem inv_hostWrite (h : Inv s) (x : Nat) (b : Byte) : Inv (hostWrite s x b) :=
  inv_withEnv h (hostWrite_wf h.srcMem_wf x b)

/-- No error has the code of `NONE` (60_exceptions.md R261). -/
theorem errCodeOf_ne_zero (e : ErrName) : errCodeOf e ≠ 0x00#8 := by cases e <;> decide

/-- The trap's registers are those of FATAL, where nothing is said of the lifecycle. -/
theorem inv_trapEntry (h : Inv s) (x : Raise) : Inv (trapEntry x s) :=
  { h with
    trap := by simp [TrapInv, errCodeOf_ne_zero]
    lifecycle := by simp [LifecycleInv]
    config := by
      obtain ⟨-, -, hbuilt⟩ := h.config
      exact ⟨nofun, by simp, hbuilt⟩
    stored := by simp [StoredInv] }

/-- A datagram has 1157 bytes: the header's five and the payload (43_packetizer.md R205, R207). -/
theorem datagram_length (s : State) : s.datagram.length = Config.packetLen := by
  simp [State.datagram, State.payload, Header.bytes]

theorem inv_sendDatagram (h : Inv s) (sent : Word) : Inv (sendDatagram sent s) :=
  { h with
    logs := fun e he => by
      rcases List.mem_append.1 he with he | he
      · exact h.logs e he
      · rw [List.mem_singleton.1 he]
        exact datagram_length s }

theorem inv_illegalOp (h : Inv s) (t : Txn) : Inv (illegalOp t s) := by
  unfold illegalOp
  split
  · exact inv_record h _ _ _
  · exact inv_record (inv_trapEntry h _) _ _ _

/-! ## The ring alone -/

/-- The invariant of a ring that exists. -/
theorem ringInv_iff {q : Ring} (hp : q.present = true) : RingInv q ↔
    1 ≤ q.capacity ∧ q.rp ≤ q.r ∧ q.r ≤ q.wc ∧ q.wc ≤ q.w ∧ q.w ≤ q.rp + q.capacity := by
  rw [RingInv, if_pos hp]

theorem ringInv_absent : RingInv Ring.absent := by simp [RingInv, Ring.absent]

/-- A fresh ring of a capacity that is not 0 (40_ring_buffer.md R121). -/
theorem ringInv_fresh {cap : Word} (hc : cap ≠ 0#32) : RingInv ⟨true, cap, [], 0, 0, 0, 0⟩ := by
  have : cap.toNat ≠ 0 := fun h0 => hc (BitVec.eq_of_toNat_eq h0)
  rw [ringInv_iff rfl]
  simp only [Ring.capacity]
  omega

section
variable {q : Ring} (hp : q.present = true) (h : RingInv q)
include hp h

theorem capacity_pos : 0 < q.capacity := ((ringInv_iff hp).1 h).1

theorem ringInv_advanceWrite {n : Nat} (hn : n ≤ q.freeProd) : RingInv { q with w := q.w + n } := by
  simp only [RingInv, hp, if_true, Ring.freeProd, Ring.capacity] at h hn ⊢
  omega

theorem ringInv_advanceRead {n : Nat} (m : Memory) (hn : n ≤ q.fillCons) :
    RingInv { q with cells := m, r := q.r + n } := by
  simp only [RingInv, hp, if_true, Ring.fillCons, Ring.capacity] at h hn ⊢
  omega

theorem ringInv_syncR2p : RingInv { q with rp := q.r } := by
  simp only [RingInv, hp, if_true, Ring.capacity] at h ⊢
  omega

theorem ringInv_syncW2c : RingInv { q with wc := q.w } := by
  simp only [RingInv, hp, if_true, Ring.capacity] at h ⊢
  omega

theorem ringInv_withCells (m : Memory) : RingInv { q with cells := m } := by
  simpa only [RingInv, hp, if_true, Ring.capacity] using h

/-- The read cursor and the fill give the write cursor (10_state.md R33). -/
theorem r_add_fill : q.r + q.fill = q.w := by
  simp only [RingInv, hp, if_true] at h
  simp only [Ring.fill]
  omega

/-- A copy of `R` never shrinks PROD's view of the free space. -/
theorem freeProd_syncR2p : q.freeProd ≤ Ring.freeProd { q with rp := q.r } := by
  simp only [RingInv, hp, if_true, Ring.freeProd, Ring.capacity] at h ⊢
  omega

end

/-- What another ring has to satisfy: it is there as before (but in CONFIG, where it may come and go), and the engines
find their bytes and their space. -/
theorem inv_withRing {q : Ring} (h : Inv s) (hq : RingInv q) (hwf : Memory.wf .ring q.cells)
    (hbelow : Memory.below q.capacity q.cells) (hpresent : s.phase = .config ∨ q.present = s.ring.present)
    (hspace : s.cp.state = .reading ∨ s.cp.state = .commit → s.cp.wf * s.fmt.bytesPerFrame ≤ q.freeProd)
    (hstored : StoredInv (withRing s q)) : Inv (withRing s q) := by
  obtain ⟨-, -, hpay, hpaybelow, hsrc⟩ := h.mem
  obtain ⟨hactive, hsize, hreading, hcommit⟩ := h.cp
  exact { h with
    mem := ⟨hwf, hbelow, hpay, hpaybelow, hsrc⟩
    ring := hq
    lifecycle := by
      rcases hpresent with hp | hp
      · simpa [LifecycleInv, hp] using h.lifecycle
      · simpa [LifecycleInv, hp] using h.lifecycle
    cp := by
      refine ⟨hactive, fun hs => ?_, hreading, hcommit⟩
      obtain ⟨hmin, hmax, -⟩ := hsize hs
      exact ⟨hmin, hmax, hspace hs⟩
    stored := hstored }

/-- In CONFIG the engines rest, so any ring will do. -/
theorem inv_withRing_config {q : Ring} (h : Inv s) (hp : s.phase = .config) (hq : RingInv q)
    (hwf : Memory.wf .ring q.cells) (hbelow : Memory.below q.capacity q.cells) : Inv (withRing s q) := by
  obtain ⟨hidle, -, -⟩ := config_rests h hp
  exact inv_withRing h hq hwf hbelow (.inl hp) (by simp [hidle]) (by simp [StoredInv, hp])

section
variable (h : Inv s) (hs : Standalone s)
include h hs

/-- A direct store keeps the invariants (40_ring_buffer.md R125). -/
theorem inv_rbStore (k : Nat) (b : Byte) :
    Inv { s with ring := { s.ring with cells := writeMem .ring s.ring.cells (s.ring.writeCell k) (some b) } } := by
  obtain ⟨hwf, hbelow, -⟩ := h.mem
  have hcell : s.ring.writeCell k < s.ring.capacity := Nat.mod_lt _ (capacity_pos hs.2 h.ring)
  have hwf' := writeMem_wf hwf (s.ring.writeCell k) (some b)
  have hbelow' := writeMem_below (sp := .ring) hbelow hcell (some b)
  exact inv_withRing_config h hs.1 (ringInv_withCells hs.2 h.ring _) hwf' hbelow'

theorem inv_rbAdvanceWrite {n : Nat} (hn : n ≤ s.ring.freeProd) :
    Inv { s with ring := { s.ring with w := s.ring.w + n } } := by
  obtain ⟨hwf, hbelow, -⟩ := h.mem
  exact inv_withRing_config h hs.1 (ringInv_advanceWrite hs.2 h.ring hn) hwf hbelow

theorem inv_rbAdvanceRead {n : Nat} (hn : n ≤ s.ring.fillCons) :
    Inv { s with ring := { s.ring with
      cells := releaseCells s.ring.capacity s.ring.r n s.ring.cells, r := s.ring.r + n } } := by
  obtain ⟨hwf, hbelow, -⟩ := h.mem
  have hbelow' := releaseCells_below (pos := s.ring.r) (n := n) (capacity_pos hs.2 h.ring) hbelow
  exact inv_withRing_config h hs.1 (ringInv_advanceRead hs.2 h.ring _ hn) (releaseCells_wf hwf) hbelow'

end

/-- The view copies move no cursor, so what is stored stays stored (40_ring_buffer.md R131, R132). -/
theorem inv_rbSyncR2p (h : Inv s) (hs : Syncable s) : Inv { s with ring := { s.ring with rp := s.ring.r } } := by
  obtain ⟨hwf, hbelow, -⟩ := h.mem
  exact inv_withRing h (ringInv_syncR2p hs.1 h.ring) hwf hbelow (.inr rfl)
    (fun hc => (invocation_fits h.cp hc).trans (freeProd_syncR2p hs.1 h.ring)) h.stored

theorem inv_rbSyncW2c (h : Inv s) (hs : Syncable s) : Inv { s with ring := { s.ring with wc := s.ring.w } } := by
  obtain ⟨hwf, hbelow, -⟩ := h.mem
  exact inv_withRing h (ringInv_syncW2c hs.1 h.ring) hwf hbelow (.inr rfl) (invocation_fits h.cp) h.stored

/-! ## The capture producer -/

/-- What the lifecycle asks of RUNNING (R21, R40). -/
theorem lifecycle_of_running (hr : s.phase = .running) (h : s.ring.present = true ∧ s.socket.isOpen = true ∧
    s.pk.state ≠ .off ∧ s.pk.state ≠ .done) : LifecycleInv s := by
  simpa [LifecycleInv, hr] using h

/-- A step of the producer alone keeps what is stored if it neither adds to nor drops the staged bytes. -/
theorem stored_withCp {p : Producer} (h : StoredInv s)
    (hstaged : State.stagedBytes { s with cp := p } = s.stagedBytes) : StoredInv { s with cp := p } := by
  intro hp
  rw [hstaged]
  exact h hp

/-- Outside READING and COMMIT nothing is staged. -/
theorem stagedBytes_of_resting (h : s.cp.state = .idle ∨ s.cp.state = .check) : s.stagedBytes = 0 := by
  rcases h with h | h <;> simp [State.stagedBytes, h]

theorem stagedBytes_of_writing (h : s.cp.state = .reading ∨ s.cp.state = .commit) :
    s.stagedBytes = s.cp.done * s.fmt.bytesPerFrame := if_pos h

/-- An invocation begins with nothing staged (41_capture_producer.md R151). -/
theorem inv_cpInvoke (h : Inv s) (hc : CpIn .idle s) {min max : Nat} (hle : min ≤ max) :
    Inv { s with cp := { s.cp with state := .check, min := min, max := max } } := by
  have hrun := running_streams h hc.1
  exact { h with
    lifecycle := lifecycle_of_running hc.1 hrun
    cp := ⟨fun _ => hle, by simp, nofun, nofun⟩
    stored := stored_withCp h.stored (by
      rw [stagedBytes_of_resting (.inr rfl), stagedBytes_of_resting (.inl hc.2)]) }

/-- The write size fits PROD's view of the free space (R152, R161). -/
theorem writeFrames_fit (s : State) : s.writeFrames * s.fmt.bytesPerFrame ≤ s.ring.freeProd := calc
  s.writeFrames * s.fmt.bytesPerFrame ≤ s.freeFrames * s.fmt.bytesPerFrame :=
    Nat.mul_le_mul_right _ (Nat.min_le_left _ _)
  _ ≤ s.ring.freeProd := Nat.div_mul_le_self _ _

theorem inv_cpCheck (h : Inv s) (hc : CpIn .check s) (hmin : s.cp.min ≤ s.freeFrames) :
    Inv { s with cp := { s.cp with
      state := if s.writeFrames = 0 then .commit else .reading, wf := s.writeFrames, done := 0 } } := by
  have hrun := running_streams h hc.1
  obtain ⟨hactive, -, -, -⟩ := h.cp
  have hle : s.cp.min ≤ s.cp.max := hactive (by simp [hc.2])
  have hwf : s.cp.min ≤ s.writeFrames := Nat.le_min.2 ⟨hmin, hle⟩
  exact { h with
    lifecycle := lifecycle_of_running hc.1 hrun
    cp := by
      refine ⟨fun _ => hle, fun _ => ⟨hwf, Nat.min_le_right _ _, writeFrames_fit s⟩, ?_, ?_⟩
      · intro hs
        by_contra h0
        simp [show s.writeFrames = 0 by simpa using h0] at hs
      · intro hs
        by_contra h0
        simp [show s.writeFrames ≠ 0 from fun hw => h0 hw.symm] at hs
    stored := stored_withCp h.stored (by
      rw [stagedBytes_of_resting (.inr hc.2)]
      simp [State.stagedBytes]) }

/-- The ring and the producer after a sub-read of `k` frames with the stores `l` (R153, R154). -/
def afterSubread (k : Nat) (l : List (Nat × Byte)) (s : State) : State :=
  { s with ring := { s.ring with cells := storedRing s.ring l s.ring.cells }, cp := s.cp.after k }

theorem stagedBytes_afterSubread (hc : CpIn .reading s) (k : Nat) (l : List (Nat × Byte)) :
    (afterSubread k l s).stagedBytes = s.stagedBytes + k * s.fmt.bytesPerFrame := by
  have hwriting : (s.cp.after k).state = .reading ∨ (s.cp.after k).state = .commit := by
    simp only [Producer.after, hc.2]
    split <;> simp
  rw [stagedBytes_of_writing hwriting, stagedBytes_of_writing (.inl hc.2), ← Nat.add_mul]
  rfl

section
variable {k : Nat} {l : List (Nat × Byte)} (h : Inv s) (hc : CpIn .reading s)
include h hc

/-- A sub-read of no more frames than remain stays inside its invocation (R159). -/
theorem cpInv_afterSubread (hk : k ≤ s.cp.framesLeft) : CpInv (afterSubread k l s) := by
  obtain ⟨hactive, hsize, hreading, -⟩ := h.cp
  have hdone : s.cp.done < s.cp.wf := hreading hc.2
  refine ⟨fun _ => hactive (by simp [hc.2]), fun _ => hsize (.inl hc.2), fun hs => ?_, fun hs => ?_⟩
  · have hne : s.cp.done + k ≠ s.cp.wf := fun he => by simp [afterSubread, Producer.after, he] at hs
    simp only [afterSubread, Producer.framesLeft, Producer.after] at hk ⊢
    omega
  · by_contra hne
    have hne : s.cp.done + k ≠ s.cp.wf := hne
    simp [afterSubread, Producer.after, hne, hc.2] at hs

/-- What was stored stays stored, and stores at every offset of the next `k` frames store those (R160). -/
theorem stored_afterSubread
    (hl : ∀ j < k * s.fmt.bytesPerFrame, ∃ b, (s.cp.done * s.fmt.bytesPerFrame + j, b) ∈ l) :
    StoredInv (afterSubread k l s) := by
  intro hp
  obtain ⟨hpresent, -⟩ := running_streams h hc.1
  obtain ⟨hframe, hheld⟩ := h.stored hp
  refine ⟨hframe, fun n hn => ?_⟩
  rw [stagedBytes_afterSubread hc] at hn
  by_cases hold : n < s.ring.fill + s.stagedBytes
  · exact storedRing_isSome (hheld n hold)
  · change n < s.ring.fill + (s.stagedBytes + k * s.fmt.bytesPerFrame) at hn
    obtain ⟨b, hb⟩ := hl (n - s.ring.fill - s.stagedBytes) (by omega)
    rw [← stagedBytes_of_writing (.inl hc.2)] at hb
    have hpos : s.ring.r + n = s.ring.w + (s.stagedBytes + (n - s.ring.fill - s.stagedBytes)) := by
      have hfill := r_add_fill hpresent h.ring
      omega
    have hnamed := storedRing_named (q := s.ring) (m := s.ring.cells) hb
    rw [Ring.writeCell, ← hpos] at hnamed
    exact hnamed

theorem inv_afterSubread (hk : k ≤ s.cp.framesLeft)
    (hl : ∀ j < k * s.fmt.bytesPerFrame, ∃ b, (s.cp.done * s.fmt.bytesPerFrame + j, b) ∈ l) :
    Inv (afterSubread k l s) := by
  obtain ⟨hwf, hbelow, hpay, hpaybelow, hsrc⟩ := h.mem
  have hrun := running_streams h hc.1
  have ⟨hpresent, _⟩ := hrun
  exact { h with
    mem := ⟨storedRing_wf hwf, storedRing_below (capacity_pos hpresent h.ring) hbelow, hpay, hpaybelow, hsrc⟩
    ring := ringInv_withCells hpresent h.ring _
    lifecycle := lifecycle_of_running hc.1 hrun
    cp := cpInv_afterSubread h hc hk
    stored := stored_afterSubread h hc hl }

end

/-- A hole answer stores at every offset of its frames. -/
theorem holeStores_cover (s : State) {k j : Nat} (hj : j < k * s.fmt.bytesPerFrame) :
    ∃ b, (s.cp.done * s.fmt.bytesPerFrame + j, b) ∈ holeStores s k := ⟨_, mem_holeStores.2 ⟨j, hj, rfl⟩⟩

/-- Every offset is that of a sample byte: its frame, its channel, its byte (30_encoding.md R105). -/
theorem exists_offset {x : Format} (hx : x.bytesPerFrame = 2 * x.bytesPerSample) {k j : Nat}
    (hj : j < k * x.bytesPerFrame) (d : Nat) :
    ∃ f < k, ∃ c < 2, ∃ b < x.bytesPerSample, x.offset (d + f) c b = d * x.bytesPerFrame + j := by
  have hpos : 0 < x.bytesPerFrame := Nat.pos_of_ne_zero fun h0 => by simp [h0] at hj
  have hframe : j % x.bytesPerFrame < 2 * x.bytesPerSample := hx ▸ Nat.mod_lt _ hpos
  refine ⟨j / x.bytesPerFrame, Nat.div_lt_of_lt_mul (Nat.mul_comm _ _ ▸ hj),
    j % x.bytesPerFrame / x.bytesPerSample, Nat.div_lt_of_lt_mul (Nat.mul_comm _ _ ▸ hframe),
    j % x.bytesPerFrame % x.bytesPerSample, Nat.mod_lt _ (by omega), ?_⟩
  have h1 := Nat.div_add_mod' j x.bytesPerFrame
  have h2 := Nat.div_add_mod' (j % x.bytesPerFrame) x.bytesPerSample
  rw [Format.offset, Nat.add_mul]
  omega

/-- An area answer stores at every offset of its frames. -/
theorem areaStores_cover (hx : s.fmt.bytesPerFrame = 2 * s.fmt.bytesPerSample) (p0 s0 p1 s1 : Nat) {k j : Nat}
    (hj : j < k * s.fmt.bytesPerFrame) :
    ∃ b, (s.cp.done * s.fmt.bytesPerFrame + j, b) ∈ areaStores s k p0 s0 p1 s1 := by
  obtain ⟨f, hf, c, hc, b, hb, he⟩ := exists_offset hx hj s.cp.done
  exact ⟨_, mem_areaStores.2 ⟨f, hf, c, hc, b, hb, by rw [he]⟩⟩

/-- A sample size the negotiator accepts is 1 to 4 (42_format_negotiator.md R182). -/
theorem bitDepth_ok {bps bd : Byte} (h : bitDepth bps = .ok bd) : 1 ≤ bps.toNat ∧ bps.toNat ≤ 4 := by
  unfold bitDepth at h
  split at h
  · assumption
  · cases h

/-- A rate the negotiator accepts is not 0 (R181). -/
theorem rateCode_ok {rate : Word} {rc : Byte} (h : rateCode rate = .ok rc) : rate ≠ 0#32 := by
  rintro rfl
  exact absurd h (by simp [rateCode])

/-- A header is built of a rate code and a bit depth (R183). -/
theorem buildHeader_ok {rate : Word} {bps : Byte} {hdr : Header} (h : buildHeader rate bps = .ok hdr) :
    ∃ rc bd, rateCode rate = .ok rc ∧ bitDepth bps = .ok bd ∧ hdr = headerOf rc bd := by
  cases hr : rateCode rate with
  | err x => simp [buildHeader, hr] at h
  | ok rc =>
    cases hb : bitDepth bps with
    | err x => simp [buildHeader, hr, hb] at h
    | ok bd => exact ⟨rc, bd, rfl, rfl, by simpa [buildHeader, hr, hb] using h.symm⟩

/-- A configured frame is one sample of each of the two channels (10_state.md R25). -/
theorem bytesPerFrame_eq (h : ConfigInv s) (hp : s.phase = .ready ∨ s.phase = .running ∨ s.phase = .stopped) :
    s.fmt.bytesPerFrame = 2 * s.fmt.bytesPerSample := by
  obtain ⟨-, hset, hbuilt⟩ := h
  obtain ⟨hhdr, hbpf⟩ := hbuilt (hset hp)
  obtain ⟨_, _, _, hbps, _⟩ := buildHeader_ok hhdr
  have := bitDepth_ok hbps
  simp only [Format.bytesPerFrame, Format.bytesPerSample, hbpf, frameBytes, BitVec.toNat_ofNat, Config.channels]
  omega

/-- The commit moves the staged bytes behind the write cursor (R156, R162). -/
theorem inv_cpCommit (h : Inv s) (hc : CpIn .commit s)
    (hspace : s.cp.wf * s.fmt.bytesPerFrame ≤ s.ring.freeProd) :
    Inv { s with
      ring := { s.ring with w := s.ring.w + s.cp.wf * s.fmt.bytesPerFrame }, cp := { s.cp with state := .idle } } := by
  have hrun := running_streams h hc.1
  have ⟨hpresent, _⟩ := hrun
  obtain ⟨-, -, -, hcommit⟩ := h.cp
  have hdone : s.cp.done = s.cp.wf := hcommit hc.2
  exact { h with
    ring := ringInv_advanceWrite hpresent h.ring hspace
    lifecycle := lifecycle_of_running hc.1 hrun
    cp := ⟨by simp, by simp, nofun, nofun⟩
    stored := fun hp => by
      obtain ⟨hframe, hheld⟩ := h.stored hp
      refine ⟨by rw [Nat.add_mul_mod_self_right]; exact hframe, fun n hn => hheld n ?_⟩
      have hfill := r_add_fill hpresent h.ring
      rw [stagedBytes_of_resting (.inl rfl)] at hn
      rw [stagedBytes_of_writing (.inr hc.2), hdone]
      simp only [Ring.fill] at hn hfill ⊢
      omega }

/-! ## The packetizer -/

/-- A move of the packetizer's engine inside its loop needs the payload its new state asks for. -/
theorem inv_pkMove (h : Inv s) (hr : s.phase = .running) {p : Packetizer} (hmem : p.paybuf = s.pk.paybuf)
    (hstate : p.state ≠ .off ∧ p.state ≠ .done) (hpk : PkInv p) : Inv { s with pk := p } := by
  obtain ⟨hwf, hbelow, hpay, hpaybelow, hsrc⟩ := h.mem
  obtain ⟨hpresent, hopen, -, -⟩ := running_streams h hr
  exact { h with
    mem := ⟨hwf, hbelow, hmem ▸ hpay, hmem ▸ hpaybelow, hsrc⟩
    lifecycle := lifecycle_of_running hr ⟨hpresent, hopen, hstate⟩
    pk := hpk }

/-- An empty payload is what every state but SEND may have. -/
theorem pkInv_of_empty {p : Packetizer} (hempty : p.filled = 0) (hs : p.state ≠ .send) : PkInv p := by
  simp [PkInv, hempty, hs, Config.payloadLen]

theorem inv_pkTop (h : Inv s) (hp : PkIn .top s) :
    Inv { s with pk := { s.pk with state := if s.cancel then .stopping else .poll } } := by
  obtain ⟨hempty, -, -, -⟩ := h.pk
  have hfilled : s.pk.filled = 0 := hempty (.inr (.inl hp.2))
  have hstate : ∀ c : Bool, (if c then PkState.stopping else .poll) ≠ .off ∧
      (if c then PkState.stopping else .poll) ≠ .done ∧ (if c then PkState.stopping else .poll) ≠ .send := by decide
  obtain ⟨hoff, hdone, hsend⟩ := hstate s.cancel
  exact inv_pkMove h hp.1 rfl ⟨hoff, hdone⟩ (pkInv_of_empty hfilled hsend)

theorem inv_pkPoll (h : Inv s) (hp : PkIn .poll s) : Inv { s with pk := { s.pk with state := .drain } } := by
  obtain ⟨-, hloop, -, hbytes⟩ := h.pk
  exact inv_pkMove h hp.1 rfl ⟨nofun, nofun⟩ ⟨by simp, fun _ => hloop (.inl hp.2), nofun, hbytes⟩

theorem inv_pkWait (h : Inv s) (hp : PkIn .wait s) : Inv { s with pk := { s.pk with state := .poll } } := by
  obtain ⟨-, hloop, -, hbytes⟩ := h.pk
  exact inv_pkMove h hp.1 rfl ⟨nofun, nofun⟩ ⟨by simp, fun _ => hloop (.inr (.inr hp.2)), nofun, hbytes⟩

/-- After the datagram nothing is assembled (R205, R208). -/
theorem inv_pkSend (h : Inv s) (hp : PkIn .send s) (sent : Word) :
    Inv { sendDatagram sent s with pk := { s.pk with state := .top, filled := 0 } } :=
  inv_pkMove (inv_sendDatagram h sent) hp.1 rfl ⟨nofun, nofun⟩ (pkInv_of_empty rfl nofun)

/-- What CONS drains it puts behind the bytes assembled so far (R203, R208). -/
theorem pkInv_after {p : Packetizer} {bytes : List Byte} (h : PkInv p)
    (hlen : p.filled + bytes.length ≤ Config.payloadLen) : PkInv (p.after bytes) := by
  refine ⟨?_, ?_, ?_, fun j hj => ?_⟩
  · simp only [Packetizer.after]
    split <;> simp
  · simp only [Packetizer.after]
    split
    · simp
    · omega
  · simp only [Packetizer.after]
    split
    · exact fun _ => by assumption
    · simp
  · have hj : j < p.filled + bytes.length := hj
    simp only [Packetizer.at, Packetizer.after, readMem_putPayload]
    split
    · rw [List.getElem?_eq_getElem (by omega)]
      rfl
    · obtain ⟨-, -, -, hbytes⟩ := h
      exact hbytes j (by omega)

/-- Committed and staged bytes fit the ring (R34, R161). -/
theorem fill_add_staged_le (h : Inv s) (hp : s.ring.present = true) :
    s.ring.fill + s.stagedBytes ≤ s.ring.capacity := by
  have hr := (ringInv_iff hp).1 h.ring
  have hstaged : s.stagedBytes ≤ s.ring.freeProd := by
    unfold State.stagedBytes
    split
    · rename_i hs
      exact (Nat.mul_le_mul_right _ (done_le_wf h.cp hs)).trans (invocation_fits h.cp hs)
    · exact Nat.zero_le _
  simp only [Ring.fill, Ring.freeProd] at hstaged ⊢
  omega

/-- The ring and the packetizer after PK_DRAIN has moved these bytes (R203). -/
def afterDrain (bytes : List Byte) (s : State) : State :=
  { s with
    ring := { s.ring with
      cells := releaseCells s.ring.capacity s.ring.r s.drainCount s.ring.cells, r := s.ring.r + s.drainCount }
    pk := s.pk.after bytes }

/-- A drain releases the oldest positions; the others are less than a capacity away and keep their cells (R130, R160). -/
theorem stored_afterDrain (h : Inv s) (hpresent : s.ring.present = true) (bytes : List Byte) :
    StoredInv (afterDrain bytes s) := by
  intro hphase
  obtain ⟨hframe, hheld⟩ := h.stored hphase
  refine ⟨hframe, fun n hn => ?_⟩
  have hfit := fill_add_staged_le h hpresent
  have hn : s.drainCount + n < s.ring.fill + s.stagedBytes := by
    change n < s.ring.w - (s.ring.r + s.drainCount) + s.stagedBytes at hn
    have hle := drainCount_le s
    have hr := (ringInv_iff hpresent).1 h.ring
    simp only [Ring.fill, Ring.fillCons] at hle ⊢
    omega
  have hother : ∀ i < s.drainCount,
      s.ring.cellOf (s.ring.r + (s.drainCount + n)) ≠ (s.ring.r + i) % s.ring.capacity := by
    intro i hi he
    have := mod_inj (by omega) (by omega) he
    omega
  have hsome := hheld _ hn
  rw [Ring.holds, Ring.at, ← releaseCells_other hother, ← Nat.add_assoc] at hsome
  exact hsome

theorem inv_afterDrain (h : Inv s) (hp : PkIn .drain s) {bytes : List Byte}
    (hb : ringLoadAll 0 s.drainCount s.ring = .ok bytes) : Inv (afterDrain bytes s) := by
  obtain ⟨hwf, hbelow, hpay, hpaybelow, hsrc⟩ := h.mem
  obtain ⟨hpresent, hopen, -, -⟩ := running_streams h hp.1
  have hcap : 0 < s.ring.capacity := capacity_pos hpresent h.ring
  have hlen : s.pk.filled + bytes.length ≤ Config.payloadLen := by
    obtain ⟨-, hloop, -, -⟩ := h.pk
    have hlt := hloop (.inr (.inl hp.2))
    have hroom : s.drainCount ≤ Config.payloadLen - s.pk.filled := Nat.min_le_right _ _
    rw [(ringLoadAll_inv hb).1]
    omega
  have hstate : (s.pk.after bytes).state ≠ .off ∧ (s.pk.after bytes).state ≠ .done := by
    simp only [Packetizer.after]
    split <;> simp
  exact { h with
    mem := ⟨releaseCells_wf hwf, releaseCells_below hcap hbelow, putPayload_wf hpay,
      putPayload_below hpaybelow hlen, hsrc⟩
    ring := ringInv_advanceRead hpresent h.ring _ (drainCount_le s)
    lifecycle := lifecycle_of_running hp.1 ⟨hpresent, hopen, hstate⟩
    pk := pkInv_after h.pk hlen
    stored := stored_afterDrain h hpresent bytes }

/-- PK_STOP leaves an idle producer, no ring and an empty payload (R206). -/
theorem inv_stopBlock (h : Inv s) (hp : PkIn .stopping s) (hidle : s.cp.state = .idle) : Inv (stopBlock s) := by
  obtain ⟨-, -, hpay, hpaybelow, hsrc⟩ := h.mem
  obtain ⟨-, hset, hbuilt⟩ := h.config
  obtain ⟨hempty, -, -, hbytes⟩ := h.pk
  exact { h with
    mem := ⟨wf_nil _, below_nil _, hpay, hpaybelow, hsrc⟩
    ring := ringInv_absent
    trap := by
      obtain ⟨hcode, -, -, hinfo⟩ : s.err.code = 0#8 ∧ s.exit ≠ some Config.exitFail ∧ s.exit ≠ some 0 ∧
          s.err.info = 0#32 := by simpa [TrapInv, hp.1] using h.trap
      simp [TrapInv, hcode, hinfo]
    lifecycle := by simp [LifecycleInv, Ring.absent, hidle]
    config := ⟨nofun, fun _ => hset (.inr (.inl hp.1)), hbuilt⟩
    cp := by simp [CpInv, hidle]
    pk := ⟨fun _ => hempty (.inr (.inr (.inl hp.2))), by simp, nofun, hbytes⟩
    stored := by simp [StoredInv] }

/-! ## The control unit -/

/-- The invariants hold after power-on: every memory is empty, every engine rests. -/
theorem inv_reset : Inv State.reset :=
  ⟨by decide, by decide, by decide, by decide, by decide, by decide, by decide, by decide, by decide⟩

/-- CTL_RESET leaves the values of power-on, but for the logs and the HOST's memory (R230). -/
theorem inv_resetBlock (h : Inv s) : Inv (resetBlock s) :=
  { inv_reset with
    mem := ⟨wf_nil _, below_nil _, wf_nil _, below_nil _, h.srcMem_wf⟩
    logs := h.logs }

/-- CTL_CONFIGURE writes a format the negotiator accepted and a fresh ring (R231). -/
theorem inv_configure (h : Inv s) (hp : s.phase = .config) {rate : Word} {bps rc bd : Byte} {cap : Word}
    (hrate : rateCode rate = .ok rc) (hbps : bitDepth bps = .ok bd) (hcap : cap ≠ 0#32) :
    Inv { s with
      fmt := ⟨rate, bps, frameBytes bps, headerOf rc bd⟩, ring := ⟨true, cap, [], 0, 0, 0, 0⟩, phase := .ready } := by
  obtain ⟨-, -, hpay, hpaybelow, hsrc⟩ := h.mem
  obtain ⟨hidle, hoff, hfilled⟩ := config_rests h hp
  exact { h with
    mem := ⟨wf_nil _, below_nil _, hpay, hpaybelow, hsrc⟩
    ring := ringInv_fresh hcap
    trap := by simpa [TrapInv, hp] using h.trap
    lifecycle := by simp [LifecycleInv, hidle, hoff, hfilled]
    config := by
      refine ⟨nofun, fun _ he => rateCode_ok hrate (congrArg Format.rate he), fun _ => ⟨?_, rfl⟩⟩
      simp [buildHeader, hrate, hbps]
    cp := by simp [CpInv, hidle]
    stored := fun _ => ⟨Nat.zero_mod _, fun n hn => absurd hn (by simp [Ring.fill, State.stagedBytes, hidle])⟩ }

theorem inv_socketOpen (h : Inv s) (hp : s.phase = .config ∨ s.phase = .ready) (x : Socket) :
    Inv { s with socket := x } :=
  { h with
    lifecycle := by
      obtain ⟨hconfig, hready, -, -⟩ := h.lifecycle
      rcases hp with hp | hp
      · exact ⟨hconfig, hready, by simp [hp], by simp [hp]⟩
      · exact ⟨hconfig, hready, by simp [hp], by simp [hp]⟩ }

/-- The stream starts with resting engines, at the top of the loop (R233). -/
theorem inv_start (h : Inv s) (hp : s.phase = .ready) (hopen : s.socket.isOpen = true) :
    Inv { s with phase := .running, pk := { s.pk with state := .top } } := by
  obtain ⟨hpresent, hidle, -, hfilled⟩ := ready_rests h hp
  obtain ⟨-, hset, hbuilt⟩ := h.config
  exact { h with
    trap := by simpa [TrapInv, hp] using h.trap
    lifecycle := lifecycle_of_running rfl ⟨hpresent, hopen, nofun, nofun⟩
    config := ⟨nofun, fun _ => hset (.inl hp), hbuilt⟩
    pk := pkInv_of_empty hfilled nofun
    stored := fun _ => h.stored (.inl hp) }

/-! ## Instructions and steps -/

/-- The effect of every operation keeps the invariants. -/
theorem inv_effect {i : Instr} {s' : State} {r : Result} (h : Inv s) (he : Effect i s s' r) : Inv s' := by
  cases i with
  | rbCreate cap =>
    obtain ⟨hp, -, hcap, rfl⟩ := he
    exact inv_withRing_config h hp (ringInv_fresh hcap) (wf_nil _) (below_nil _)
  | rbStore k b =>
    obtain ⟨hs, -, rfl⟩ := he
    exact inv_rbStore h hs k b
  | rbAdvanceWrite n =>
    obtain ⟨hs, hn, rfl⟩ := he
    exact inv_rbAdvanceWrite h hs hn
  | rbSyncR2p =>
    obtain ⟨hs, rfl⟩ := he
    exact inv_rbSyncR2p h hs
  | rbLoad k =>
    obtain ⟨-, -, -, rfl⟩ := he
    exact h
  | rbAdvanceRead n =>
    obtain ⟨hs, hn, rfl⟩ := he
    exact inv_rbAdvanceRead h hs hn
  | rbSyncW2c =>
    obtain ⟨hs, rfl⟩ := he
    exact inv_rbSyncW2c h hs
  | rbDestroy =>
    obtain ⟨hs, rfl⟩ := he
    exact inv_withRing_config h hs.1 ringInv_absent (wf_nil _) (below_nil _)
  | rbCapacity | rbWritePtr | rbFreeCount | rbReadPtr | rbFillCount =>
    obtain ⟨-, rfl⟩ := he
    exact h
  | cpInvoke min max =>
    obtain ⟨hc, -, -, hle, rfl⟩ := he
    exact inv_cpInvoke h hc hle
  | cpCheck =>
    obtain ⟨hc, hmin, rfl⟩ := he
    exact inv_cpCheck h hc hmin
  | cpSubreadHole k =>
    obtain ⟨hc, -, hk, -, rfl⟩ := he
    exact inv_afterSubread h hc hk fun j hj => holeStores_cover s hj
  | cpSubreadAreas k p0 s0 p1 s1 =>
    obtain ⟨hc, -, hk, -, rfl⟩ := he
    have hframe := bytesPerFrame_eq h.config (.inr (.inl hc.1))
    exact inv_afterSubread h hc hk fun j hj => areaStores_cover hframe p0 s0 p1 s1 hj
  | cpSubreadErr e => exact he.elim
  | cpCommit =>
    obtain ⟨hc, hspace, rfl⟩ := he
    exact inv_cpCommit h hc hspace
  | cpOvfNotify =>
    obtain ⟨-, rfl⟩ := he
    exact { h with }
  | pkTop =>
    obtain ⟨hp, rfl⟩ := he
    exact inv_pkTop h hp
  | pkPoll =>
    obtain ⟨hp, rfl⟩ := he
    exact inv_pkPoll h hp
  | pkDrain =>
    obtain ⟨hp, bytes, hb, rfl⟩ := he
    exact inv_afterDrain h hp hb
  | pkWait =>
    obtain ⟨hp, rfl⟩ := he
    exact inv_pkWait h hp
  | pkSend sent =>
    obtain ⟨hp, -, rfl⟩ := he
    exact inv_pkSend h hp sent
  | pkStop =>
    obtain ⟨hp, hidle, rfl⟩ := he
    exact inv_stopBlock h hp hidle
  | ctlReset =>
    obtain rfl := he
    exact inv_resetBlock h
  | ctlConfigure found rate bps cap allocOk =>
    obtain ⟨hp, -, rc, bd, hrate, hbps, hcap, rfl⟩ := he
    exact inv_configure h hp hrate hbps hcap
  | ctlSocketOpen ok addr port =>
    obtain ⟨hp, -, rfl⟩ := he
    exact inv_socketOpen h hp _
  | ctlStart ok =>
    obtain ⟨hp, hopen, rfl⟩ := he
    exact inv_start h hp hopen
  | ctlCancel =>
    obtain rfl := he
    exact { h with }
  | fnRateCode | fnBitDepth | fnBuildHeader | fnDecodeRate | ctlCsrRead | rate44k1 | rate48k =>
    obtain rfl := he
    exact h

/-- Executing an instruction keeps the invariants, whatever comes of it. -/
theorem inv_exec {i : Instr} {t : State} (h : Inv s) (he : exec i s = .next t) : Inv t := by
  rcases exec_outcomes he with ⟨rfl, -⟩ | ⟨-, -, x, kept, hkept, rfl⟩ | ⟨-, -, s', r, heff, rfl⟩ | ⟨-, -, -, rfl⟩
  · exact inv_record h _ _ _
  · have hk : Inv kept := by
      rcases hkept with rfl | ⟨sent, -, -, -, -, rfl⟩
      · exact h
      · exact inv_sendDatagram h sent
    exact inv_record (inv_trapEntry hk x) _ _ _
  · exact inv_record (inv_effect h heff) _ _ _
  · exact inv_stayPending h _

/-- A reserved code's turn is ILLEGAL_OP's (30_encoding.md R95). -/
theorem step_agent_of_reserved {a : Agent} {turns : List Turn} {t : Txn} {rest : List Txn} {c : Byte}
    (h : s.env.schedule = .agent a :: turns) (hp : pendingOf s.env.pending a = t :: rest)
    (hd : decode (.txn t) = .error (.reserved c)) : step s = .next (illegalOp t (takeTurn s a turns rest)) := by
  simp [step, fetch_agent h hp, fetchTxn, hd]

/-- A turn of an agent with an operation pending keeps the invariants. -/
theorem inv_agentTurn {a : Agent} {turns : List Turn} {x : Txn} {rest : List Txn} {t : State} (h : Inv s)
    (hs : s.env.schedule = .agent a :: turns) (hp : pendingOf s.env.pending a = x :: rest)
    (hstep : step s = .next t) : Inv t := by
  have hturn := inv_takeTurn h a turns rest
  cases hd : decode (.txn x) with
  | ok i =>
    rw [step_agent_of_decode hs hp hd] at hstep
    exact inv_exec hturn hstep
  | error e =>
    cases e with
    | reserved c =>
      rw [step_agent_of_reserved hs hp hd] at hstep
      injection hstep with hstep
      exact hstep ▸ inv_illegalOp hturn x
    | missingOperand name | extraOperand name | operandRange name =>
      simp [step, fetch_agent hs hp, fetchTxn, hd] at hstep

/-- Settles O39: a turn changes what the invariants read by an operation, by ILLEGAL_OP's trap, or by the HOST's write. -/
theorem stepKeepsInvariants : Obligations.StepKeepsInvariants := by
  intro s t h hstep
  cases hs : s.env.schedule with
  | nil =>
    rw [step_no_turn hs] at hstep
    injection hstep with hstep
    exact hstep ▸ h
  | cons turn turns =>
    cases turn with
    | agent a =>
      cases hp : pendingOf s.env.pending a with
      | nil =>
        rw [step_agent_idle hs hp] at hstep
        injection hstep with hstep
        exact hstep ▸ inv_withSchedule h turns
      | cons x rest => exact inv_agentTurn h hs hp hstep
    | wire b =>
      rw [step_wire hs] at hstep
      exact inv_exec (inv_withSchedule h turns) hstep
    | srcWrite x b =>
      rw [step_srcWrite hs] at hstep
      injection hstep with hstep
      exact hstep ▸ inv_hostWrite (inv_withSchedule h turns) x b

/-- Settles O38: no more is asked of the empty memories and the resting engines. -/
theorem invariantsHoldAtReset : Obligations.InvariantsHoldAtReset := inv_reset

/-- The environment's moves keep the invariants: they set the model's own fields, the HOST's memory in its form. -/
theorem inv_envMoves {s' : State} (h : Inv s) (he : EnvMoves s s') : Inv s' := by
  obtain ⟨_, _, _, hsrc, rfl⟩ := he
  exact inv_withEnv h hsrc

/-- Settles O40, by induction on the run. -/
theorem reachableStatesHaveInvariants : Obligations.ReachableStatesHaveInvariants := by
  intro s h
  induction h with
  | reset => exact inv_reset
  | env s s' _ hmove ih => exact inv_envMoves ih hmove
  | step s s' _ hstep ih => exact stepKeepsInvariants s s' ih hstep

/-- Settles O47: arithmetic from the order of the cursors and views. -/
theorem countsOfTheRing : Obligations.CountsOfTheRing := by
  rintro s q hreach rfl hp
  have hr := (ringInv_iff hp).1 (reachableStatesHaveInvariants s hreach).ring
  refine ⟨by omega, by omega, ?_, ?_, ?_, ?_, fun hlt => Nat.mod_eq_of_lt hlt, fun hfull => ?_⟩
  · simp only [Ring.free, Ring.fill]
    omega
  · simp only [Ring.freeProd, Ring.free, Ring.fill]
    omega
  · simp only [Ring.fillCons, Ring.fill]
    omega
  · simp only [Ring.fillCons, Ring.freeProd]
    omega
  · rw [← Ring.fill, hfull, Nat.mod_self]

end Sys2Proof.Machine
end

section
/-! That an operation issued or placed runs at the next step (10_state.md R46): a decoded instruction has the code of the
record it was read from. -/

namespace Sys2Proof

/-- A reader in front keeps what the rest of the decoder says of the instruction's code. -/
theorem code_of_bind {α : Type} {x : Except DecodeError (α × List Operand)}
    {f : α × List Operand → Except DecodeError Instr} {c : Byte} {i : Instr} (h : (x >>= f) = .ok i)
    (hf : ∀ v os, f (v, os) = .ok i → (recordOf i).code = c) : (recordOf i).code = c := by
  obtain ⟨⟨v, os⟩, -, h⟩ := except_bind_inv h
  exact hf v os h

theorem code_of_endOf {i j : Instr} {os : List Operand} {c : Byte} (h : endOf i os = .ok j)
    (hi : (recordOf i).code = c) : (recordOf j).code = c := by
  obtain ⟨-, rfl⟩ := endOf_inv h
  exact hi

/-- The instruction read from a transaction has the transaction's code (30_encoding.md R91, R93). -/
theorem code_of_decodeTxn {t : Txn} {i : Instr} (h : decodeTxn t = .ok i) : (recordOf i).code = t.code := by
  unfold decodeTxn at h
  split at h
  case h_37 => cases h
  all_goals
    rename_i hu hf
    repeat refine code_of_bind h fun _ _ h => ?_
    refine code_of_endOf h ?_
    simp only [recordOf]
    exact code_eq_of_fields hu.symm hf.symm

theorem decodeTableWord_inv {n w : Nat} {i : Instr} (h : decodeTableWord n w = some i) :
    decode (tableWord w) = .ok i := by
  unfold decodeTableWord at h
  split at h
  · split at h
    · rename_i hd
      injection h with h
      rw [hd, h]
    · cases h
  · cases h

end Sys2Proof

namespace Sys2Proof.Machine

open Sys2Proof

/-- An owner named by the opcode table may issue the operation (60_exceptions.md R271). -/
theorem mayIssue_owner {c : Byte} {a : Agent} (h : ownerOf c = some a) : mayIssue c a = true := by
  simp [mayIssue, h]

theorem mayIssue_any {c : Byte} (h : ownerOf c = none) (a : Agent) : mayIssue c a = true := by
  simp [mayIssue, h]

/-- A coded instruction placed in a state runs there at the next step, issued by one who may. -/
theorem step_placeNext {s : State} {x : Encoded} {i : Instr} (h : decode x = .ok i) :
    ∃ a, step (placeNext s x) = exec i { s with env := { s.env with issuer := a } } ∧
      (i.isWire = false → mayIssue (recordOf i).code a = true) := by
  cases x with
  | txn t =>
    have hcode : (recordOf i).code = t.code := code_of_decodeTxn h
    rw [hcode]
    cases ho : ownerOf t.code with
    | some a => exact ⟨a, by rw [placeNext, ho]; exact step_issueNext h, fun _ => mayIssue_owner ho⟩
    | none => exact ⟨.host, by rw [placeNext, ho]; exact step_issueNext h, fun _ => mayIssue_any ho _⟩
  | wire b =>
    obtain rfl : decodeWire b = i := by injection h
    refine ⟨s.env.issuer, step_wire rfl, fun hw => ?_⟩
    unfold decodeWire at hw
    split at hw <;> cases hw

/-- Settles O7: an issued record goes ahead of what its agent has pending, and a table word is placed so. -/
theorem issuedOperationRuns : Obligations.IssuedOperationRuns := by
  intro s
  exact ⟨fun _ _ _ => step_issueNext, fun _ _ h => step_placeNext (decodeTableWord_inv h)⟩

end Sys2Proof.Machine
end

section
/-! The values after power-on and after CTL_RESET (10_state.md R45), the status registers (R42, R43), and who writes and
reads the two flags (R23, R24). -/

namespace Sys2Proof.Machine

open Sys2Proof

/-! ## Reset values -/

theorem hasResetValues_reset : HasResetValues State.reset := by
  simp [HasResetValues, State.reset, Ring.absent, Ring.at, Packetizer.at, unlisted, Config.defaultPort]

/-- The host's reset is one step in every phase. -/
theorem exec_ctlReset {s : State} (h : s.env.issuer = .host) :
    exec .ctlReset s = .next (stepped .ctlReset s .nothing (resetBlock s)) :=
  issueAlways_runs _ (by rw [h]; rfl)

/-- What CTL_RESET leaves has the values of power-on; its TRACE entry is no part of them. -/
theorem hasResetValues_stepped (s : State) : HasResetValues (stepped .ctlReset s .nothing (resetBlock s)) :=
  hasResetValues_reset

/-- Settles O37. -/
theorem powerOnAndResetValues : Obligations.PowerOnAndResetValues := by
  refine ⟨⟨hasResetValues_reset, rfl, rfl, rfl⟩, fun s h => ⟨_, exec_ctlReset h, hasResetValues_stepped s, ?_, rfl, rfl⟩⟩
  simp [stepped, h, recordOf]

/-! ## Status registers -/

/-- Every agent may read a register, in every phase (44_control.md R235). -/
theorem exec_ctlCsrRead (n : Byte) (s : State) :
    exec (.ctlCsrRead n) s = .next (stepped (.ctlCsrRead n) s (.word (csr s n)) s) :=
  issueAlways_runs _ (mayIssue_any (show ownerOf 0x85#8 = none from rfl) _)

theorem phaseCode_lt (p : Phase) : phaseCode p < 2 ^ 3 := by cases p <;> decide
theorem cpStateCode_lt (x : CpState) : cpStateCode x < 2 ^ 2 := by cases x <;> decide
theorem pkStateCode_lt (x : PkState) : pkStateCode x < 2 ^ 3 := by cases x <;> decide

theorem bitAt_eq (v : Bool) (place : Nat) : bitAt v place = v.toNat * 2 ^ place := by
  cases v <;> simp [bitAt]

/-- The fields of the STATUS word, as one sum below `2^11` (10_state.md R43). -/
theorem statusWord_toNat (s : State) : (statusWord s).toNat =
    phaseCode s.phase + s.cancel.toNat * 2 ^ 3 + s.socket.isOpen.toNat * 2 ^ 4 + s.ring.present.toNat * 2 ^ 5 +
      cpStateCode s.cp.state * 2 ^ 6 + pkStateCode s.pk.state * 2 ^ 8 := by
  have h1 := phaseCode_lt s.phase
  have h2 := cpStateCode_lt s.cp.state
  have h3 := pkStateCode_lt s.pk.state
  have h4 := Bool.toNat_le s.cancel
  have h5 := Bool.toNat_le s.socket.isOpen
  have h6 := Bool.toNat_le s.ring.present
  rw [statusWord, BitVec.toNat_ofNat, bitAt_eq, bitAt_eq, bitAt_eq, Nat.mod_eq_of_lt (by omega)]

/-- A bit of a word, from the number's quotient. -/
theorem getLsbD_of_div_mod {v : Word} {place : Nat} {b : Bool} (h : v.toNat / 2 ^ place % 2 = b.toNat) :
    v.getLsbD place = b := by
  rw [BitVec.getLsbD, Nat.testBit_eq_decide_div_mod_eq, h]
  cases b <;> rfl

/-- STATUS, field by field (R43). -/
theorem statusWord_fields (s : State) :
    (statusWord s).toNat % 2 ^ 3 = phaseCode s.phase ∧ (statusWord s).getLsbD 3 = s.cancel ∧
    (statusWord s).getLsbD 4 = s.socket.isOpen ∧ (statusWord s).getLsbD 5 = s.ring.present ∧
    (statusWord s).toNat / 2 ^ 6 % 2 ^ 2 = cpStateCode s.cp.state ∧
    (statusWord s).toNat / 2 ^ 8 % 2 ^ 3 = pkStateCode s.pk.state ∧ (statusWord s).toNat / 2 ^ 11 = 0 := by
  have h := statusWord_toNat s
  have h1 := phaseCode_lt s.phase
  have h2 := cpStateCode_lt s.cp.state
  have h3 := pkStateCode_lt s.pk.state
  have h4 := Bool.toNat_le s.cancel
  have h5 := Bool.toNat_le s.socket.isOpen
  have h6 := Bool.toNat_le s.ring.present
  refine ⟨by omega, getLsbD_of_div_mod (by omega), getLsbD_of_div_mod (by omega), getLsbD_of_div_mod (by omega),
    by omega, by omega, by omega⟩

/-- A byte put behind a bit vector is its lowest eight bits. -/
theorem append_byte_toNat {n : Nat} (x : BitVec n) (b : Byte) : (x ++ b).toNat = x.toNat * 2 ^ 8 + b.toNat := by
  rw [BitVec.toNat_append, ← Nat.shiftLeft_add_eq_or_of_lt b.isLt, Nat.shiftLeft_eq]

theorem hdrLow_toNat (h : Header) : (hdrLow h).toNat = h.rateCode.toNat + h.bitDepth.toNat * 2 ^ 8 +
    h.channelCount.toNat * 2 ^ 16 + h.maskHigh.toNat * 2 ^ 24 := by
  simp only [hdrLow, append_byte_toNat]
  omega

theorem zextByte_toNat (b : Byte) : (zextByte b).toNat = b.toNat :=
  BitVec.toNat_setWidth_of_le (by omega)

theorem lowWord_toNat (n : Nat) : (lowWord n).toNat = n % 2 ^ 32 := BitVec.toNat_ofNat _ _

/-- Reserved register numbers read 0 (R42). -/
theorem csr_reserved (s : State) {n : Byte} (h : 0x11 ≤ n.toNat) : csr s n = 0#32 := by
  unfold csr
  split
  case h_18 => rfl
  all_goals omega

/-- Settles O35: the register of each number of the table, then the reserved ones. -/
theorem ctlCsrReadReturnsTheRegister : Obligations.CtlCsrReadReturnsTheRegister := by
  intro n s
  refine ⟨csr s n, exec_ctlCsrRead n s, ?status, ?errCode, ?errInfo, ?ovf, ?cap, ?w, ?r, ?hdrLo, ?hdrHi, ?rate, ?bps,
    ?port, ?filled, ?wf, ?done, ?rp, ?wc, csr_reserved s⟩
  case status =>
    rintro rfl
    exact statusWord_fields s
  case port =>
    rintro rfl
    exact BitVec.toNat_setWidth_of_le (by omega)
  case hdrLo =>
    rintro rfl
    exact hdrLow_toNat _
  case filled =>
    rintro rfl hle
    exact (lowWord_toNat _).trans (Nat.mod_eq_of_lt (by omega))
  case errCode | hdrHi | bps =>
    rintro rfl
    exact zextByte_toNat _
  case w | r | wf | done | rp | wc =>
    rintro rfl
    exact lowWord_toNat _
  case errInfo | ovf | cap | rate =>
    rintro rfl
    rfl

/-! ## The flags -/

/-- What an instruction may do to CANCEL and OVF_COUNT between two states (R23, R24). -/
def FlagsKept (i : Instr) (s t : State) : Prop :=
  (t.cancel = s.cancel ∨ (i = .ctlCancel ∧ t.cancel = true) ∨ (i = .ctlReset ∧ t.cancel = false)) ∧
  (t.ovfCount = s.ovfCount ∨ (i = .cpOvfNotify ∧ t.ovfCount = s.ovfCount + 1#32) ∨
    (i = .ctlReset ∧ t.ovfCount = 0#32))

theorem effect_flags {i : Instr} {s s' : State} {r : Result} (h : Effect i s s' r) : FlagsKept i s s' := by
  cases i with
  | ctlCancel =>
    obtain rfl := h
    exact ⟨.inr (.inl ⟨rfl, rfl⟩), .inl rfl⟩
  | ctlReset =>
    obtain rfl := h
    exact ⟨.inr (.inr ⟨rfl, rfl⟩), .inr (.inr ⟨rfl, rfl⟩)⟩
  | cpOvfNotify =>
    obtain ⟨-, rfl⟩ := h
    exact ⟨.inl rfl, .inr (.inl ⟨rfl, rfl⟩)⟩
  | cpSubreadErr e => exact h.elim
  | fnRateCode | fnBitDepth | fnBuildHeader | fnDecodeRate | ctlCsrRead | rate44k1 | rate48k =>
    obtain rfl := h
    exact ⟨.inl rfl, .inl rfl⟩
  | rbCapacity | rbWritePtr | rbFreeCount | rbReadPtr | rbFillCount | rbSyncR2p | rbSyncW2c | rbDestroy | pkTop
  | pkPoll | pkWait =>
    obtain ⟨-, rfl⟩ := h
    exact ⟨.inl rfl, .inl rfl⟩
  | rbStore | rbAdvanceWrite | rbAdvanceRead | cpCheck | cpCommit | pkSend | pkStop | ctlSocketOpen | ctlStart =>
    obtain ⟨-, -, rfl⟩ := h
    exact ⟨.inl rfl, .inl rfl⟩
  | rbCreate | rbLoad =>
    obtain ⟨-, -, -, rfl⟩ := h
    exact ⟨.inl rfl, .inl rfl⟩
  | cpInvoke | cpSubreadHole | cpSubreadAreas =>
    obtain ⟨-, -, -, -, rfl⟩ := h
    exact ⟨.inl rfl, .inl rfl⟩
  | pkDrain =>
    obtain ⟨-, _, -, rfl⟩ := h
    exact ⟨.inl rfl, .inl rfl⟩
  | ctlConfigure =>
    obtain ⟨-, -, _, _, -, -, -, rfl⟩ := h
    exact ⟨.inl rfl, .inl rfl⟩

/-- What is kept of the state before a raise has its flags. -/
theorem kept_flags {i : Instr} {s kept : State} {x : Raise} (h : Kept i s kept x) :
    kept.cancel = s.cancel ∧ kept.ovfCount = s.ovfCount := by
  rcases h with rfl | ⟨_, -, -, -, -, rfl⟩
  · exact ⟨rfl, rfl⟩
  · exact ⟨rfl, rfl⟩

/-- The state with another CANCEL. -/
def setCancel (v : Bool) (s : State) : State := { s with cancel := v }

/-- What a rule's statements come to, with another CANCEL. -/
def Act.setCancel (v : Bool) : Act → Act
  | .done s r => .done (Machine.setCancel v s) r
  | .raise kept x => .raise (Machine.setCancel v kept) x
  | .noStep => .noStep
  | .hold => .hold

/-- An operation settles alike under another CANCEL. -/
theorem settle_setCancel (t : Txn) (v : Bool) (s : State) (b : Act) :
    settle t (setCancel v s) (b.setCancel v) = setCancel v (settle t s b) := by
  cases b <;> rfl

theorem ringActOf_setCancel (v : Bool) (s : State) (e : Except Raise Ring) :
    ringActOf (setCancel v s) e = (ringActOf s e).setCancel v := by
  cases e <;> rfl

theorem subread_setCancel (v : Bool) (k : Nat) (l : List (Nat × Byte)) (s : State) :
    subread k l (setCancel v s) = (subread k l s).setCancel v := by
  by_cases hk : k = 0 ∨ s.cp.framesLeft < k
  · rw [subread_refused hk]
    exact subread_refused hk
  · rw [subread, subread, if_neg hk, if_neg (show ¬ (k = 0 ∨ (setCancel v s).cp.framesLeft < k) from hk)]
    change (match ringStoreAll l s.ring with | .error x => _ | .ok q => _) = _
    cases ringStoreAll l s.ring <;> rfl

theorem actOf_setCancel {v : Bool} {s : State} {e e' : Except Raise State} (h : e' = e.map (setCancel v)) :
    actOf (setCancel v s) e' = (actOf s e).setCancel v := by
  subst h
  cases e <;> rfl

/-- An operation whose statements settle alike under another CANCEL, but for the flag, comes to the same. -/
theorem issue_setCancel {i : Instr} {g : Bool} {b b' : Act} {s t : State} {v : Bool} (h : issue i g b s = .next t)
    (hb : ∃ w, settle (recordOf i) (setCancel v s) b' = setCancel w (settle (recordOf i) s b)) :
    ∃ w, issue i g b' (setCancel v s) = .next (setCancel w t) := by
  by_cases hd : isDead s.phase = true
  · rw [issue_dead _ _ _ hd] at h
    injection h with h
    exact ⟨v, by rw [issue_dead (s := setCancel v s) _ _ _ hd, ← h]; rfl⟩
  · have hl : isDead s.phase = false := by simpa using hd
    by_cases ho : mayIssue (recordOf i).code s.env.issuer = true
    · cases g with
      | false =>
        rw [issue_unguarded _ hl ho] at h
        injection h with h
        exact ⟨v, by rw [issue_unguarded (s := setCancel v s) _ hl ho, ← h]; rfl⟩
      | true =>
        rw [issue_runs _ hl ho] at h
        injection h with h
        obtain ⟨w, hw⟩ := hb
        exact ⟨w, by rw [issue_runs (s := setCancel v s) _ hl ho, ← h, hw]⟩
    · have ho : mayIssue (recordOf i).code s.env.issuer = false := by simpa using ho
      rw [issue_foreign _ _ hl ho] at h
      injection h with h
      exact ⟨v, by rw [issue_foreign (s := setCancel v s) _ _ hl ho, ← h]; rfl⟩

/-- An operation whose statements do not read CANCEL. -/
theorem issue_setCancel_of_eq {i : Instr} {g : Bool} {b b' : Act} {s t : State} {v : Bool}
    (h : issue i g b s = .next t) (hb : b' = b.setCancel v) :
    ∃ w, issue i g b' (setCancel v s) = .next (setCancel w t) :=
  issue_setCancel h ⟨v, hb ▸ settle_setCancel _ v s b⟩

theorem readWire_setCancel {i : Instr} {rate : Nat} {s t : State} {v : Bool} (h : readWire i rate s = .next t) :
    ∃ w, readWire i rate (setCancel v s) = .next (setCancel w t) := by
  injection h with h
  exact ⟨v, by rw [← h]; rfl⟩

/-- In FATAL an agent that does not own such an operation has no step (R264, R265). -/
theorem issueAlways_fatal {s : State} {i : Instr} (b : Act) (hp : s.phase = .fatal)
    (ho : mayIssue (recordOf i).code s.env.issuer = false) :
    issueAlways i b s = .next (record (.agent s.env.issuer) (recordOf i) .noStep s) := by
  simp [issueAlways, hp, ho, settle]

/-- Likewise for an operation that steps in dead phases too. -/
theorem issueAlways_setCancel {i : Instr} {b b' : Act} {s t : State} {v : Bool} (h : issueAlways i b s = .next t)
    (hb : ∃ w, settle (recordOf i) (setCancel v s) b' = setCancel w (settle (recordOf i) s b)) :
    ∃ w, issueAlways i b' (setCancel v s) = .next (setCancel w t) := by
  rcases issueAlways_cases h with ⟨hp, ho, rfl⟩ | ⟨hp, ho, rfl⟩ | ⟨ho, rfl⟩
  · exact ⟨v, issueAlways_fatal (s := setCancel v s) _ hp ho⟩
  · exact ⟨v, issueAlways_foreign (s := setCancel v s) _ hp ho⟩
  · obtain ⟨w, hw⟩ := hb
    exact ⟨w, by rw [issueAlways_runs (s := setCancel v s) _ ho, hw]⟩

theorem drain_setCancel (v : Bool) (s : State) : drain (setCancel v s) = (drain s).map (setCancel v) := by
  cases hb : ringLoadAll 0 s.drainCount s.ring with
  | error x => rw [drain, drain, hb, show ringLoadAll 0 (setCancel v s).drainCount (setCancel v s).ring = _ from hb]; rfl
  | ok bytes => rw [drain_ok hb, drain_ok (s := setCancel v s) hb]; rfl

theorem configure_setCancel (v found : Bool) (rate : Word) (bps : Byte) (cap : Word) (allocOk : Bool) (s : State) :
    configure found rate bps cap allocOk (setCancel v s) =
      (configure found rate bps cap allocOk s).map (setCancel v) := by
  unfold configure
  split
  · rfl
  · cases rateCode rate with
    | err x => rfl
    | ok rc =>
      cases bitDepth bps with
      | err x => rfl
      | ok bd =>
        cases allocOk with
        | false => rfl
        | true => cases ringCreate (lowWord (requestedCapacity rate bps cap)) <;> rfl

/-- PK_TOP and the register read apart, no instruction reads CANCEL (R23). -/
theorem exec_setCancel {i : Instr} {s t : State} {v : Bool} (htop : i ≠ .pkTop) (hcsr : ∀ n, i ≠ .ctlCsrRead n)
    (h : exec i s = .next t) : ∃ w, exec i (setCancel v s) = .next (setCancel w t) := by
  cases i with
  | pkTop => exact absurd rfl htop
  | ctlCsrRead n => exact absurd rfl (hcsr n)
  | ctlReset => exact issueAlways_setCancel h ⟨false, rfl⟩
  | ctlCancel => exact issue_setCancel h ⟨true, rfl⟩
  | rate44k1 | rate48k => exact readWire_setCancel h
  | rbCreate | rbStore | rbAdvanceWrite | rbAdvanceRead =>
    exact issue_setCancel_of_eq h (ringActOf_setCancel v s _)
  | cpSubreadHole | cpSubreadAreas => exact issue_setCancel_of_eq h (subread_setCancel v _ _ s)
  | rbLoad k =>
    refine issue_setCancel_of_eq h ?_
    cases hb : ringLoad k s.ring <;> simp [setCancel, Act.setCancel, hb]
  | cpCommit =>
    refine issue_setCancel_of_eq h ?_
    cases hq : ringAdvanceWrite (s.cp.wf * s.fmt.bytesPerFrame) s.ring <;> simp [setCancel, Act.setCancel, hq]
  | pkDrain => exact issue_setCancel_of_eq h (actOf_setCancel (drain_setCancel v s))
  | ctlConfigure => exact issue_setCancel_of_eq h (actOf_setCancel (configure_setCancel v _ _ _ _ _ s))
  | cpInvoke =>
    refine issue_setCancel_of_eq h ?_
    rw [apply_ite (Act.setCancel v), apply_ite (Act.setCancel v)]
    rfl
  | cpCheck | pkSend | pkStop | ctlSocketOpen | ctlStart =>
    refine issue_setCancel_of_eq h ?_
    rw [apply_ite (Act.setCancel v)]
    rfl
  | rbCapacity | rbWritePtr | rbFreeCount | rbReadPtr | rbFillCount | rbSyncR2p | rbSyncW2c | rbDestroy
  | fnRateCode | fnBitDepth | fnBuildHeader | fnDecodeRate | pkPoll | pkWait | cpSubreadErr | cpOvfNotify =>
    exact issue_setCancel_of_eq h rfl

/-- What an outcome does to the two flags: nothing, but for the effects that write them. -/
theorem outcomes_flags {i : Instr} {s t : State} (h : Outcomes i s t) : FlagsKept i s t := by
  rcases h with ⟨rfl, -⟩ | ⟨-, -, x, kept, hkept, rfl⟩ | ⟨-, -, s', r, heff, rfl⟩ | ⟨-, -, -, rfl⟩
  · exact ⟨.inl rfl, .inl rfl⟩
  · obtain ⟨hcancel, hovf⟩ := kept_flags hkept
    exact ⟨.inl hcancel, .inl hovf⟩
  · have hflags := effect_flags heff
    exact hflags
  · exact ⟨.inl rfl, .inl rfl⟩

/-- Settles O45: the writers from the outcomes of an instruction, the readers by running it under another CANCEL. -/
theorem flagWriters : Obligations.FlagWriters := by
  intro i s t h
  obtain ⟨hcancel, hovf⟩ := outcomes_flags (exec_outcomes h)
  exact ⟨hcancel, hovf, fun htop hcsr _ => exec_setCancel htop hcsr h⟩

end Sys2Proof.Machine
end

section
/-! The ring as a queue (20_memory.md R73–R75): the committed stream positions under stores, advances and releases, the
payload under drains and sends, and so the bytes on their way to the network under every operation. -/

namespace Sys2Proof.Machine

open Sys2Proof

/-! ## Regions of the stream -/

theorem region_add (q : Ring) (pos m n : Nat) : q.region pos (m + n) = q.region pos m ++ q.region (pos + m) n := by
  simp [Ring.region, List.range_add, Nat.add_assoc]

theorem region_length (q : Ring) (pos n : Nat) : (q.region pos n).length = n := by simp [Ring.region]

/-- A region depends on what its positions hold alone. -/
theorem region_congr {q u : Ring} {pos n : Nat} (h : ∀ i < n, u.holds (pos + i) = q.holds (pos + i)) :
    u.region pos n = q.region pos n :=
  List.map_congr_left fun i hi => h i (List.mem_range.1 hi)

/-- Different positions less than a capacity apart have different cells. -/
theorem cellOf_ne {q : Ring} {pos i j : Nat} (hi : i < q.capacity) (hj : j < q.capacity) (h : i ≠ j) :
    q.cellOf (pos + i) ≠ q.cellOf (pos + j) := fun he => h (mod_inj hi hj he)

theorem committed_length (q : Ring) : q.committed.length = q.fill := region_length q q.r q.fill

theorem committed_getElem? {q : Ring} {k : Nat} (hk : k < q.fill) : q.committed[k]? = some (q.holds (q.r + k)) := by
  simp [Ring.committed, Ring.region, hk]

/-! ## The ring's operations on the committed bytes -/

section
variable {q : Ring} (hp : q.present = true) (h : RingInv q)
include hp h

/-- What is committed and what PROD sees free fit the ring together (10_state.md R34, R35). -/
theorem fill_add_freeProd_le : q.fill + q.freeProd ≤ q.capacity := by
  have hr := (ringInv_iff hp).1 h
  simp only [Ring.fill, Ring.freeProd]
  omega

/-- CONS never sees more than is committed (R35). -/
theorem fillCons_le_fill : q.fillCons ≤ q.fill := by
  have hr := (ringInv_iff hp).1 h
  simp only [Ring.fillCons, Ring.fill]
  omega

/-- Stores inside PROD's view of the free space leave every committed cell alone. -/
theorem committed_stores {l : List (Nat × Byte)} (hl : ∀ p ∈ l, p.1 < q.freeProd) :
    Ring.committed { q with cells := storedRing q l q.cells } = q.committed := by
  refine region_congr fun i hi => storedRing_other fun p hmem => ?_
  have hfit := fill_add_freeProd_le hp h
  have hi : i < q.fill := hi
  have hoffset := hl p hmem
  change q.cellOf (q.r + i) ≠ q.cellOf (q.w + p.1)
  rw [← r_add_fill hp h, Nat.add_assoc]
  exact cellOf_ne (by omega) (by omega) (by omega)

/-- A commit appends the positions behind the write cursor (20_memory.md R73). -/
theorem committed_advanceWrite (n : Nat) :
    Ring.committed { q with w := q.w + n } = q.committed ++ q.writable n := by
  have hw := r_add_fill hp h
  have hfill : Ring.fill { q with w := q.w + n } = q.fill + n := by
    simp only [Ring.fill] at hw ⊢
    omega
  calc Ring.committed { q with w := q.w + n }
      = q.region q.r (q.fill + n) := by rw [← hfill]; rfl
    _ = q.committed ++ q.writable n := by rw [region_add, hw]; rfl

/-- A release drops the oldest positions; the others are less than a capacity away and keep their cells (R74). -/
theorem committed_advanceRead {n : Nat} (hn : n ≤ q.fillCons) :
    Ring.committed { q with cells := releaseCells q.capacity q.r n q.cells, r := q.r + n } = q.committed.drop n := by
  have hfit := fill_add_freeProd_le hp h
  have hle := hn.trans (fillCons_le_fill hp h)
  have hkept : ∀ i < q.fill - n, ∀ j < n, q.cellOf (q.r + n + i) ≠ (q.r + j) % q.capacity := by
    intro i hi j hj
    rw [Nat.add_assoc]
    exact cellOf_ne (by omega) (by omega) (by omega)
  calc Ring.committed { q with cells := releaseCells q.capacity q.r n q.cells, r := q.r + n }
      = Ring.region { q with cells := releaseCells q.capacity q.r n q.cells } (q.r + n) (q.fill - n) := by
        rw [Ring.fill, Nat.sub_sub]; rfl
    _ = q.region (q.r + n) (q.fill - n) := region_congr fun i hi => releaseCells_other (hkept i hi)
    _ = (q.region q.r n ++ q.region (q.r + n) (q.fill - n)).drop n := (List.drop_left' (region_length q q.r n)).symm
    _ = q.committed.drop n := by rw [← region_add, Nat.add_sub_cancel' hle]; rfl

end

/-! ## The payload -/

/-- The bytes CONS loads are the oldest committed ones, in order (43_packetizer.md R203). -/
theorem loads_eq_take {q : Ring} {n : Nat} {bytes : List Byte} (hn : n ≤ q.fill)
    (hb : ringLoadAll 0 n q = .ok bytes) : bytes.map some = q.committed.take n := by
  obtain ⟨hlen, hcells⟩ := ringLoadAll_inv hb
  refine List.ext_getElem (by simp [hlen, committed_length, hn]) fun i hi _ => ?_
  have hi : i < n := by simpa [hlen] using hi
  have hcell := hcells i hi
  rw [Nat.zero_add, List.getElem?_eq_getElem (by omega)] at hcell
  simpa [Ring.committed, Ring.region] using hcell.symm.trans (show q.at (q.readCell i) = q.holds (q.r + i) from rfl)

theorem assembled_length (p : Packetizer) : p.assembled.length = p.filled := by simp [Packetizer.assembled]

theorem assembled_of_empty {p : Packetizer} (h : p.filled = 0) : p.assembled = [] := by
  simp [Packetizer.assembled, h]

/-- What PAYBUF holds after a drain (R203). -/
theorem at_after (p : Packetizer) (bytes : List Byte) (j : Nat) : (p.after bytes).at j =
    if p.filled ≤ j ∧ j < p.filled + bytes.length then bytes[j - p.filled]? else p.at j :=
  readMem_putPayload bytes p.filled j p.paybuf

/-- Bytes put into PAYBUF stand behind those assembled so far (R203, R208). -/
theorem assembled_after (p : Packetizer) (bytes : List Byte) :
    (p.after bytes).assembled = p.assembled ++ bytes.map some := by
  have hold : (List.range p.filled).map (p.after bytes).at = p.assembled :=
    List.map_congr_left fun j hj => by
      have hj : j < p.filled := List.mem_range.1 hj
      rw [at_after, if_neg (by omega)]
  have hnew : (List.range bytes.length).map (fun i => (p.after bytes).at (p.filled + i)) = bytes.map some :=
    List.ext_getElem (by simp) fun i hi _ => by
      have hi : i < bytes.length := by simpa using hi
      simp [at_after, hi]
  calc (p.after bytes).assembled
      = (List.range p.filled).map (p.after bytes).at ++
          (List.range bytes.length).map (fun i => (p.after bytes).at (p.filled + i)) := by
        simp [Packetizer.assembled, Packetizer.after, List.range_add]
    _ = p.assembled ++ bytes.map some := by rw [hold, hnew]

/-- A full payload is the bytes assembled (R205, R208). -/
theorem payload_eq_assembled {s : State} (h : PkInv s.pk) (hs : s.pk.state = .send) :
    s.payload.map some = s.pk.assembled := by
  obtain ⟨-, -, hfull, hbytes⟩ := h
  have hfilled := hfull hs
  rw [State.payload, Packetizer.assembled, List.map_map, hfilled]
  refine List.map_congr_left fun j hj => ?_
  have hj : j < s.pk.filled := hfilled ▸ List.mem_range.1 hj
  obtain ⟨b, hb⟩ := Option.isSome_iff_exists.1 (hbytes j hj)
  simp [State.payloadByte, hb]

/-! ## The pipeline -/

/-- What the bytes on their way are after an operation that steps or holds. -/
def pipelineAfter (i : Instr) (s : State) : List (Option Byte) :=
  match i with
  | .rbAdvanceWrite n => s.pipeline ++ s.ring.writable n
  | .cpCommit => s.pipeline ++ s.ring.writable (s.cp.wf * s.fmt.bpf.toNat)
  | .rbAdvanceRead n => s.pipeline.drop n
  | .pkSend _ => s.pipeline.drop Config.payloadLen
  | .rbCreate _ | .rbDestroy | .ctlReset | .ctlConfigure _ _ _ _ _ => []
  | .pkStop => if s.cp.state = .idle then [] else s.pipeline
  | _ => s.pipeline

section
variable {s : State} (h : Inv s)
include h

/-- In CONFIG no packet is in progress, so the ring is the whole pipeline. -/
theorem pipeline_of_config (hp : s.phase = .config) : s.pipeline = s.ring.committed := by
  obtain ⟨-, -, hfilled⟩ := config_rests h hp
  rw [State.pipeline, assembled_of_empty hfilled, List.nil_append]

/-- Another ring in CONFIG gives its own committed bytes. -/
theorem pipeline_withRing_config (hp : s.phase = .config) (q : Ring) : (withRing s q).pipeline = q.committed := by
  obtain ⟨-, -, hfilled⟩ := config_rests h hp
  rw [State.pipeline, withRing_pk, assembled_of_empty hfilled]
  rfl

/-- PK_DRAIN moves the oldest committed bytes behind those assembled (R203, R209). -/
theorem pipeline_afterDrain (hp : PkIn .drain s) {bytes : List Byte}
    (hb : ringLoadAll 0 s.drainCount s.ring = .ok bytes) : (afterDrain bytes s).pipeline = s.pipeline := by
  obtain ⟨hpresent, -⟩ := running_streams h hp.1
  have hle := (drainCount_le s).trans (fillCons_le_fill hpresent h.ring)
  calc (afterDrain bytes s).pipeline
      = (s.pk.assembled ++ s.ring.committed.take s.drainCount) ++ s.ring.committed.drop s.drainCount := by
        rw [← loads_eq_take hle hb, ← assembled_after, ← committed_advanceRead hpresent h.ring (drainCount_le s)]
        rfl
    _ = s.pipeline := by rw [List.append_assoc, List.take_append_drop]; rfl

/-- In SEND the first 1152 bytes on their way are the packet's payload, the others the ring's (R205, R208). -/
theorem pipeline_of_send (hp : PkIn .send s) :
    s.pipeline.take Config.payloadLen = s.payload.map some ∧ s.pipeline.drop Config.payloadLen = s.ring.committed := by
  obtain ⟨-, -, hfull, -⟩ := h.pk
  have hlen : s.pk.assembled.length = Config.payloadLen := (assembled_length s.pk).trans (hfull hp.2)
  exact ⟨(List.take_left' hlen).trans (payload_eq_assembled h.pk hp.2).symm, List.drop_left' hlen⟩

/-- The effect of every operation on the bytes on their way. -/
theorem pipeline_effect {i : Instr} {s' : State} {r : Result} (he : Effect i s s' r) :
    s'.pipeline = pipelineAfter i s := by
  cases i with
  | rbCreate cap =>
    obtain ⟨hp, -, -, rfl⟩ := he
    exact pipeline_withRing_config h hp _
  | rbDestroy =>
    obtain ⟨hs, rfl⟩ := he
    exact pipeline_withRing_config h hs.1 _
  | rbStore k b =>
    obtain ⟨hs, hk, rfl⟩ := he
    have hstore := committed_stores hs.2 h.ring (l := [(k, b)]) (by simpa using hk)
    exact congrArg (s.pk.assembled ++ ·) hstore
  | cpSubreadHole | cpSubreadAreas =>
    obtain ⟨hc, -, -, hl, rfl⟩ := he
    obtain ⟨hpresent, -⟩ := running_streams h hc.1
    exact congrArg (s.pk.assembled ++ ·) (committed_stores hpresent h.ring hl)
  | rbAdvanceWrite n =>
    obtain ⟨hs, -, rfl⟩ := he
    exact (congrArg (s.pk.assembled ++ ·) (committed_advanceWrite hs.2 h.ring n)).trans (List.append_assoc ..).symm
  | cpCommit =>
    obtain ⟨hc, -, rfl⟩ := he
    obtain ⟨hpresent, -⟩ := running_streams h hc.1
    exact (congrArg (s.pk.assembled ++ ·) (committed_advanceWrite hpresent h.ring _)).trans (List.append_assoc ..).symm
  | rbAdvanceRead n =>
    obtain ⟨hs, hn, rfl⟩ := he
    change _ = s.pipeline.drop n
    rw [pipeline_of_config h hs.1, ← committed_advanceRead hs.2 h.ring hn]
    exact pipeline_withRing_config h hs.1 _
  | pkDrain =>
    obtain ⟨hp, bytes, hb, rfl⟩ := he
    exact pipeline_afterDrain h hp hb
  | pkSend sent =>
    obtain ⟨hp, -, rfl⟩ := he
    exact (pipeline_of_send h hp).2.symm
  | pkStop =>
    obtain ⟨hp, hidle, rfl⟩ := he
    obtain ⟨hempty, -⟩ := h.pk
    have hfilled : s.pk.filled = 0 := hempty (.inr (.inr (.inl hp.2)))
    change s.pk.assembled ++ [] = if s.cp.state = .idle then [] else s.pipeline
    rw [if_pos hidle, assembled_of_empty hfilled, List.nil_append]
  | ctlReset =>
    obtain rfl := he
    rfl
  | ctlConfigure found rate bps cap allocOk =>
    obtain ⟨hp, -, rc, bd, -, -, -, rfl⟩ := he
    exact pipeline_withRing_config h hp ⟨true, _, [], 0, 0, 0, 0⟩
  | rbLoad k =>
    obtain ⟨-, -, -, rfl⟩ := he
    rfl
  | cpInvoke min max =>
    obtain ⟨-, -, -, -, rfl⟩ := he
    rfl
  | cpSubreadErr e => exact he.elim
  | rbCapacity | rbWritePtr | rbFreeCount | rbReadPtr | rbFillCount | rbSyncR2p | rbSyncW2c | cpOvfNotify | pkTop
  | pkPoll | pkWait =>
    obtain ⟨-, rfl⟩ := he
    rfl
  | cpCheck | ctlSocketOpen | ctlStart =>
    obtain ⟨-, -, rfl⟩ := he
    rfl
  | fnRateCode | fnBitDepth | fnBuildHeader | fnDecodeRate | ctlCancel | ctlCsrRead | rate44k1 | rate48k =>
    obtain rfl := he
    rfl

/-- RB_LOAD reads its offset of the queue (20_memory.md R73, 40_ring_buffer.md R129). -/
theorem pipeline_getElem?_of_load {k : Nat} {s' : State} {r : Result} (he : Effect (.rbLoad k) s s' r) :
    s' = s ∧ ∃ b : Byte, s.pipeline[k]? = some (some b) ∧ r = .byte b := by
  obtain ⟨hs, hk, ⟨b, hb, hr⟩, hsame⟩ := he
  refine ⟨hsame, b, ?_, hr⟩
  rw [pipeline_of_config h hs.1, committed_getElem? (hk.trans_le (fillCons_le_fill hs.2 h.ring))]
  exact congrArg some hb

/-- PK_SEND's datagram is the header and then the first 1152 bytes on their way (43_packetizer.md R205, R209). -/
theorem send_takes_payload {sent : Word} {s' : State} {r : Result} (he : Effect (.pkSend sent) s s' r) :
    s'.txLog = s.txLog ++ [⟨s.datagram, sent⟩] ∧
      (s.datagram.drop Config.headerLen).map some = s.pipeline.take Config.payloadLen := by
  obtain ⟨hp, -, rfl⟩ := he
  obtain ⟨htake, -⟩ := pipeline_of_send h hp
  have hdrop : s.datagram.drop Config.headerLen = s.payload := List.drop_left' (l₁ := s.fmt.hdr.bytes) rfl
  exact ⟨rfl, by rw [hdrop, htake]⟩

end

/-- In a live phase an operation that does not raise has its effect, or leaves the bytes on their way: CP_INVOKE while
the stream is stopping, a held PK_STOP. -/
theorem steps_or_waits {i : Instr} {s t : State} (hlive : Alive s) (he : exec i s = .next t) (ht : t.phase ≠ .fatal) :
    (∃ s' r, Effect i s s' r ∧ t = record (originOf i s) (recordOf i) r s') ∨
    (((∃ min max, i = .cpInvoke min max) ∨ (i = .pkStop ∧ s.cp.state ≠ .idle)) ∧ t.pipeline = s.pipeline) := by
  rcases exec_outcomes he with ⟨rfl, hdead | ⟨min, max, rfl, -⟩⟩ | ⟨-, -, x, kept, -, rfl⟩ | ⟨-, -, s', r, heff, rfl⟩ |
    ⟨rfl, -, hbusy, rfl⟩
  · exact absurd hlive hdead
  · exact .inr ⟨.inl ⟨min, max, rfl⟩, rfl⟩
  · exact absurd rfl ht
  · exact .inl ⟨s', r, heff, rfl⟩
  · exact .inr ⟨.inr ⟨rfl, hbusy⟩, rfl⟩

/-- Settles O51, from the effect of each operation on the bytes on their way. -/
theorem streamIsAQueue : Obligations.StreamIsAQueue := by
  intro i s t h hlive hexec hfatal
  rcases steps_or_waits hlive hexec hfatal with ⟨s', r, heff, rfl⟩ | ⟨⟨min, max, rfl⟩ | ⟨rfl, hbusy⟩, hsame⟩
  · have hqueue := pipeline_effect h heff
    cases i with
    | pkSend sent =>
      obtain ⟨hlog, hpayload⟩ := send_takes_payload h heff
      exact ⟨hqueue, _, hlog, rfl, hpayload⟩
    | rbLoad k =>
      obtain ⟨rfl, b, hb, rfl⟩ := pipeline_getElem?_of_load h heff
      exact ⟨rfl, b, hb, rfl⟩
    | _ => exact hqueue
  · exact hsame
  · exact hsame.trans (if_neg hbusy).symm

end Sys2Proof.Machine
end

section
/-! That the two view copies, issued fairly, catch up with the cursors (20_memory.md R73, R74, R78): a run issues decoded
operations or reserved codes, no cursor goes back while the ring lives on, and a copy takes its cursor. -/

namespace Sys2Proof.Machine

open Sys2Proof

/-- The state in which an agent's issued operation runs. -/
def withIssuer (a : Agent) (s : State) : State := { s with env := { s.env with issuer := a } }

@[simp] theorem withIssuer_ring (a : Agent) (s : State) : (withIssuer a s).ring = s.ring := rfl

/-- A transaction that an agent issues runs as its instruction, or is a reserved code's ILLEGAL_OP. -/
theorem moves_cases {s s' : State} {a : Agent} {t : Txn} (h : Moves s a t s') :
    (∃ i, decodeTxn t = .ok i ∧ exec i (withIssuer a s) = .next s') ∨
    ((∃ c, decodeTxn t = .error (.reserved c)) ∧ s' = illegalOp t (withIssuer a s)) := by
  have hstep : step (issueNext s a t) = .next s' := h
  cases hd : decodeTxn t with
  | ok i => exact .inl ⟨i, rfl, (step_issueNext hd).symm.trans hstep⟩
  | error e =>
    cases e with
    | reserved c =>
      rw [step_agent_of_reserved (s := issueNext s a t) rfl (pendingOf_setPending _ _ _) hd] at hstep
      injection hstep with hstep
      exact .inr ⟨⟨c, rfl⟩, by rw [← hstep]; simp [takeTurn, issueNext, withIssuer]⟩
    | missingOperand name | extraOperand name | operandRange name =>
      simp [step, fetch_agent (s := issueNext s a t) rfl (pendingOf_setPending _ _ _), fetchTxn, decode, hd] at hstep

/-- A transaction whose code takes no operand moves as its instruction (30_encoding.md R93). -/
theorem exec_of_moves {s s' : State} {a : Agent} {t : Txn} {i : Instr} (h : Moves s a t s')
    (hd : decodeTxn t = endOf i t.operands) : exec i (withIssuer a s) = .next s' := by
  rcases moves_cases h with ⟨j, hj, he⟩ | ⟨⟨c, hc⟩, -⟩
  · obtain ⟨-, rfl⟩ := endOf_inv (hd.symm.trans hj)
    exact he
  · exact absurd (hd.symm.trans hc) endOf_ne_reserved

/-- RB_SYNC_R2P, issued by PROD, takes `R` (40_ring_buffer.md R131). -/
theorem rp_of_syncR2p {s s' : State} {t : Txn} (h : Moves s .prod t s') (hc : t.code = (recordOf .rbSyncR2p).code)
    (hs : Syncable s) : s'.ring.rp = s.ring.r := by
  have he := exec_of_moves (i := .rbSyncR2p) h (by rw [decodeTxn, hc]; rfl)
  have hruns := exec_runs (i := .rbSyncR2p) (s := withIssuer .prod s) rfl (alive_iff.1 hs.2) rfl (syncable_iff.2 hs)
  injection hruns.symm.trans he with hleft
  rw [← hleft]
  rfl

/-- RB_SYNC_W2C, issued by CONS, takes `W` (R132). -/
theorem wc_of_syncW2c {s s' : State} {t : Txn} (h : Moves s .cons t s') (hc : t.code = (recordOf .rbSyncW2c).code)
    (hs : Syncable s) : s'.ring.wc = s.ring.w := by
  have he := exec_of_moves (i := .rbSyncW2c) h (by rw [decodeTxn, hc]; rfl)
  have hruns := exec_runs (i := .rbSyncW2c) (s := withIssuer .cons s) rfl (alive_iff.1 hs.2) rfl (syncable_iff.2 hs)
  injection hruns.symm.trans he with hleft
  rw [← hleft]
  rfl

/-- No cursor goes back from one ring to the next. -/
def CursorsKept (q u : Ring) : Prop := q.w ≤ u.w ∧ q.r ≤ u.r

theorem cursorsKept_refl (q : Ring) : CursorsKept q q := ⟨le_rfl, le_rfl⟩

/-- An effect that has a ring before and after moves its cursors forward at most. -/
theorem effect_cursors {i : Instr} {s s' : State} {r : Result} (he : Effect i s s' r) (hp : s.ring.present = true)
    (hp' : s'.ring.present = true) : CursorsKept s.ring s'.ring := by
  cases i with
  | rbAdvanceRead n =>
    obtain ⟨-, -, rfl⟩ := he
    exact ⟨le_rfl, Nat.le_add_right _ _⟩
  | rbAdvanceWrite | cpCommit =>
    obtain ⟨-, -, rfl⟩ := he
    exact ⟨Nat.le_add_right _ _, le_rfl⟩
  | pkDrain =>
    obtain ⟨-, bytes, -, rfl⟩ := he
    exact ⟨le_rfl, Nat.le_add_right _ _⟩
  | rbCreate | ctlConfigure =>
    obtain ⟨-, habsent, -⟩ := he
    exact absurd hp (by simp [habsent])
  | rbDestroy =>
    obtain ⟨-, rfl⟩ := he
    cases hp'
  | pkStop =>
    obtain ⟨-, -, rfl⟩ := he
    cases hp'
  | ctlReset =>
    obtain rfl := he
    cases hp'
  | cpSubreadErr e => exact he.elim
  | fnRateCode | fnBitDepth | fnBuildHeader | fnDecodeRate | ctlCancel | ctlCsrRead | rate44k1 | rate48k =>
    obtain rfl := he
    exact cursorsKept_refl _
  | rbCapacity | rbWritePtr | rbFreeCount | rbReadPtr | rbFillCount | rbSyncR2p | rbSyncW2c | cpOvfNotify | pkTop
  | pkPoll | pkWait =>
    obtain ⟨-, rfl⟩ := he
    exact cursorsKept_refl _
  | rbStore | cpCheck | pkSend | ctlSocketOpen | ctlStart =>
    obtain ⟨-, -, rfl⟩ := he
    exact cursorsKept_refl _
  | rbLoad =>
    obtain ⟨-, -, -, rfl⟩ := he
    exact cursorsKept_refl _
  | cpInvoke | cpSubreadHole | cpSubreadAreas =>
    obtain ⟨-, -, -, -, rfl⟩ := he
    exact cursorsKept_refl _

/-- A raise keeps the ring as it was. -/
theorem kept_ring {i : Instr} {s kept : State} {x : Raise} (h : Kept i s kept x) : kept.ring = s.ring := by
  rcases h with rfl | ⟨_, -, -, -, -, rfl⟩
  · rfl
  · rfl

theorem exec_cursors {i : Instr} {s t : State} (h : exec i s = .next t) (hp : s.ring.present = true)
    (hp' : t.ring.present = true) : CursorsKept s.ring t.ring := by
  rcases exec_outcomes h with ⟨rfl, -⟩ | ⟨-, -, x, kept, hkept, rfl⟩ | ⟨-, -, s', r, heff, rfl⟩ | ⟨-, -, -, rfl⟩
  · exact cursorsKept_refl _
  · rw [record_ring, trapEntry_ring, kept_ring hkept]
    exact cursorsKept_refl _
  · exact effect_cursors (s' := s') heff hp hp'
  · exact cursorsKept_refl _

theorem illegalOp_ring (t : Txn) (s : State) : (illegalOp t s).ring = s.ring := by
  unfold illegalOp
  split <;> rfl

theorem moves_cursors {s s' : State} {a : Agent} {t : Txn} (h : Moves s a t s') (hp : s.ring.present = true)
    (hp' : s'.ring.present = true) : CursorsKept s.ring s'.ring := by
  rcases moves_cases h with ⟨i, -, he⟩ | ⟨-, rfl⟩
  · exact exec_cursors (s := withIssuer a s) he hp hp'
  · rw [illegalOp_ring]
    exact cursorsKept_refl _

/-- Along a run in which the ring lives on no cursor goes back. -/
theorem run_cursors {state : Nat → State} {issued : Nat → Agent × Txn} {n m : Nat} (hrun : IsRun state issued)
    (hp : ∀ m, n ≤ m → (state m).ring.present = true) (hm : n ≤ m) :
    CursorsKept (state n).ring (state m).ring := by
  induction m, hm using Nat.le_induction with
  | base => exact cursorsKept_refl _
  | succ m hm ih =>
    obtain ⟨hw, hr⟩ := moves_cursors (hrun m) (hp m hm) (hp (m + 1) (by omega))
    exact ⟨ih.1.trans hw, ih.2.trans hr⟩

/-- Settles O54: fairness gives the copy, which takes a cursor that has not gone back since. -/
theorem viewsCatchUp : Obligations.ViewsCatchUp := by
  intro state issued n hrun hfair _ hsync _
  obtain ⟨hfairR2p, hfairW2c⟩ := hfair
  have hcursors {m : Nat} (hm : n ≤ m) := run_cursors hrun (fun m hm => (hsync m hm).1) hm
  constructor
  · obtain ⟨m, hm, ha, hc⟩ := hfairW2c n hsync
    have hmove := hrun m
    rw [ha] at hmove
    refine ⟨m + 1, by omega, ?_⟩
    rw [wc_of_syncW2c hmove hc (hsync m hm)]
    exact (hcursors hm).1
  · obtain ⟨m, hm, ha, hc⟩ := hfairR2p n hsync
    have hmove := hrun m
    rw [ha] at hmove
    refine ⟨m + 1, by omega, ?_⟩
    rw [rp_of_syncR2p hmove hc (hsync m hm)]
    exact (hcursors hm).2

end Sys2Proof.Machine
end

section
/-! The decoder and the encoder are inverse to each other, and the decoder accepts R93's table and no more
(30_encoding.md R90–R106). -/

namespace Sys2Proof

/-! ## Operations: what the encoder writes is read back -/

theorem ok_bind {α β : Type} (a : α) (f : α → Except DecodeError β) : (.ok a >>= f) = f a := rfl

/-- The decoder reads an operation back from its record. -/
theorem decodeTxn_recordOf {i : Instr} (h : i.isWire = false) : decodeTxn (recordOf i) = .ok i := by
  cases i with
  | rbCapacity | rbWritePtr | rbFreeCount | rbSyncR2p | rbReadPtr | rbFillCount | rbSyncW2c | rbDestroy
  | cpCheck | cpCommit | cpOvfNotify | pkTop | pkPoll | pkDrain | pkWait | pkStop | ctlReset | ctlCancel => rfl
  | rbCreate | rbStore | rbAdvanceWrite | rbLoad | rbAdvanceRead | cpInvoke | cpSubreadHole | cpSubreadAreas
  | cpSubreadErr | fnRateCode | fnBitDepth | fnBuildHeader | fnDecodeRate | pkSend | ctlConfigure | ctlSocketOpen
  | ctlStart | ctlCsrRead =>
    simp [decodeTxn, recordOf, unitOf, fnOf, takeNat_field, takeBits_field, takeBit_field, ok_bind, endOf]
  | rate44k1 | rate48k => cases h

/-! ## Operations: what is read is what the encoder writes -/

theorem bind_eq_ok_iff {α β : Type} {x : Except DecodeError α} {f : α → Except DecodeError β} {b : β} :
    (x >>= f) = .ok b ↔ ∃ a, x = .ok a ∧ f a = .ok b :=
  ⟨except_bind_inv, fun ⟨_, hx, hf⟩ => hx ▸ hf⟩

theorem takeNat_eq_ok_iff {name : OperandName} {os rest : List Operand} {v : Nat} :
    takeNat name os = .ok (v, rest) ↔ os = ⟨name, v⟩ :: rest :=
  ⟨takeNat_inv, fun h => h ▸ takeNat_field name v rest⟩

theorem takeBits_eq_ok_iff {name : OperandName} {w : Nat} {os rest : List Operand} {v : BitVec w} :
    takeBits name w os = .ok (v, rest) ↔ os = ⟨name, v.toNat⟩ :: rest :=
  ⟨takeBits_inv, fun h => h ▸ takeBits_field name v rest⟩

theorem takeBit_eq_ok_iff {name : OperandName} {os rest : List Operand} {v : Bool} :
    takeBit name os = .ok (v, rest) ↔ os = ⟨name, bitValue v⟩ :: rest :=
  ⟨takeBit_inv, fun h => h ▸ takeBit_field name v rest⟩

theorem endOf_eq_ok_iff {i j : Instr} {os : List Operand} : endOf i os = .ok j ↔ os = [] ∧ j = i :=
  ⟨endOf_inv, by rintro ⟨rfl, rfl⟩; rfl⟩

/-- An operation is read from the one transaction that encodes it. -/
theorem encode_of_decodeTxn {t : Txn} {i : Instr} (h : decodeTxn t = .ok i) : encode i = .txn t := by
  have hcode := code_of_decodeTxn h
  obtain ⟨c, os⟩ := t
  unfold decodeTxn at h
  split at h
  case h_37 => cases h
  all_goals
    revert h
    simp only [bind_eq_ok_iff, Prod.exists, takeNat_eq_ok_iff, takeBits_eq_ok_iff, takeBit_eq_ok_iff,
      endOf_eq_ok_iff, forall_exists_index, and_imp]
    intros
    subst_vars
    rfl

/-! ## Operations: the records that are accepted -/

/-- A reader reads a field: it succeeds on the records that begin with the field, and leaves what follows it. -/
def Reads {α : Type} (read : List Operand → Except DecodeError (α × List Operand)) (f : OperandField) : Prop :=
  ∀ fs os, recordMatches (f :: fs) os = true ↔ ∃ a rest, read os = .ok (a, rest) ∧ recordMatches fs rest = true

theorem recordMatches_cons_iff {f : OperandField} {fs : List OperandField} {os : List Operand} :
    recordMatches (f :: fs) os = true ↔
      ∃ v rest, os = ⟨f.name, v⟩ :: rest ∧ f.width.admits v = true ∧ recordMatches fs rest = true := by
  refine ⟨recordMatches_cons_inv, ?_⟩
  rintro ⟨v, rest, rfl, hv, hrest⟩
  simp [recordMatches, hv, hrest]

theorem takeNat_reads (name : OperandName) : Reads (takeNat name) ⟨name, .nat⟩ := by
  intro fs os
  simp [recordMatches_cons_iff, takeNat_eq_ok_iff, OperandWidth.admits]

theorem takeBits_reads (name : OperandName) (w : Nat) : Reads (takeBits name w) ⟨name, .bits w⟩ := by
  intro fs os
  rw [recordMatches_cons_iff]
  constructor
  · rintro ⟨v, rest, rfl, hv, hrest⟩
    exact ⟨_, rest, takeBits_lt name (by simpa [OperandWidth.admits] using hv) rest, hrest⟩
  · rintro ⟨v, rest, hread, hrest⟩
    exact ⟨v.toNat, rest, takeBits_inv hread, Laws.RecordFits.fits_bits v, hrest⟩

theorem takeBit_reads (name : OperandName) : Reads (takeBit name) ⟨name, .bits 1⟩ := by
  intro fs os
  rw [recordMatches_cons_iff]
  constructor
  · rintro ⟨v, rest, rfl, hv, hrest⟩
    exact ⟨_, rest, takeBit_lt name (by simpa [OperandWidth.admits] using hv) rest, hrest⟩
  · rintro ⟨v, rest, hread, hrest⟩
    exact ⟨bitValue v, rest, takeBit_inv hread, Laws.RecordFits.fits_bit v, hrest⟩

/-- A reader in front of a decoder of the fields that follow. -/
theorem accepts_bind {α : Type} {read : List Operand → Except DecodeError (α × List Operand)} {f : OperandField}
    {fs : List OperandField} {g : α × List Operand → Except DecodeError Instr} {os : List Operand}
    (hg : ∀ a rest, (∃ i, g (a, rest) = .ok i) ↔ recordMatches fs rest = true) (hread : Reads read f) :
    (∃ i, (read os >>= g) = .ok i) ↔ recordMatches (f :: fs) os = true := by
  rw [hread fs os]
  constructor
  · rintro ⟨i, h⟩
    obtain ⟨⟨a, rest⟩, hr, hi⟩ := except_bind_inv h
    exact ⟨a, rest, hr, (hg a rest).1 ⟨i, hi⟩⟩
  · rintro ⟨a, rest, hr, hrest⟩
    rw [hr]
    exact (hg a rest).2 hrest

theorem accepts_endOf {i : Instr} {os : List Operand} : (∃ j, endOf i os = .ok j) ↔ recordMatches [] os = true := by
  cases os <;> simp [endOf, recordMatches]

/-- A transaction of an assigned code is accepted where its record has the code's fields (R93). -/
theorem decodeTxn_accepts_iff {t : Txn} {fs : List OperandField} (h : operandFields t.code = some fs) :
    (∃ i, decodeTxn t = .ok i) ↔ recordMatches fs t.operands = true := by
  unfold operandFields at h
  split at h
  case h_37 => cases h
  all_goals
    rename_i hu hf
    obtain rfl := Option.some.inj h
    simp only [decodeTxn, hu, hf]
    repeat refine accepts_bind (fun _ _ => ?_) ?_
    all_goals simp only [takeNat_reads, takeBits_reads, takeBit_reads, accepts_endOf]

/-- A code that R93's table does not have is reserved, whatever its operands (R95). -/
theorem decodeTxn_of_reserved {t : Txn} (h : operandFields t.code = none) :
    decodeTxn t = .error (.reserved t.code) := by
  unfold decodeTxn
  split
  case h_37 => rfl
  all_goals
    rename_i hu hf
    simp [operandFields, hu, hf] at h

/-! ## Wire bytes -/

theorem cons_multOf (b : Byte) : BitVec.ofBool (b.getLsbD 7) ++ multOf b = b := by
  simpa [BitVec.cons, multOf, BitVec.msb_eq_getLsbD_last] using BitVec.cons_msb_setWidth b

theorem encode_decodeWire (b : Byte) : encode (decodeWire b) = .wire b := by
  have hb := cons_multOf b
  unfold decodeWire
  split
  case isTrue h =>
    rw [h] at hb
    exact congrArg Encoded.wire hb
  case isFalse h =>
    rw [Bool.eq_false_iff.2 h] at hb
    exact congrArg Encoded.wire hb

theorem multOf_append (f : BitVec 1) (m : BitVec 7) : multOf (f ++ m) = m := BitVec.setWidth_append_eq_right

theorem getLsbD_append_family (f : BitVec 1) (m : BitVec 7) : (f ++ m).getLsbD 7 = f.getLsbD 0 := by
  rw [BitVec.getLsbD_append]
  rfl

theorem decodeWire_recordOf {i : Instr} (h : i.isWire = true) : decodeWire (recordOf i).code = i := by
  cases i with
  | rate44k1 m | rate48k m =>
    rw [decodeWire, recordOf, multOf_append, getLsbD_append_family]
    rfl
  | _ => cases h

/-! ## The statements -/

/-- Settles O1: an operation is read back from its record, a wire pattern from its byte. -/
theorem decodeOfEncode : Obligations.DecodeOfEncode := by
  intro i _
  cases h : i.isWire with
  | false =>
    rw [encode, h]
    exact decodeTxn_recordOf h
  | true =>
    rw [encode, h]
    exact congrArg Except.ok (decodeWire_recordOf h)

/-- Settles O2: an operation comes from its record alone, a wire pattern from its byte alone. -/
theorem encodeOfDecode : Obligations.EncodeOfDecode := by
  intro x i h
  cases x with
  | txn t => exact encode_of_decodeTxn h
  | wire b =>
    obtain rfl : decodeWire b = i := Except.ok.inj h
    exact encode_decodeWire b

/-- Settles O3, by whether the table has the code. -/
theorem decoderAcceptsExactlyTheTable : Obligations.DecoderAcceptsExactlyTheTable := by
  intro t
  constructor
  · cases h : operandFields t.code with
    | none => simp [decode, Txn.wellFormed, h, decodeTxn_of_reserved h]
    | some fs => simpa [decode, Txn.wellFormed, h] using decodeTxn_accepts_iff h
  · refine ⟨fun h => ?_, decodeTxn_of_reserved⟩
    by_contra hc
    exact decodeTxn_ne_reserved hc h

/-- Settles O5: each word is the one the encoder writes for its instruction. -/
theorem decodedWords : Obligations.DecodedWords :=
  ⟨decodeOfEncode (.rbStore 3 0x11#8) rfl, decodeOfEncode (.cpInvoke 288 288) rfl,
    decodeOfEncode (.fnBuildHeader 44100#32 2#8) rfl, decodeOfEncode (.pkSend 1157#32) rfl,
    decodeOfEncode (.ctlConfigure true 44100#32 2#8 2048#32 true) rfl, decodeOfEncode (.rate44k1 2#7) rfl,
    decodeOfEncode (.rate48k 1#7) rfl⟩

end Sys2Proof
end

section
/-! What a reserved code and a wire byte come to when they are executed (30_encoding.md R95, R106). -/

namespace Sys2Proof.Machine

open Sys2Proof

/-- The codes without a row in R93's table are the ranges of R95: the 256 codes, one by one. -/
theorem operandFields_eq_none_iff : ∀ c : Byte, operandFields c = none ↔
    (0x0D ≤ c.toNat ∧ c.toNat ≤ 0x1F) ∨ (0x27 ≤ c.toNat ∧ c.toNat ≤ 0x3F) ∨ (0x44 ≤ c.toNat ∧ c.toNat ≤ 0x5F) ∨
    (0x66 ≤ c.toNat ∧ c.toNat ≤ 0x7F) ∨ 0x86 ≤ c.toNat := by decide

theorem illegalOp_alive {s : State} (t : Txn) (h : Alive s) : illegalOp t s =
    record (.agent s.env.issuer) t (.raised ⟨.illegalOp, zextByte t.code⟩)
      (trapEntry ⟨.illegalOp, zextByte t.code⟩ s) := by
  simp [illegalOp, alive_iff.1 h, settle_raise]

theorem illegalOp_dead {s : State} (t : Txn) (h : ¬ Alive s) :
    illegalOp t s = record (.agent s.env.issuer) t .noStep s := by
  simp [illegalOp, not_alive_iff.1 h, settle_noStep]

/-- An issued reserved code is ILLEGAL_OP's at the next step. -/
theorem step_issueNext_of_reserved {t : Txn} (s : State) (a : Agent) (h : operandFields t.code = none) :
    step (issueNext s a t) = .next (illegalOp t (withIssuer a s)) := by
  rw [step_agent_of_reserved (s := issueNext s a t) rfl (pendingOf_setPending _ _ _) (decodeTxn_of_reserved h)]
  simp [takeTurn, issueNext, withIssuer]

/-- Settles O4: the step is ILLEGAL_OP's, which a dead phase leaves out. -/
theorem reservedCodesRaise : Obligations.ReservedCodesRaise := by
  refine ⟨operandFields_eq_none_iff, fun s a t hc => ?_⟩
  rw [step_issueNext_of_reserved s a hc]
  exact ⟨fun h => congrArg _ (illegalOp_alive (s := withIssuer a s) t h),
    fun h => congrArg _ (illegalOp_dead (s := withIssuer a s) t h)⟩

theorem readWire_alive {s : State} (i : Instr) (rate : Nat) (h : Alive s) :
    readWire i rate s = .next (record .wire (recordOf i) (.fnRate (.ok rate)) s) := by
  simp [readWire, alive_iff.1 h]

theorem readWire_dead {s : State} (i : Instr) (rate : Nat) (h : ¬ Alive s) :
    readWire i rate s = .next (record .wire (recordOf i) .noStep s) := by
  simp [readWire, not_alive_iff.1 h]

/-- Settles O24: the reader of a wire byte returns the rate of the byte's family. -/
theorem wirePatternsAreRates : Obligations.WirePatternsAreRates := fun m _ =>
  ⟨fun h => ⟨readWire_alive (.rate44k1 m) (familyRate true m) h, readWire_alive (.rate48k m) (familyRate false m) h⟩,
    fun h => ⟨readWire_dead (.rate44k1 m) (familyRate true m) h, readWire_dead (.rate48k m) (familyRate false m) h⟩⟩

end Sys2Proof.Machine
end

section
/-! What a RB operation comes to when its owner issues it (40_ring_buffer.md R120–R133), after the checks of
60_exceptions.md R268; a full ring and an empty one reject what they must (R137). -/

namespace Sys2Proof.Machine

open Sys2Proof

variable {s : State} {i : Instr}

/-! ## Owners, and operations that pass their checks -/

theorem mayIssue_iff_owner {c : Byte} {o : Agent} (h : ownerOf c = some o) (a : Agent) :
    mayIssue c a = true ↔ a ∈ [o] := by
  simp [mayIssue, h]

theorem mayIssue_iff_anyAgent {c : Byte} (h : ownerOf c = none) (a : Agent) :
    mayIssue c a = true ↔ a ∈ everyAgent := by
  cases a <;> simp [mayIssue, h]

/-- An agent that the opcode table names as the owner may issue the operation (R271). -/
theorem owned_of_issuer {a : Agent} (c : Byte) (h : s.env.issuer = a) (hcode : (recordOf i).code = c)
    (ho : ownerOf c = some a) : Owned i s := by
  rw [Owned, h, hcode]
  exact mayIssue_owner ho

/-- A direct data operation of one owner passes the checks of R268, its guard that of R120. -/
theorem checksFirst_standalone {code : Byte} {o : Agent} {body : State → Act} (ho : ownerOf code = some o)
    (hexec : ∀ s, exec i s = issue i s.standalone (body s) s) (hcode : (recordOf i).code = code) :
    ChecksFirst i code [o] Standalone :=
  checksFirst_of_issue hexec hcode (mayIssue_iff_owner ho) fun _ _ => standalone_iff

/-- A view copy passes the checks of R268, its guard that of R120. -/
theorem checksFirst_syncable {code : Byte} {o : Agent} {body : State → Act} (ho : ownerOf code = some o)
    (hexec : ∀ s, exec i s = issue i s.syncable (body s) s) (hcode : (recordOf i).code = code) :
    ChecksFirst i code [o] Syncable :=
  checksFirst_of_issue hexec hcode (mayIssue_iff_owner ho) fun _ _ => syncable_iff

section
variable {g : Bool} {body : Act} (hexec : exec i s = issue i g body s) (hlive : isDead s.phase = false)
  (hown : Owned i s) (hguard : g = true)
include hexec hlive hown hguard

/-- Its checks passed, an operation whose statements step leaves their state. -/
theorem exec_steps {s' : State} {r : Result} (hbody : body = .done s' r) :
    exec i s = .next (stepped i s r s') := by
  rw [exec_runs hexec hlive hown hguard, hbody]
  rfl

/-- Its checks passed, an operation whose statements raise traps. -/
theorem exec_raises {x : Raise} (hbody : body = .raise s x) : exec i s = .next (trapped i s x) := by
  rw [exec_runs hexec hlive hown hguard, hbody]
  rfl

end

section
variable {body : Act} (hs : Standalone s) (hown : Owned i s) (hexec : exec i s = issue i s.standalone body s)
include hs hown hexec

theorem standalone_steps {s' : State} {r : Result} (hbody : body = .done s' r) :
    exec i s = .next (stepped i s r s') :=
  exec_steps hexec hs.alive hown (standalone_iff.2 hs) hbody

theorem standalone_raises {x : Raise} (hbody : body = .raise s x) : exec i s = .next (trapped i s x) :=
  exec_raises hexec hs.alive hown (standalone_iff.2 hs) hbody

end

/-! ## The producer's direct operations -/

section
variable (hs : Standalone s) (hi : s.env.issuer = .prod)
include hs hi

theorem rbStore_steps {k : Nat} (b : Byte) (hk : k < s.ring.freeProd) :
    exec (.rbStore k b) s = .next (stepped (.rbStore k b) s .nothing
      { s with ring := { s.ring with cells := writeMem .ring s.ring.cells (s.ring.writeCell k) (some b) } }) :=
  standalone_steps hs (owned_of_issuer 0x04#8 hi rfl rfl) rfl (by rw [ringStore_ok hk]; rfl)

theorem rbStore_raises {k : Nat} (b : Byte) (hk : s.ring.freeProd ≤ k) :
    exec (.rbStore k b) s = .next (trapped (.rbStore k b) s ⟨.storeRange, lowWord k⟩) :=
  standalone_raises hs (owned_of_issuer 0x04#8 hi rfl rfl) rfl (by rw [ringStore_raises hk]; rfl)

theorem rbAdvanceWrite_steps {n : Nat} (hn : n ≤ s.ring.freeProd) :
    exec (.rbAdvanceWrite n) s =
      .next (stepped (.rbAdvanceWrite n) s .nothing { s with ring := { s.ring with w := s.ring.w + n } }) :=
  standalone_steps hs (owned_of_issuer 0x05#8 hi rfl rfl) rfl (by rw [ringAdvanceWrite_ok hn]; rfl)

theorem rbAdvanceWrite_raises {n : Nat} (hn : s.ring.freeProd < n) :
    exec (.rbAdvanceWrite n) s = .next (trapped (.rbAdvanceWrite n) s ⟨.advWriteRange, lowWord n⟩) :=
  standalone_raises hs (owned_of_issuer 0x05#8 hi rfl rfl) rfl (by rw [ringAdvanceWrite_raises hn]; rfl)

end

/-! ## The consumer's direct operations -/

section
variable (hs : Standalone s) (hi : s.env.issuer = .cons)
include hs hi

theorem rbLoad_steps {k : Nat} {b : Byte} (hk : k < s.ring.fillCons) (hb : s.ring.at (s.ring.readCell k) = some b) :
    exec (.rbLoad k) s = .next (stepped (.rbLoad k) s (.byte b) s) :=
  standalone_steps hs (owned_of_issuer 0x09#8 hi rfl rfl) rfl (by rw [ringLoad_ok hk hb])

theorem rbLoad_raises_of_empty_cell {k : Nat} (hk : k < s.ring.fillCons)
    (hb : s.ring.at (s.ring.readCell k) = none) :
    exec (.rbLoad k) s = .next (trapped (.rbLoad k) s ⟨.loadUnwritten, lowWord (s.ring.r + k)⟩) :=
  standalone_raises hs (owned_of_issuer 0x09#8 hi rfl rfl) rfl (by rw [ringLoad_unwritten hk hb])

theorem rbLoad_raises {k : Nat} (hk : s.ring.fillCons ≤ k) :
    exec (.rbLoad k) s = .next (trapped (.rbLoad k) s ⟨.loadRange, lowWord k⟩) :=
  standalone_raises hs (owned_of_issuer 0x09#8 hi rfl rfl) rfl (by rw [ringLoad_raises hk])

theorem rbAdvanceRead_steps {n : Nat} (hn : n ≤ s.ring.fillCons) :
    exec (.rbAdvanceRead n) s = .next (stepped (.rbAdvanceRead n) s .nothing
      { s with ring := { s.ring with
        cells := releaseCells s.ring.capacity s.ring.r n s.ring.cells, r := s.ring.r + n } }) :=
  standalone_steps hs (owned_of_issuer 0x0A#8 hi rfl rfl) rfl (by rw [ringAdvanceRead_ok hn]; rfl)

theorem rbAdvanceRead_raises {n : Nat} (hn : s.ring.fillCons < n) :
    exec (.rbAdvanceRead n) s = .next (trapped (.rbAdvanceRead n) s ⟨.advReadRange, lowWord n⟩) :=
  standalone_raises hs (owned_of_issuer 0x0A#8 hi rfl rfl) rfl (by rw [ringAdvanceRead_raises hn]; rfl)

end

/-! ## Full and empty -/

section
variable {q : Ring} (hp : q.present = true) (h : RingInv q)
include hp h

/-- PROD's view of a full ring has no free byte: the view is never ahead of `R`. -/
theorem freeProd_of_full (hfull : q.w - q.r = q.capacity) : q.freeProd = 0 := by
  rw [ringInv_iff hp] at h
  simp only [Ring.freeProd]
  omega

/-- CONS's view of an empty ring has no byte: the view is never ahead of `W`. -/
theorem fillCons_of_empty (hempty : q.w = q.r) : q.fillCons = 0 := by
  rw [ringInv_iff hp] at h
  simp only [Ring.fillCons]
  omega

/-- Empty and full are a capacity apart, which is not 0. -/
theorem not_empty_of_full (hfull : q.w - q.r = q.capacity) : q.w ≠ q.r := by
  have := capacity_pos hp h
  omega

theorem w_of_full (hfull : q.w - q.r = q.capacity) : q.w = q.r + q.capacity := by
  have := capacity_pos hp h
  omega

end

/-! ## The statements -/

/-- Settles O48: full leaves PROD's view no free byte, empty leaves CONS's view none to take. -/
theorem emptyAndFullAreDistinct : Obligations.EmptyAndFullAreDistinct := by
  intro s hs h
  refine ⟨fun ⟨hempty, hfull⟩ => not_empty_of_full hs.2 h hfull hempty, ?_, fun hfull hi => ?_, fun hempty hi => ?_⟩
  · rintro (hempty | hfull)
    · rw [hempty]
    · rw [w_of_full hs.2 h hfull, Nat.add_mod_right]
  · have hfree := freeProd_of_full hs.2 h hfull
    exact ⟨fun k b => rbStore_raises hs hi b (by omega), fun n hn => rbAdvanceWrite_raises hs hi (by omega)⟩
  · have hfill := fillCons_of_empty hs.2 h hempty
    exact ⟨fun k => rbLoad_raises hs hi (by omega), fun n hn => rbAdvanceRead_raises hs hi (by omega)⟩

/-- Settles O8: the guard here is that there is no ring yet. -/
theorem rbCreateMakesAnEmptyRing : Obligations.RbCreateMakesAnEmptyRing := by
  refine fun cap => ⟨checksFirst_of_issue (fun _ => rfl) rfl (mayIssue_iff_owner rfl) fun _ _ => creatable_iff,
    fun s hi hp habsent => ?_⟩
  have hlive := alive_iff.1 (.inl hp)
  have hown : Owned (.rbCreate cap) s := owned_of_issuer 0x00#8 hi rfl rfl
  have hguard := creatable_iff.2 ⟨hp, habsent⟩
  constructor
  · intro hcap
    exact ⟨_, exec_steps rfl hlive hown hguard (by rw [ringCreate_ok hcap]; rfl), rfl, rfl, rfl, rfl, rfl, rfl,
      fun _ => rfl⟩
  · rintro rfl
    exact exec_raises rfl hlive hown hguard (by rw [ringCreate_raises]; rfl)

/-- Settles O9. -/
theorem rbQueriesReturnTheCounts : Obligations.RbQueriesReturnTheCounts := by
  refine ⟨⟨checksFirst_of_issue (fun _ => rfl) rfl (mayIssue_iff_anyAgent rfl) fun _ _ => standalone_iff,
    checksFirst_standalone rfl (fun _ => rfl) rfl, checksFirst_standalone rfl (fun _ => rfl) rfl,
    checksFirst_standalone rfl (fun _ => rfl) rfl, checksFirst_standalone rfl (fun _ => rfl) rfl⟩, fun s hs _ => ?_⟩
  refine ⟨standalone_steps hs (mayIssue_any rfl _) rfl rfl, fun hi => ⟨?_, ?_⟩, fun hi => ⟨?_, ?_⟩⟩
  all_goals exact standalone_steps hs (owned_of_issuer _ hi rfl rfl) rfl rfl

/-- Settles O10: the cell of the offset is written, whatever its number. -/
theorem rbStoreWritesOneCell : Obligations.RbStoreWritesOneCell := fun _ b =>
  ⟨checksFirst_standalone rfl (fun _ => rfl) rfl, fun _ hi hs _ =>
    ⟨fun hk => ⟨_, rbStore_steps hs hi b hk, fun cell => readMem_writeMem_some .ring rfl _ _ cell b⟩,
      rbStore_raises hs hi b⟩⟩

/-- Settles O11. -/
theorem rbAdvanceWriteMovesW : Obligations.RbAdvanceWriteMovesW := fun _ =>
  ⟨checksFirst_standalone rfl (fun _ => rfl) rfl, fun _ hi hs _ =>
    ⟨rbAdvanceWrite_steps hs hi, rbAdvanceWrite_raises hs hi⟩⟩

/-- Settles O12. -/
theorem rbLoadReturnsTheByte : Obligations.RbLoadReturnsTheByte := fun _ =>
  ⟨checksFirst_standalone rfl (fun _ => rfl) rfl, fun _ hi hs _ =>
    ⟨fun _ => rbLoad_steps hs hi, rbLoad_raises_of_empty_cell hs hi, rbLoad_raises hs hi⟩⟩

/-- Settles O13: a released cell reads `none`, also where the release wraps round the ring. -/
theorem rbAdvanceReadReleases : Obligations.RbAdvanceReadReleases := fun _ =>
  ⟨checksFirst_standalone rfl (fun _ => rfl) rfl, fun _ hi hs _ hwf =>
    ⟨fun hn => ⟨_, rbAdvanceRead_steps hs hi hn, fun _ => releaseCells_released hwf, fun _ => releaseCells_other⟩,
      rbAdvanceRead_raises hs hi⟩⟩

/-- Settles O14. -/
theorem rbSyncsCopyTheCursors : Obligations.RbSyncsCopyTheCursors :=
  ⟨⟨checksFirst_syncable rfl (fun _ => rfl) rfl, checksFirst_syncable rfl (fun _ => rfl) rfl⟩, fun _ hs =>
    ⟨fun hi => exec_steps rfl (alive_iff.1 hs.2) (owned_of_issuer _ hi rfl rfl) (syncable_iff.2 hs) rfl,
      fun hi => exec_steps rfl (alive_iff.1 hs.2) (owned_of_issuer _ hi rfl rfl) (syncable_iff.2 hs) rfl⟩⟩

/-- Settles O15. -/
theorem rbDestroyReleasesTheRing : Obligations.RbDestroyReleasesTheRing :=
  ⟨checksFirst_standalone rfl (fun _ => rfl) rfl, fun _ hi hs =>
    ⟨_, standalone_steps hs (owned_of_issuer _ hi rfl rfl) rfl rfl, rfl, rfl, rfl, rfl, rfl, rfl, fun _ => rfl⟩⟩

end Sys2Proof.Machine
end

section
/-! Cursors kept modulo `M > CAP` (40_ring_buffer.md R136). -/

namespace Sys2Proof.Machine

open Sys2Proof

/-- The count of two cursors less than `M` apart survives keeping them modulo `M`. -/
theorem boundedCount_eq {M w r : Nat} (hle : r ≤ w) (hlt : w - r < M) : boundedCount M w r = w - r := by
  have hr : r % M < M := Nat.mod_lt r (by omega)
  have hmod : w % M + M - r % M ≡ w - r [MOD M] := Nat.ModEq.add_right_cancel' (r % M) <| calc
    w % M + M - r % M + r % M = w % M + M := by omega
    _ ≡ w [MOD M] := by simp [Nat.ModEq]
    _ = w - r + r := by omega
    _ ≡ w - r + r % M [MOD M] := (Nat.mod_modEq r M).symm.add_left _
  exact Eq.trans hmod (Nat.mod_eq_of_lt hlt)

/-- Where CAP divides `M`, a cursor kept modulo `M` names the cell of the unbounded one. -/
theorem boundedCell_eq {M cap : Nat} (h : cap ∣ M) (w k : Nat) : boundedCell M cap w k = (w + k) % cap := by
  rw [boundedCell, ← Nat.mod_add_mod, Nat.mod_mod_of_dvd w h, Nat.mod_add_mod]

/-- Settles O49: the counts are at most CAP, and a cell number forgets only multiples of CAP. -/
theorem finiteCursorsSuffice : Obligations.FiniteCursorsSuffice := by
  intro q M h hp hM
  rw [ringInv_iff hp] at h
  refine ⟨boundedCount_eq (by omega) (by omega), ?_, fun hdvd k => ⟨boundedCell_eq hdvd _ k, boundedCell_eq hdvd _ k⟩,
    fun n k => ⟨Nat.mod_add_mod _ _ n, Nat.mod_add_mod _ _ k, Nat.mod_add_mod _ _ k⟩⟩
  rw [boundedCount_eq (by omega) (by omega), Ring.freeProd]

end Sys2Proof.Machine
end

section
/-! What an instruction leaves unchanged: the fields of S outside its own rule's (`writesOf`), but for a trap and its one
TRACE entry; and that PK_STOP alone holds (40_ring_buffer.md R138, 41_capture_producer.md R158). -/

namespace Sys2Proof.Machine

open Sys2Proof

variable {i : Instr} {s : State}

/-! ## The fields of an instruction's own rule -/

@[simp] theorem writesOf_trace (i : Instr) (s t : State) : (writesOf i s t).trace = s.trace := by cases i <;> rfl

@[simp] theorem writesOf_schedule (i : Instr) (s t : State) : (writesOf i s t).env.schedule = s.env.schedule := by
  cases i <;> rfl

@[simp] theorem writesOf_srcMem (i : Instr) (s t : State) : (writesOf i s t).env.srcMem = s.env.srcMem := by
  cases i <;> rfl

@[simp] theorem writesOf_issuer (i : Instr) (s t : State) : (writesOf i s t).env.issuer = s.env.issuer := by
  cases i <;> rfl

theorem writesOf_pending (t : State) (h : i ≠ .pkStop) : (writesOf i s t).env.pending = s.env.pending := by
  cases i with
  | pkStop => exact absurd rfl h
  | _ => rfl

theorem writesOf_self (i : Instr) (s : State) : writesOf i s s = s := by cases i <;> rfl

/-- No rule writes TRACE itself. -/
@[simp] theorem writesOf_record (i : Instr) (s t : State) (o : Origin) (x : Txn) (r : Result) :
    writesOf i s (record o x r t) = writesOf i s t := by
  cases i <;> rfl

/-- Beside the trap's registers, the fields of a rule are no others after a trap. -/
theorem writesOf_trapEntry (i : Instr) (s t u : State) (x : Raise) :
    (writesOf i s (trapEntry x t)).trapOf u = (writesOf i s t).trapOf u := by
  cases i <;> rfl

/-- An operation's effect is on the fields of its own rule. -/
theorem effect_writes {s' : State} {r : Result} (h : Effect i s s' r) : s' = writesOf i s s' := by
  cases i with
  | cpSubreadErr => exact h.elim
  | fnRateCode | fnBitDepth | fnBuildHeader | fnDecodeRate | ctlReset | ctlCancel | ctlCsrRead | rate44k1 | rate48k =>
    obtain rfl := h
    rfl
  | rbCapacity | rbWritePtr | rbFreeCount | rbReadPtr | rbFillCount | rbSyncR2p | rbSyncW2c | rbDestroy | cpOvfNotify
  | pkTop | pkPoll | pkWait =>
    obtain ⟨-, rfl⟩ := h
    rfl
  | rbStore | rbAdvanceWrite | rbAdvanceRead | cpCheck | cpCommit | pkSend | pkStop | ctlSocketOpen | ctlStart =>
    obtain ⟨-, -, rfl⟩ := h
    rfl
  | rbCreate | rbLoad =>
    obtain ⟨-, -, -, rfl⟩ := h
    rfl
  | cpInvoke | cpSubreadHole | cpSubreadAreas =>
    obtain ⟨-, -, -, -, rfl⟩ := h
    rfl
  | pkDrain =>
    obtain ⟨-, _, -, rfl⟩ := h
    rfl
  | ctlConfigure =>
    obtain ⟨-, -, _, _, -, -, -, rfl⟩ := h
    rfl

/-- No effect writes the pending operations, PK_STOP's neither: it is its hold that puts one back (00_scope.md R13). -/
theorem effect_pending {s' : State} {r : Result} (h : Effect i s s' r) : s'.env.pending = s.env.pending := by
  by_cases hi : i = .pkStop
  · subst hi
    obtain ⟨-, -, rfl⟩ := h
    rfl
  · rw [effect_writes h, writesOf_pending _ hi]

/-- What is kept of the state before a raise differs from it in the fields of the operation's own rule. -/
theorem kept_writes {kept : State} {x : Raise} (h : Kept i s kept x) :
    kept = writesOf i s kept ∧ kept.reportLog = s.reportLog ∧ kept.env.pending = s.env.pending := by
  rcases h with rfl | ⟨sent, rfl, -, -, -, rfl⟩
  · exact ⟨(writesOf_self i kept).symm, rfl, rfl⟩
  · exact ⟨rfl, rfl, rfl⟩

/-! ## The frame of an instruction -/

/-- A state whose rule's fields alone differ is framed once its entry is recorded. -/
theorem framed_record {s' : State} (h : s' = writesOf i s s') (r : Result) :
    Framed i s (record (.agent s.env.issuer) (recordOf i) r s') := by
  have htrace : s'.trace = s.trace := by rw [h, writesOf_trace]
  refine ⟨⟨r, by rw [record_trace, htrace]⟩, .inl ?_⟩
  rw [writesOf_record, ← h]
  rfl

/-- So it is once it has trapped and its entry is recorded. -/
theorem framed_trap {kept : State} (h : kept = writesOf i s kept) (hreport : kept.reportLog = s.reportLog) (x : Raise) :
    Framed i s (record (.agent s.env.issuer) (recordOf i) (.raised x) (trapEntry x kept)) := by
  have htrace : kept.trace = s.trace := by rw [h, writesOf_trace]
  refine ⟨⟨.raised x, by rw [record_trace, trapEntry_trace, htrace]⟩, .inr ⟨x, rfl, rfl, ?_, rfl, ?_⟩⟩
  · rw [record_reportLog, trapEntry_reportLog, hreport]
  · rw [writesOf_record, writesOf_trapEntry, ← h]
    rfl

/-- An operation that does not hold writes the fields of its own rule, a trap's, and its TRACE entry. -/
theorem framed_exec {t : State} (h : exec i s = .next t) (hw : i.isWire = false)
    (hstop : i = .pkStop → ¬ (s.pk.state = .stopping ∧ s.cp.state ≠ .idle)) : Framed i s t := by
  have ho : originOf i s = .agent s.env.issuer := by simp [originOf, hw]
  rcases exec_outcomes h with ⟨rfl, -⟩ | ⟨-, -, x, kept, hkept, rfl⟩ | ⟨-, -, s', r, heff, rfl⟩ | ⟨hi, hp, hbusy, -⟩
  · rw [ho]
    exact framed_record (writesOf_self i s).symm _
  · obtain ⟨hwrites, hreport, -⟩ := kept_writes hkept
    exact framed_trap hwrites hreport x
  · rw [ho]
    exact framed_record (effect_writes heff) r
  · exact absurd ⟨hp.2, hbusy⟩ (hstop hi)

/-- The ring is as it was, or as the operation's effect leaves it. -/
theorem ring_of_exec {t : State} (h : exec i s = .next t) :
    t.ring = s.ring ∨ ∃ s' r, Effect i s s' r ∧ t.ring = s'.ring := by
  rcases exec_outcomes h with ⟨rfl, -⟩ | ⟨-, -, x, kept, hkept, rfl⟩ | ⟨-, -, s', r, heff, rfl⟩ | ⟨-, -, -, rfl⟩
  · exact .inl rfl
  · have hring := kept_ring hkept
    exact .inl hring
  · exact .inr ⟨s', r, heff, rfl⟩
  · exact .inl rfl

theorem sameOutside_refl (sp : Space) (m : Memory) (stored : Nat → Prop) : SameOutside sp m m stored := fun _ _ => rfl

/-- Settles O57: the fields from the frame of every instruction, the cells from what is stored and released. -/
theorem frameOfRing : Obligations.FrameOfRing := by
  refine ⟨fun i s t hi h _ => ?frame, fun k b s t h => ?store, fun n s t h => ?release⟩
  case frame =>
    rcases hi with rfl | rfl | rfl | rfl | rfl | rfl | rfl | rfl | ⟨_, rfl⟩ | ⟨_, _, rfl⟩ | ⟨_, rfl⟩ | ⟨_, rfl⟩ | ⟨_, rfl⟩
    all_goals exact framed_exec h rfl nofun
  case store =>
    rcases ring_of_exec h with hsame | ⟨s', r, ⟨-, -, rfl⟩, hring⟩
    · rw [hsame]
      exact sameOutside_refl _ _ _
    · rw [hring]
      exact fun cell hcell => readMem_writeMem_other (sp := .ring) s.ring.cells (some b) hcell
  case release =>
    rcases ring_of_exec h with hsame | ⟨s', r, ⟨-, -, rfl⟩, hring⟩
    · rw [hsame]
      exact sameOutside_refl _ _ _
    · rw [hring]
      exact fun cell hcell => releaseCells_other fun j hj heq => hcell ⟨j, hj, heq⟩

/-! ## Only PK_STOP holds -/

/-- Every instruction has a next state: the model has no faults, and refuses no decoded instruction (log 20). -/
theorem exec_next (i : Instr) (s : State) : ∃ t, exec i s = .next t := by cases i <;> exact ⟨_, rfl⟩

/-- A state that differs in the fields of a rule alone keeps the turns, the HOST's memory, the issuer and TRACE. -/
theorem env_of_writes {s' : State} (h : s' = writesOf i s s') : s'.env.schedule = s.env.schedule ∧
    s'.env.srcMem = s.env.srcMem ∧ s'.env.issuer = s.env.issuer ∧ s'.trace = s.trace := by
  rw [h]
  simp

/-- Settles O56: each outcome but the hold is recorded. -/
theorem onlyStopHolds : Obligations.OnlyStopHolds := by
  intro i s
  obtain ⟨t, h⟩ := exec_next i s
  refine ⟨t, h, ?_⟩
  rcases exec_outcomes h with ⟨rfl, -⟩ | ⟨-, -, x, kept, hkept, rfl⟩ | ⟨-, -, s', r, heff, rfl⟩ | ⟨hi, hp, hbusy, rfl⟩
  · exact ⟨rfl, rfl, rfl, .inl ⟨rfl, _, rfl, rfl⟩⟩
  · obtain ⟨hwrites, -, hpending⟩ := kept_writes hkept
    obtain ⟨hschedule, hsrc, hissuer, htrace⟩ := env_of_writes hwrites
    exact ⟨hschedule, hsrc, hissuer, .inl ⟨hpending, _, by rw [record_trace, trapEntry_trace, htrace], rfl⟩⟩
  · obtain ⟨hschedule, hsrc, hissuer, htrace⟩ := env_of_writes (effect_writes heff)
    have hpending := effect_pending heff
    exact ⟨hschedule, hsrc, hissuer, .inl ⟨hpending, _, by rw [record_trace, htrace], rfl⟩⟩
  · exact ⟨rfl, rfl, rfl, .inr ⟨hi, hp.2, hbusy⟩⟩

end Sys2Proof.Machine
end

section
/-! What a CP operation comes to when its owner issues it (41_capture_producer.md R151–R157), after the checks of
60_exceptions.md R268: where a sub-read stores, that its stores and the commit fit (R161), and what stays unchanged. -/

namespace Sys2Proof.Machine

open Sys2Proof

variable {s : State} {i : Instr}

/-! ## Operations that pass their checks -/

/-- A CP operation with an engine state of its own passes the checks of R268, its guard that of R150. -/
theorem checksFirst_cpIn {x : CpState} {code : Byte} {o : Agent} {body : State → Act} (ho : ownerOf code = some o)
    (hexec : ∀ s, exec i s = issue i (s.cpIn x) (body s) s) (hcode : (recordOf i).code = code) :
    ChecksFirst i code [o] (CpIn x) :=
  checksFirst_of_issue hexec hcode (mayIssue_iff_owner ho) fun _ _ => cpIn_iff

section
variable {x : CpState} {body : Act} (hc : CpIn x s) (hown : Owned i s) (hexec : exec i s = issue i (s.cpIn x) body s)
include hc hown hexec

theorem cpIn_waits (hbody : body = .noStep) : exec i s = .next (attempted i s) := by
  rw [exec_runs hexec hc.alive hown (cpIn_iff.2 hc), hbody]
  rfl

theorem cpIn_steps {s' : State} {r : Result} (hbody : body = .done s' r) : exec i s = .next (stepped i s r s') :=
  exec_steps hexec hc.alive hown (cpIn_iff.2 hc) hbody

theorem cpIn_raises {e : Raise} (hbody : body = .raise s e) : exec i s = .next (trapped i s e) :=
  exec_raises hexec hc.alive hown (cpIn_iff.2 hc) hbody

end

/-! ## Where a sub-read stores -/

/-- The stores are at offsets of the `k` frames that follow the frames done (R153, 30_encoding.md R105). -/
def InNextFrames (s : State) (k : Nat) (l : List (Nat × Byte)) : Prop :=
  ∀ p ∈ l, ∃ j < k * s.fmt.bytesPerFrame, p.1 = s.cp.done * s.fmt.bytesPerFrame + j

theorem holeStores_inNextFrames (s : State) (k : Nat) : InNextFrames s k (holeStores s k) := by
  intro p hp
  obtain ⟨j, hj, rfl⟩ := mem_holeStores.1 hp
  exact ⟨j, hj, rfl⟩

theorem areaStores_inNextFrames (hx : s.fmt.bytesPerFrame = 2 * s.fmt.bytesPerSample) (k p0 s0 p1 s1 : Nat) :
    InNextFrames s k (areaStores s k p0 s0 p1 s1) := by
  intro p hp
  obtain ⟨f, hf, c, hc, b, hb, rfl⟩ := mem_areaStores.1 hp
  obtain ⟨hlow, hhigh⟩ := offset_lt hx hc hb (f := s.cp.done + f)
  have hbefore : s.cp.done * s.fmt.bytesPerFrame ≤ (s.cp.done + f) * s.fmt.bytesPerFrame :=
    Nat.mul_le_mul_right _ (by omega)
  have hafter : (s.cp.done + f + 1) * s.fmt.bytesPerFrame ≤ (s.cp.done + k) * s.fmt.bytesPerFrame :=
    Nat.mul_le_mul_right _ (by omega)
  rw [Nat.add_mul s.cp.done k] at hafter
  exact ⟨s.fmt.offset (s.cp.done + f) c b - s.cp.done * s.fmt.bytesPerFrame, by omega, by omega⟩

section
variable {k : Nat} {l : List (Nat × Byte)} (hl : InNextFrames s k l)
include hl

/-- Stores for frames that remain fit where the whole invocation fits (R161). -/
theorem stores_fit (hk : 1 ≤ k) (hk' : k ≤ s.cp.framesLeft)
    (hfits : s.cp.wf * s.fmt.bytesPerFrame ≤ s.ring.freeProd) : ∀ p ∈ l, p.1 < s.ring.freeProd := by
  intro p hp
  obtain ⟨j, hj, hoffset⟩ := hl p hp
  have hframes : (s.cp.done + k) * s.fmt.bytesPerFrame ≤ s.cp.wf * s.fmt.bytesPerFrame :=
    Nat.mul_le_mul_right _ (by simp only [Producer.framesLeft] at hk'; omega)
  rw [Nat.add_mul] at hframes
  omega

/-- A cell of none of these frames reads as before. -/
theorem stores_keep_other_cells {cell : Nat} (m : Memory)
    (hcell : ∀ j < k * s.fmt.bytesPerFrame, cell ≠ s.ring.writeCell (s.cp.done * s.fmt.bytesPerFrame + j)) :
    readMem .ring (storedRing s.ring l m) cell = readMem .ring m cell := by
  refine storedRing_other fun p hp => ?_
  obtain ⟨j, hj, hoffset⟩ := hl p hp
  rw [hoffset]
  exact hcell j hj

end

/-- Every cell of a hole's frames holds 0x00 (R153). -/
theorem read_holeStores {k j : Nat} (m : Memory) (hj : j < k * s.fmt.bytesPerFrame) :
    readMem .ring (storedRing s.ring (holeStores s k) m)
      (s.ring.writeCell (s.cp.done * s.fmt.bytesPerFrame + j)) = some 0x00#8 := by
  refine storedRing_byte (mem_holeStores.2 ⟨j, hj, rfl⟩) fun p hp _ => ?_
  obtain ⟨_, -, rfl⟩ := mem_holeStores.1 hp
  rfl

theorem offset_left (x : Format) (f b : Nat) : x.offset f 0 b = f * x.bytesPerFrame + b := by simp [Format.offset]

theorem offset_right (x : Format) (f b : Nat) : x.offset f 1 b = f * x.bytesPerFrame + x.bytesPerSample + b := by
  simp [Format.offset]

/-- The cell of a sample byte holds the byte of its area: offsets inside PROD's view of the free space have cells of
their own (R154, 30_encoding.md R105). -/
theorem read_areaStores (hx : s.fmt.bytesPerFrame = 2 * s.fmt.bytesPerSample) {k p0 s0 p1 s1 f c b : Nat} (m : Memory)
    (hfit : ∀ p ∈ areaStores s k p0 s0 p1 s1, p.1 < s.ring.freeProd) (hf : f < k) (hc : c < 2)
    (hb : b < s.fmt.bytesPerSample) :
    readMem .ring (storedRing s.ring (areaStores s k p0 s0 p1 s1) m)
      (s.ring.writeCell (s.fmt.offset (s.cp.done + f) c b)) =
        some (memRead s.env.srcMem (areaAddr p0 s0 p1 s1 f c b)) := by
  have hmem := (mem_areaStores (p0 := p0) (s0 := s0) (p1 := p1) (s1 := s1)).2 ⟨f, hf, c, hc, b, hb, rfl⟩
  refine storedRing_byte hmem fun p hp hcell => ?_
  have hoffset : p.1 = s.fmt.offset (s.cp.done + f) c b :=
    mod_inj ((hfit p hp).trans_le (freeProd_le _)) ((hfit _ hmem).trans_le (freeProd_le _)) hcell
  obtain ⟨f', -, c', hc', b', hb', rfl⟩ := mem_areaStores.1 hp
  obtain ⟨hframe, rfl, rfl⟩ := offset_inj hx hc' hc hb' hb hoffset
  obtain rfl := Nat.add_left_cancel hframe
  rfl

/-! ## The sub-reads and the commit -/

section
variable {k : Nat} {l : List (Nat × Byte)} (hc : CpIn .reading s) (hown : Owned i s)
  (hexec : exec i s = issue i (s.cpIn .reading) (subread k l s) s)
include hc hown hexec

theorem subread_raises (hk : k = 0 ∨ s.cp.framesLeft < k) : exec i s = .next (trapped i s ⟨.hostProto, lowWord k⟩) :=
  cpIn_raises hc hown hexec (subread_refused hk)

theorem subread_steps (hk : 1 ≤ k) (hk' : k ≤ s.cp.framesLeft) (hl : ∀ p ∈ l, p.1 < s.ring.freeProd) :
    exec i s = .next (stepped i s .nothing
      { s with
        ring := { s.ring with cells := storedRing s.ring l s.ring.cells }
        cp := { s.cp with
          done := s.cp.done + k
          state := if s.cp.done + k = s.cp.wf then .commit else .reading } }) := by
  rw [← hc.2]
  exact cpIn_steps hc hown hexec (subread_ok hk hk' hl)

end

theorem cpSubreadHole_owned (hi : s.env.issuer = .prod) (k : Nat) : Owned (.cpSubreadHole k) s :=
  owned_of_issuer 0x22#8 hi rfl rfl

theorem cpSubreadAreas_owned (hi : s.env.issuer = .prod) (k p0 s0 p1 s1 : Nat) :
    Owned (.cpSubreadAreas k p0 s0 p1 s1) s := owned_of_issuer 0x23#8 hi rfl rfl

/-- A commit that fits steps (R156). -/
theorem cpCommit_steps (hi : s.env.issuer = .prod) (hc : CpIn .commit s)
    (hfits : s.cp.wf * s.fmt.bytesPerFrame ≤ s.ring.freeProd) :
    exec .cpCommit s = .next (stepped .cpCommit s .nothing
      { s with
        ring := { s.ring with w := s.ring.w + s.cp.wf * s.fmt.bytesPerFrame }
        cp := { s.cp with state := .idle } }) :=
  cpIn_steps hc (owned_of_issuer 0x25#8 hi rfl rfl) rfl (by rw [ringAdvanceWrite_ok hfits])

/-! ## The statements -/

/-- Settles O16: three cases, by whether the stream is stopping and by the order of the bounds. -/
theorem cpInvokeStartsAnInvocation : Obligations.CpInvokeStartsAnInvocation := by
  refine fun min max => ⟨checksFirst_cpIn rfl (fun _ => rfl) rfl, fun s hi hc => ?_⟩
  have hown : Owned (.cpInvoke min max) s := owned_of_issuer 0x20#8 hi rfl rfl
  have hstreams (hstop : s.pk.state ≠ .stopping) (hdone : s.pk.state ≠ .done) : ¬ s.stopping = true :=
    fun h => (stopping_iff.1 h).elim hstop hdone
  refine ⟨fun h => ?_, fun hstop hdone hlt => ?_, fun hstop hdone hle => ?_⟩
  · exact cpIn_waits hc hown rfl (if_pos (stopping_iff.2 h))
  · exact cpIn_raises hc hown rfl (by rw [if_neg (hstreams hstop hdone), if_pos hlt])
  · exact cpIn_steps hc hown rfl (by rw [if_neg (hstreams hstop hdone), if_neg (by omega)])

/-- Settles O17. -/
theorem cpCheckChoosesTheWriteSize : Obligations.CpCheckChoosesTheWriteSize := by
  refine ⟨checksFirst_cpIn rfl (fun _ => rfl) rfl, ?_⟩
  rintro s _ hi hc - - rfl
  have hown : Owned .cpCheck s := owned_of_issuer 0x21#8 hi rfl rfl
  exact ⟨fun hlt => cpIn_raises hc hown rfl (if_pos hlt),
    fun hle => cpIn_steps hc hown rfl (if_neg (Nat.not_lt.2 hle))⟩

/-- Settles O18: a cell of the frames is 0x00 whichever store named it last. -/
theorem cpSubreadHoleStoresSilence : Obligations.CpSubreadHoleStoresSilence := by
  refine fun k => ⟨checksFirst_cpIn rfl (fun _ => rfl) rfl, fun s hi hc _ _ _ => ?_⟩
  have hown := cpSubreadHole_owned hi k
  have hframes := holeStores_inNextFrames s k
  refine ⟨fun hk => subread_raises hc hown rfl hk, fun hk hk' hfits => ?_⟩
  exact ⟨_, subread_steps hc hown rfl hk hk' (stores_fit hframes hk hk' hfits), fun j hj => read_holeStores _ hj,
    fun cell hcell => stores_keep_other_cells hframes _ hcell⟩

/-- Settles O19: a sample byte has a cell of its own, so no later store overwrites it. -/
theorem cpSubreadAreasInterleaves : Obligations.CpSubreadAreasInterleaves := by
  refine fun k p0 s0 p1 s1 => ⟨checksFirst_cpIn rfl (fun _ => rfl) rfl, fun s hi hc _ _ _ hx => ?_⟩
  have hown := cpSubreadAreas_owned hi k p0 s0 p1 s1
  have hframes := areaStores_inNextFrames hx k p0 s0 p1 s1
  refine ⟨fun hk => subread_raises hc hown rfl hk, fun hk hk' hfits => ?_⟩
  have hfit := stores_fit hframes hk hk' hfits
  refine ⟨_, subread_steps hc hown rfl hk hk' hfit, fun f hf b hb => ⟨?left, ?right⟩,
    fun cell hcell => stores_keep_other_cells hframes _ hcell⟩
  case left =>
    have hread := read_areaStores hx s.ring.cells hfit hf (c := 0) (by decide) hb
    rwa [offset_left] at hread
  case right =>
    have hread := read_areaStores hx s.ring.cells hfit hf (c := 1) (by decide) hb
    rwa [offset_right] at hread

/-- Settles O20. -/
theorem cpSubreadErrRaises : Obligations.CpSubreadErrRaises := fun _ =>
  ⟨checksFirst_cpIn rfl (fun _ => rfl) rfl, fun _ hi hc => cpIn_raises hc (owned_of_issuer 0x24#8 hi rfl rfl) rfl rfl⟩

/-- Settles O21. -/
theorem cpCommitAdvancesOnce : Obligations.CpCommitAdvancesOnce :=
  ⟨checksFirst_cpIn rfl (fun _ => rfl) rfl, fun _ hi hc _ hfits => cpCommit_steps hi hc hfits⟩

/-- Settles O22: the guard here is the phase alone. -/
theorem cpOvfNotifyCounts : Obligations.CpOvfNotifyCounts := by
  refine ⟨checksFirst_of_issue (fun _ => rfl) rfl (mayIssue_iff_owner rfl) fun _ _ => decide_eq_true_iff,
    fun s hi hp => ⟨s.ovfCount + 1#32, BitVec.toNat_add _ _, ?_⟩⟩
  exact exec_steps rfl (alive_iff.1 (.inr (.inr hp))) (owned_of_issuer 0x26#8 hi rfl rfl) (decide_eq_true hp) rfl

/-- In a running stream every byte CONS drains is stored, so the drain steps (43_packetizer.md R203). -/
theorem pkDrain_steps (h : Inv s) (hi : s.env.issuer = .cons) (hp : PkIn .drain s) :
    ∃ bytes, exec .pkDrain s = .next (stepped .pkDrain s .nothing (afterDrain bytes s)) := by
  obtain ⟨hpresent, -⟩ := running_streams h hp.1
  obtain ⟨-, hheld⟩ := h.stored (.inr hp.1)
  have hcount := drainCount_le s
  have hfill := fillCons_le_fill hpresent h.ring
  obtain ⟨bytes, hbytes⟩ := ringLoadAll_ok (k := 0) (n := s.drainCount) (q := s.ring) (by omega) fun n hn => by
    rw [Nat.zero_add]
    exact hheld n (by omega)
  refine ⟨bytes, exec_steps rfl hp.alive (owned_of_issuer 0x62#8 hi rfl rfl) (pkIn_iff.2 hp) ?_⟩
  rw [drain_ok hbytes]
  rfl

/-- Settles O50: the space of the invocation and the stored bytes are the invariants'. -/
theorem noInnerFault : Obligations.NoInnerFault := by
  intro s h
  refine ⟨fun hi hc k hk hk' => ⟨?hole, fun p0 s0 p1 s1 => ?areas⟩, fun hi hc => ?commit, fun hi hp => ?drain⟩
  case hole =>
    have hfit := stores_fit (holeStores_inNextFrames s k) hk hk' (invocation_fits h.cp (.inl hc.2))
    exact ⟨_, subread_steps hc (cpSubreadHole_owned hi k) rfl hk hk' hfit, hc.1, rfl⟩
  case areas =>
    have hx := bytesPerFrame_eq h.config (.inr (.inl hc.1))
    have hfit := stores_fit (areaStores_inNextFrames hx k p0 s0 p1 s1) hk hk' (invocation_fits h.cp (.inl hc.2))
    exact ⟨_, subread_steps hc (cpSubreadAreas_owned hi k p0 s0 p1 s1) rfl hk hk' hfit, hc.1, rfl⟩
  case commit => exact ⟨_, cpCommit_steps hi hc (invocation_fits h.cp (.inr hc.2)), hc.1, rfl⟩
  case drain =>
    obtain ⟨bytes, hsteps⟩ := pkDrain_steps h hi hp
    exact ⟨_, hsteps, hp.1⟩

/-- Settles O58: the fields from the frame of every instruction, the cells from the stores of each answer. -/
theorem frameOfProducer : Obligations.FrameOfProducer := by
  refine ⟨fun i s t hi h _ => ?frame, fun k s t h => ?hole, fun k p0 s0 p1 s1 s t h => ?areas⟩
  case frame =>
    rcases hi with ⟨_, _, rfl⟩ | rfl | ⟨_, rfl⟩ | ⟨_, _, _, _, _, rfl⟩ | ⟨_, rfl⟩ | rfl | rfl
    all_goals exact framed_exec h rfl nofun
  case hole =>
    rcases ring_of_exec h with hsame | ⟨s', r, ⟨-, -, -, -, rfl⟩, hring⟩
    · rw [hsame]
      exact sameOutside_refl _ _ _
    · rw [hring]
      exact fun cell hcell => stores_keep_other_cells (holeStores_inNextFrames s k) _ fun j hj heq => hcell ⟨j, hj, heq⟩
  case areas =>
    rcases ring_of_exec h with hsame | ⟨s', r, ⟨-, -, -, -, rfl⟩, hring⟩
    · rw [hsame]
      exact sameOutside_refl _ _ _
    · rw [hring]
      intro cell hcell
      refine storedRing_other fun p hp heq => hcell ?_
      obtain ⟨f, hf, c, hc, b, hb, rfl⟩ := mem_areaStores.1 hp
      exact ⟨f, hf, c, hc, b, hb, heq⟩

end Sys2Proof.Machine
end

section
/-! The rates that a rate code represents (42_format_negotiator.md R181, R184–R187), and what a FN operation comes to
when the HOST issues it (R180–R184), after the checks of 60_exceptions.md R268. -/

namespace Sys2Proof.Machine

open Sys2Proof

variable {s : State} {i : Instr}

/-! ## Codes and their families -/

theorem multOf_toNat (c : Byte) : (multOf c).toNat = c.toNat % 128 := BitVec.toNat_setWidth 7 c

/-- Bit 7 is a code's family bit (30_encoding.md R100). -/
theorem familyBit_iff (c : Byte) : c.getLsbD 7 = true ↔ c.toNat / 128 = 1 := by
  have hlt := c.isLt
  rw [← BitVec.msb_eq_getLsbD_last (x := c), BitVec.msb_eq_decide, decide_eq_true_iff]
  omega

/-- R184's formula in the number of the code. -/
theorem decodeRate_eq (c : Byte) :
    decodeRate c = if c.toNat / 128 = 1 then 44100 * (c.toNat % 128) else 48000 * (c.toNat % 128) := by
  rw [decodeRate, familyRate, multOf_toNat, ite_mul]
  exact if_congr (familyBit_iff c) rfl rfl

theorem code44k1_toNat {m : Nat} (hm : m ≤ 127) : (0x80#8 ||| BitVec.ofNat 8 m).toNat = 128 + m := by
  have hor : 128 + m = 128 ||| m := Nat.two_pow_add_eq_or_of_lt (i := 7) (by omega) 1
  rw [BitVec.toNat_or, BitVec.toNat_ofNat, BitVec.toNat_ofNat, Nat.mod_eq_of_lt (a := m) (by omega), hor]

theorem code48k_toNat {m : Nat} (hm : m ≤ 127) : (BitVec.ofNat 8 m).toNat = m := by
  rw [BitVec.toNat_ofNat, Nat.mod_eq_of_lt (by omega)]

/-! ## Rates and their families -/

/-- R181's test of a family: the rate is a multiple of its base by 1..127. -/
theorem multiple_iff {base : Nat} (hbase : 0 < base) (n : Nat) :
    1 ≤ n ∧ n % base = 0 ∧ n / base ≤ 127 ↔ ∃ m, 1 ≤ m ∧ m ≤ 127 ∧ n = base * m := by
  constructor
  · rintro ⟨hpos, hmod, hle⟩
    have hn : n = base * (n / base) := (Nat.mul_div_cancel' (Nat.dvd_of_mod_eq_zero hmod)).symm
    refine ⟨n / base, Nat.pos_of_ne_zero fun hzero => ?_, hle, hn⟩
    rw [hzero] at hn
    omega
  · rintro ⟨m, hpos, hle, rfl⟩
    exact ⟨Nat.mul_pos hbase hpos, Nat.mul_mod_right base m, by rwa [Nat.mul_div_cancel_left m hbase]⟩

/-- 44100 × a = 48000 × b is 147 × a = 160 × b, so that 160 divides a (R187). -/
theorem common_multiple {a b : Nat} (h : 44100 * a = 48000 * b) : 147 * a = 160 * b ∧ 160 ∣ a := by omega

/-- No multiplier of a code reaches 160 (R187). -/
theorem families_disjoint {a b : Nat} (ha : 1 ≤ a) (ha' : a ≤ 127) : 44100 * a ≠ 48000 * b := fun h =>
  absurd (Nat.le_of_dvd ha (common_multiple h).2) (by omega)

/-- A code represents the rate (R186). -/
def Represented (n : Nat) : Prop := ∃ m, 1 ≤ m ∧ m ≤ 127 ∧ (n = 44100 * m ∨ n = 48000 * m)

/-- The rates that codes represent (R186). -/
def representedRates : List Nat := (List.range' 1 127).map (44100 * ·) ++ (List.range' 1 127).map (48000 * ·)

theorem mem_representedRates {n : Nat} : n ∈ representedRates ↔ Represented n := by
  simp only [representedRates, Represented, List.mem_append, List.mem_map, List.mem_range'_1]
  constructor
  · rintro (⟨m, hm, rfl⟩ | ⟨m, hm, rfl⟩)
    · exact ⟨m, hm.1, by omega, .inl rfl⟩
    · exact ⟨m, hm.1, by omega, .inr rfl⟩
  · rintro ⟨m, hpos, hle, rfl | rfl⟩
    · exact .inl ⟨m, ⟨hpos, by omega⟩, rfl⟩
    · exact .inr ⟨m, ⟨hpos, by omega⟩, rfl⟩

theorem representedRates_length : representedRates.length = 254 := by simp [representedRates]

/-- Within a family by the multiplier, across the families by their disjointness. -/
theorem representedRates_nodup : representedRates.Nodup := by
  have hfamily {base : Nat} (hbase : 0 < base) : ((List.range' 1 127).map (base * ·)).Nodup :=
    (List.nodup_range' (step := 1)).map fun _ _ h => Nat.eq_of_mul_eq_mul_left hbase h
  refine (hfamily (by decide)).append (hfamily (by decide)) fun n h44 h48 => ?_
  obtain ⟨a, ha, rfl⟩ := List.mem_map.1 h44
  obtain ⟨b, -, heq⟩ := List.mem_map.1 h48
  have ha := List.mem_range'_1.1 ha
  exact families_disjoint ha.1 (by omega) heq.symm

/-! ## The code of a rate -/

theorem rateCode_44k1 {rate : Word} {m : Nat} (hpos : 1 ≤ m) (hle : m ≤ 127) (h : rate.toNat = 44100 * m) :
    rateCode rate = .ok (0x80#8 ||| BitVec.ofNat 8 m) := by
  rw [rateCode, if_pos ((multiple_iff (by decide) _).2 ⟨m, hpos, hle, h⟩), h, Nat.mul_div_cancel_left m (by decide)]

theorem rateCode_48k {rate : Word} {m : Nat} (hpos : 1 ≤ m) (hle : m ≤ 127) (h : rate.toNat = 48000 * m) :
    rateCode rate = .ok (BitVec.ofNat 8 m) := by
  rw [rateCode, if_neg, if_pos ((multiple_iff (by decide) _).2 ⟨m, hpos, hle, h⟩), h,
    Nat.mul_div_cancel_left m (by decide)]
  rw [multiple_iff (by decide)]
  rintro ⟨a, ha, ha', heq⟩
  exact families_disjoint ha ha' (heq.symm.trans h)

theorem rateCode_err {rate : Word} (h : ¬ Represented rate.toNat) : rateCode rate = .err ⟨.negRate, rate⟩ := by
  rw [rateCode, if_neg, if_neg]
  all_goals
    rw [multiple_iff (by decide)]
    rintro ⟨m, hpos, hle, heq⟩
  · exact h ⟨m, hpos, hle, .inr heq⟩
  · exact h ⟨m, hpos, hle, .inl heq⟩

/-- Exactly the represented rates have a code. -/
theorem rateCode_ok_iff (rate : Word) : (∃ c, rateCode rate = .ok c) ↔ Represented rate.toNat := by
  constructor
  · rintro ⟨c, hc⟩
    by_contra h
    rw [rateCode_err h] at hc
    cases hc
  · rintro ⟨m, hpos, hle, h | h⟩
    · exact ⟨_, rateCode_44k1 hpos hle h⟩
    · exact ⟨_, rateCode_48k hpos hle h⟩

/-- The code of a rate decodes to it (R185). -/
theorem decodeRate_rateCode {rate : Word} {c : Byte} (hc : rateCode rate = .ok c) : decodeRate c = rate.toNat := by
  obtain ⟨m, hpos, hle, h | h⟩ := (rateCode_ok_iff rate).1 ⟨c, hc⟩
  · obtain rfl : 0x80#8 ||| BitVec.ofNat 8 m = c := FnResult.ok.inj ((rateCode_44k1 hpos hle h).symm.trans hc)
    rw [decodeRate_eq, code44k1_toNat hle, if_pos (by omega), h]
    omega
  · obtain rfl : BitVec.ofNat 8 m = c := FnResult.ok.inj ((rateCode_48k hpos hle h).symm.trans hc)
    rw [decodeRate_eq, code48k_toNat hle, if_neg (by omega), h]
    omega

/-- The decoded rate of a code with a multiplier has that code (R185). -/
theorem rateCode_decodeRate {c : Byte} (h00 : c ≠ 0x00#8) (h80 : c ≠ 0x80#8) :
    rateCode (BitVec.ofNat 32 (decodeRate c)) = .ok c := by
  have hlt := c.isLt
  have h0 : c.toNat ≠ 0 := fun h => h00 (BitVec.eq_of_toNat_eq h)
  have h128 : c.toNat ≠ 128 := fun h => h80 (BitVec.eq_of_toNat_eq h)
  have hle : c.toNat % 128 ≤ 127 := by omega
  rw [decodeRate_eq]
  split
  · rw [rateCode_44k1 (m := c.toNat % 128) (by omega) hle (by rw [BitVec.toNat_ofNat]; omega)]
    exact congrArg FnResult.ok (BitVec.eq_of_toNat_eq (by rw [code44k1_toNat hle]; omega))
  · rw [rateCode_48k (m := c.toNat % 128) (by omega) hle (by rw [BitVec.toNat_ofNat]; omega)]
    exact congrArg FnResult.ok (BitVec.eq_of_toNat_eq (by rw [code48k_toNat hle]; omega))

/-- 7056000 is 44100 × 160 and 48000 × 147: its multiples need larger multipliers than a code has (R187). -/
theorem not_represented_of_dvd {n : Nat} (h : 7056000 ∣ n) : ¬ Represented n := by
  rintro ⟨m, hpos, hle, rfl | rfl⟩
  · omega
  · omega

/-- Settles O25: the two families are disjoint, so each represented rate has one multiplier in one family. -/
theorem rateCodesRoundTrip : Obligations.RateCodesRoundTrip := by
  refine ⟨fun _ _ => decodeRate_rateCode, fun _ => rateCode_decodeRate, rateCode_ok_iff,
    ⟨representedRates, representedRates_length, representedRates_nodup, fun rate => ?rates⟩,
    ⟨rateCode_44k1 (m := 1) (by decide) (by decide) rfl, rateCode_48k (m := 1) (by decide) (by decide) rfl,
      rateCode_44k1 (m := 127) (by decide) (by decide) rfl, rateCode_48k (m := 127) (by decide) (by decide) rfl⟩,
    fun rate hnone => rateCode_err fun h => ?none, fun _ _ => common_multiple,
    fun _ _ ha ha' _ _ => families_disjoint ha ha', fun _ hdvd => rateCode_err (not_represented_of_dvd hdvd)⟩
  case rates => rw [rateCode_ok_iff, mem_representedRates]
  case none =>
    obtain ⟨c, hc⟩ := (rateCode_ok_iff rate).2 h
    exact hnone c hc

/-! ## The bit depth and the header -/

theorem container_iff (bps : Byte) : bps.toNat ∈ [1, 2, 3, 4] ↔ 1 ≤ bps.toNat ∧ bps.toNat ≤ 4 := by
  simp only [List.mem_cons, List.not_mem_nil, or_false]
  omega

theorem bitDepth_of_container {bps : Byte} (h : bps.toNat ∈ [1, 2, 3, 4]) :
    bitDepth bps = .ok (BitVec.ofNat 8 (8 * bps.toNat)) := if_pos ((container_iff bps).1 h)

theorem bitDepth_of_no_container {bps : Byte} (h : bps.toNat ∉ [1, 2, 3, 4]) :
    bitDepth bps = .err ⟨.negDepth, bps.setWidth 32⟩ := if_neg (mt (container_iff bps).2 h)

/-- The rate error wins, whatever the depth (R183). -/
theorem buildHeader_rate_err {rate : Word} {x : Raise} (bps : Byte) (h : rateCode rate = .err x) :
    buildHeader rate bps = .err x := by
  rw [buildHeader, h]

theorem buildHeader_depth_err {rate : Word} {bps c : Byte} {x : Raise} (hc : rateCode rate = .ok c)
    (hd : bitDepth bps = .err x) : buildHeader rate bps = .err x := by
  rw [buildHeader, hc, hd]

/-- Two channels, front left and front right (00_scope.md R8). -/
theorem buildHeader_of_codes {rate : Word} {bps c d : Byte} (hc : rateCode rate = .ok c) (hd : bitDepth bps = .ok d) :
    buildHeader rate bps = .ok ⟨c, d, 2#8, 0x00#8, 0x03#8⟩ := by
  rw [buildHeader, hc, hd]
  rfl

/-! ## The four operations -/

/-- A FN operation passes the checks of R268; it has no guard of its own (R180). -/
theorem checksFirst_fn {code : Byte} {o : Agent} {body : State → Act} (ho : ownerOf code = some o)
    (hexec : ∀ s, exec i s = issue i true (body s) s) (hcode : (recordOf i).code = code) :
    ChecksFirst i code [o] (fun _ => True) :=
  checksFirst_of_issue hexec hcode (mayIssue_iff_owner ho) fun _ _ => iff_of_true rfl trivial

/-- Issued by its owner while the block lives, a FN operation returns its value and leaves the state (R180). -/
theorem fn_returns {r : Result} (hlive : Alive s) (hown : Owned i s) (hexec : exec i s = issue i true (.done s r) s) :
    exec i s = .next (stepped i s r s) :=
  exec_steps hexec (alive_iff.1 hlive) hown rfl rfl

/-- Settles O23: each operation returns its function's value, and the functions are R181–R184's. -/
theorem fnOperationsReturn : Obligations.FnOperationsReturn := by
  refine fun rate bps code => ⟨⟨checksFirst_fn rfl (fun _ => rfl) rfl, checksFirst_fn rfl (fun _ => rfl) rfl,
    checksFirst_fn rfl (fun _ => rfl) rfl, checksFirst_fn rfl (fun _ => rfl) rfl⟩, fun s hi hlive => ?_⟩
  refine ⟨rateCode rate, bitDepth bps, buildHeader rate bps,
    fn_returns hlive (owned_of_issuer 0x40#8 hi rfl rfl) rfl, fn_returns hlive (owned_of_issuer 0x41#8 hi rfl rfl) rfl,
    fn_returns hlive (owned_of_issuer 0x42#8 hi rfl rfl) rfl, fun h44 => if_pos h44,
    fun h44 h48 => ?in48k, fun h44 h48 => ?inNeither, bitDepth_of_container, bitDepth_of_no_container,
    fun _ => buildHeader_rate_err bps, fun _ _ => buildHeader_depth_err, fun _ _ => buildHeader_of_codes, ?decoded⟩
  case in48k => rw [rateCode, if_neg h44, if_pos h48]
  case inNeither => rw [rateCode, if_neg h44, if_neg h48]
  case decoded =>
    rw [← decodeRate_eq]
    exact fn_returns hlive (owned_of_issuer 0x43#8 hi rfl rfl) rfl

end Sys2Proof.Machine
end

section
/-! What the FN and PK operations and the wire patterns leave unchanged (42_format_negotiator.md R180,
43_packetizer.md R201–R206). -/

namespace Sys2Proof.Machine

open Sys2Proof

variable {s : State}

/-- Everything PK_DRAIN does to the ring and to PAYBUF: nothing, or it moves the `drainCount` oldest bytes (R203). -/
theorem pkDrain_cases {t : State} (h : exec .pkDrain s = .next t) :
    (t.ring = s.ring ∧ t.pk = s.pk) ∨
    ∃ bytes, bytes.length = s.drainCount ∧ t.pk = s.pk.after bytes ∧
      t.ring.cells = releaseCells s.ring.capacity s.ring.r s.drainCount s.ring.cells := by
  rcases exec_outcomes h with ⟨rfl, -⟩ | ⟨-, -, x, kept, hkept, rfl⟩ | ⟨-, -, s', r, heff, rfl⟩ | ⟨hstop, -⟩
  · exact .inl ⟨rfl, rfl⟩
  · obtain rfl | ⟨_, hsend, -⟩ := hkept
    · exact .inl ⟨rfl, rfl⟩
    · cases hsend
  · obtain ⟨-, bytes, hloads, rfl⟩ := heff
    exact .inr ⟨bytes, (ringLoadAll_inv hloads).1, rfl, rfl⟩
  · cases hstop

/-- Bytes put behind PK_FILLED leave every other cell of PAYBUF (R203). -/
theorem sameOutside_after (p : Packetizer) (bytes : List Byte) :
    SameOutside .paybuf p.paybuf (p.after bytes).paybuf (fun x => ∃ j < bytes.length, x = p.filled + j) := by
  intro x hx
  refine (at_after p bytes x).trans (if_neg fun hin => hx ⟨x - p.filled, ?_, ?_⟩)
  all_goals omega

/-- Released cells alone are emptied (R203). -/
theorem sameOutside_release (q : Ring) (n : Nat) :
    SameOutside .ring q.cells (releaseCells q.capacity q.r n q.cells) (fun cell => ∃ j < n, cell = q.readCell j) :=
  fun _ hcell => releaseCells_other fun j hj heq => hcell ⟨j, hj, heq⟩

/-- Reading a wire byte leaves a TRACE entry and nothing else (log 13). -/
theorem readWire_adds_entry {i : Instr} {rate : Nat} {t : State} (h : readWire i rate s = .next t) :
    ∃ e : TraceEntry, t = { s with trace := s.trace ++ [e] } := by
  cases h
  exact ⟨_, rfl⟩

/-- Settles O59: the fields from the frame of every instruction, the bytes from what a drain can do. -/
theorem frameOfPacketizer : Obligations.FrameOfPacketizer := by
  refine ⟨fun i s t hi h _ => ?frame, fun m i s t hi h => ?wire, fun s t h => ?drain⟩
  case frame =>
    rcases hi with ⟨_, rfl⟩ | ⟨_, rfl⟩ | ⟨_, _, rfl⟩ | ⟨_, rfl⟩ | rfl | rfl | rfl | rfl | ⟨_, rfl⟩ | ⟨rfl, hidle⟩
    pick_goal 10 -- PK_STOP, where it does not hold
    · exact framed_exec h rfl fun _ => hidle
    all_goals exact framed_exec h rfl nofun
  case wire =>
    rcases hi with rfl | rfl
    all_goals exact readWire_adds_entry h
  case drain =>
    rcases pkDrain_cases h with ⟨hring, hpk⟩ | ⟨bytes, hlen, hpk, hcells⟩
    · rw [hring, hpk]
      exact ⟨sameOutside_refl _ _ _, sameOutside_refl _ _ _⟩
    · rw [hpk, hcells, ← hlen]
      exact ⟨sameOutside_after s.pk bytes, sameOutside_release s.ring bytes.length⟩

end Sys2Proof.Machine
end

section
/-! What a PK operation comes to when CONS issues it (43_packetizer.md R201–R206), after the checks of
60_exceptions.md R268; the header of every datagram (R207), and what the loop does once CANCEL is set (R210). -/

namespace Sys2Proof.Machine

open Sys2Proof

variable {s : State} {i : Instr}

/-! ## Operations that pass their checks -/

/-- A PK operation passes the checks of R268, its guard that of R200. -/
theorem checksFirst_pkIn {x : PkState} {code : Byte} {o : Agent} {body : State → Act} (ho : ownerOf code = some o)
    (hexec : ∀ s, exec i s = issue i (s.pkIn x) (body s) s) (hcode : (recordOf i).code = code) :
    ChecksFirst i code [o] (PkIn x) :=
  checksFirst_of_issue hexec hcode (mayIssue_iff_owner ho) fun _ _ => pkIn_iff

section
variable {x : PkState} {body : Act} (hp : PkIn x s) (hown : Owned i s) (hexec : exec i s = issue i (s.pkIn x) body s)
include hp hown hexec

/-- In its engine state a PK operation runs its rule's statements. -/
theorem pkIn_runs : exec i s = .next (settle (recordOf i) s body) :=
  exec_runs hexec hp.alive hown (pkIn_iff.2 hp)

theorem pkIn_steps {s' : State} {r : Result} (hbody : body = .done s' r) : exec i s = .next (stepped i s r s') :=
  exec_steps hexec hp.alive hown (pkIn_iff.2 hp) hbody

theorem pkIn_raises {e : Raise} (hbody : body = .raise s e) : exec i s = .next (trapped i s e) :=
  exec_raises hexec hp.alive hown (pkIn_iff.2 hp) hbody

end

/-! ## The drain -/

section
variable (hi : s.env.issuer = .cons) (hp : PkIn .drain s)
include hi hp

/-- A drain of bytes that all load moves them behind PK_FILLED and releases them (R203). -/
theorem pkDrain_moves {bytes : List Byte} (hloads : ringLoadAll 0 s.drainCount s.ring = .ok bytes) :
    exec .pkDrain s = .next (stepped .pkDrain s .nothing (afterDrain bytes s)) :=
  pkIn_steps hp (owned_of_issuer 0x62#8 hi rfl rfl) rfl (by rw [drain_ok hloads]; rfl)

/-- A drain raises what the first load that fails raises, and releases nothing (R203). -/
theorem pkDrain_raises {x : Raise} (hloads : ringLoadAll 0 s.drainCount s.ring = .error x) :
    exec .pkDrain s = .next (trapped .pkDrain s x) :=
  pkIn_raises hp (owned_of_issuer 0x62#8 hi rfl rfl) rfl (by rw [drain, hloads]; rfl)

end

/-- A byte put into PAYBUF is the one loaded in its place (R203). -/
theorem at_after_of_loads {p : Packetizer} {q : Ring} {n j : Nat} {bytes : List Byte}
    (hloads : ringLoadAll 0 n q = .ok bytes) (hj : j < n) :
    (p.after bytes).at (p.filled + j) = q.at (q.readCell j) := by
  obtain ⟨hlen, hcells⟩ := ringLoadAll_inv hloads
  have hcell := hcells j hj
  rw [at_after, if_pos (by omega), Nat.add_sub_cancel_left, ← hcell, Nat.zero_add]

/-- Settles O27: all `k` loads step and give the cells' bytes, or the first empty cell's load is the drain's raise. -/
theorem pkDrainMovesBytes : Obligations.PkDrainMovesBytes := by
  refine ⟨checksFirst_pkIn rfl (fun _ => rfl) rfl, fun s k hi hp _ hwf _ hk => ?_⟩
  obtain rfl : k = s.drainCount := hk
  have hcount : 0 + s.drainCount ≤ s.ring.fillCons := (Nat.zero_add _).trans_le (drainCount_le s)
  refine ⟨fun hstored => ?moves, fun j hj hempty hbefore => ?raises⟩
  case moves =>
    have hload := ringLoadAll_ok hcount
    simp only [Nat.zero_add] at hload
    obtain ⟨bytes, hloads⟩ := hload fun j hj => Option.isSome_iff_ne_none.2 (hstored j hj)
    obtain ⟨hlen, -⟩ := ringLoadAll_inv hloads
    have houtside := sameOutside_after s.pk bytes
    rw [hlen] at houtside
    refine ⟨releaseCells s.ring.capacity s.ring.r s.drainCount s.ring.cells, putPayload s.pk.filled bytes s.pk.paybuf,
      ?_, fun j => at_after_of_loads hloads, fun x hx => houtside x fun ⟨j, hj, heq⟩ => hx j hj heq,
      fun j => releaseCells_released hwf, fun cell => releaseCells_other⟩
    rw [pkDrain_moves hi hp hloads, afterDrain, Packetizer.after, hlen]
  case raises =>
    have hload := ringLoadAll_unwritten hcount hj
    simp only [Nat.zero_add] at hload
    exact pkDrain_raises hi hp (hload hbefore hempty)

/-! ## The datagram -/

theorem payload_length (s : State) : s.payload.length = 1152 := by simp [State.payload]

/-- The payload takes the byte that a cell of PAYBUF holds (R205). -/
theorem payload_getElem?_of_at {j : Nat} {b : Byte} (hj : j < 1152) (hb : s.pk.at j = some b) :
    s.payload[j]? = some b := by
  simp [State.payload, State.payloadByte, hj, hb]

section
variable (hi : s.env.issuer = .cons) (hp : PkIn .send s)
include hi hp

/-- A datagram that went out whole empties the payload count (R205). -/
theorem pkSend_steps {sent : Word} (hsent : sent = 1157#32) :
    exec (.pkSend sent) s = .next (stepped (.pkSend sent) s .nothing
      { sendDatagram sent s with pk := { s.pk with filled := 0, state := .top } }) :=
  pkIn_steps hp (owned_of_issuer 0x64#8 hi rfl rfl) rfl (if_pos hsent)

/-- A short send raises, and what has left the block stays logged (R205, 60_exceptions.md R263). -/
theorem pkSend_raises {sent : Word} (hsent : sent ≠ 1157#32) :
    exec (.pkSend sent) s = .next (trapped (.pkSend sent) (sendDatagram sent s) ⟨.txShort, sent⟩) := by
  rw [pkIn_runs hp (owned_of_issuer 0x64#8 hi rfl rfl) rfl, if_neg hsent]
  rfl

/-- Whole or short, the datagram is logged with the count (R205). -/
theorem pkSend_logs {sent : Word} {t : State} (h : exec (.pkSend sent) s = .next t) :
    t.txLog = s.txLog ++ [⟨s.datagram, sent⟩] := by
  by_cases hsent : sent = 1157#32
  · rw [pkSend_steps hi hp hsent] at h
    cases h
    rfl
  · rw [pkSend_raises hi hp hsent] at h
    cases h
    rfl

end

/-- Settles O28: the datagram is the state's own, and the two cases are those of the count. -/
theorem pkSendEmitsTheDatagram : Obligations.PkSendEmitsTheDatagram := fun sent =>
  ⟨checksFirst_pkIn rfl (fun _ => rfl) rfl, fun s hi hp =>
    ⟨s.payload, s.datagram, sendDatagram sent s, payload_length s, fun _ hj _ => payload_getElem?_of_at hj, rfl, rfl,
      pkSend_steps hi hp, pkSend_raises hi hp⟩⟩

theorem bitDepth_toNat {bps bd : Byte} (h : bitDepth bps = .ok bd) : bd.toNat = 8 * bps.toNat := by
  have hbps := bitDepth_ok h
  obtain rfl : BitVec.ofNat 8 (8 * bps.toNat) = bd :=
    FnResult.ok.inj ((bitDepth_of_container ((container_iff bps).2 hbps)).symm.trans h)
  rw [BitVec.toNat_ofNat]
  omega

/-- The header of a configured block says its rate and depth, two channels and the mask (44_control.md R240). -/
theorem header_of_configured (h : ConfigInv s) (hp : s.phase = .ready ∨ s.phase = .running ∨ s.phase = .stopped) :
    ∃ rc bd : Byte, s.fmt.hdr = ⟨rc, bd, 2#8, 0x00#8, 0x03#8⟩ ∧ decodeRate rc = s.fmt.rate.toNat ∧
      bd.toNat = 8 * s.fmt.bps.toNat := by
  obtain ⟨-, hset, hbuilt⟩ := h
  obtain ⟨hhdr, -⟩ := hbuilt (hset hp)
  obtain ⟨rc, bd, hrate, hdepth, hcodes⟩ := buildHeader_ok hhdr
  exact ⟨rc, bd, hcodes, decodeRate_rateCode hrate, bitDepth_toNat hdepth⟩

/-- A datagram begins with the header's five bytes (30_encoding.md R99). -/
theorem datagram_take_header (s : State) : s.datagram.take 5 = s.fmt.hdr.bytes := List.take_left' rfl

/-- Settles O53: a running block is configured, and PK_SEND logs the header of its configuration. -/
theorem datagramsCarryTheHeader : Obligations.DatagramsCarryTheHeader := by
  intro sent s t h hp hi hexec
  obtain ⟨rc, bd, hhdr, hrate, hdepth⟩ := header_of_configured h.config (.inr (.inl hp.1))
  refine ⟨⟨s.datagram, sent⟩, rc, bd, pkSend_logs hi hp hexec, datagram_length s, ?_, hhdr, hrate, hdepth⟩
  rw [datagram_take_header, hhdr]
  rfl

/-! ## The loop's control -/

/-- Settles O26. -/
theorem pkControlMoves : Obligations.PkControlMoves := by
  refine ⟨⟨checksFirst_pkIn rfl (fun _ => rfl) rfl, checksFirst_pkIn rfl (fun _ => rfl) rfl,
    checksFirst_pkIn rfl (fun _ => rfl) rfl⟩, fun s hi => ⟨fun hp => ?_, fun hp => ?_, fun hp => ?_⟩⟩
  all_goals exact pkIn_steps hp (owned_of_issuer _ hi rfl rfl) rfl rfl

/-- An operation of CONS that is held is CONS's next (00_scope.md R13). -/
theorem stayPending_of_cons (t : Txn) (hi : s.env.issuer = .cons) : stayPending t s =
    { s with env := { s.env with pending := { s.env.pending with cons := t :: s.env.pending.cons } } } := by
  rw [stayPending, hi]
  rfl

/-- Settles O29: an idle producer lets the run end, a busy one holds PK_STOP. -/
theorem pkStopEndsTheRun : Obligations.PkStopEndsTheRun := by
  refine ⟨checksFirst_pkIn rfl (fun _ => rfl) rfl, fun s hi hp => ?_⟩
  have hown : Owned .pkStop s := owned_of_issuer 0x65#8 hi rfl rfl
  refine ⟨fun hidle => ?stops, fun hbusy => ?holds⟩
  case stops =>
    exact ⟨Ring.absent, pkIn_steps hp hown rfl (if_pos hidle), rfl, rfl, rfl, rfl, rfl, rfl, fun _ => rfl⟩
  case holds =>
    rw [pkIn_runs hp hown rfl, if_neg hbusy, settle_hold, stayPending_of_cons _ hi]
    rfl

/-! ## Cancellation -/

/-- The states of the loop in which no packet is in progress. -/
abbrev betweenPackets : List PkState := [.off, .top, .stopping, .done]

/-- The states of the loop while a packet is assembled and sent. -/
abbrev packetInProgress : List PkState := [.poll, .drain, .wait, .send]

/-- From `s` to `t` no packet is begun, and a datagram goes out only to end the packet in progress (R210). -/
def BeginsNoPacket (s t : State) : Prop :=
  (s.pk.state ∈ betweenPackets → t.pk.state ∈ betweenPackets ∧ t.txLog = s.txLog) ∧
  (s.pk.state ∈ packetInProgress →
    t.pk.state ∈ packetInProgress ∧ (t.txLog = s.txLog ∨ t.phase = .fatal) ∨
    t.pk.state = .top ∧ ∃ e : TxEntry, t.txLog = s.txLog ++ [e])

theorem not_inProgress_of_between (x : PkState) : x ∈ betweenPackets → x ∉ packetInProgress := by
  cases x <;> decide

theorem beginsNoPacket_of_same {t : State} (hpk : t.pk.state = s.pk.state) (hlog : t.txLog = s.txLog) :
    BeginsNoPacket s t := by
  rw [BeginsNoPacket, hpk, hlog]
  exact ⟨fun h => ⟨h, rfl⟩, fun h => .inl ⟨h, .inl rfl⟩⟩

theorem beginsNoPacket_between {t : State} (hs : s.pk.state ∈ betweenPackets) (ht : t.pk.state ∈ betweenPackets)
    (hlog : t.txLog = s.txLog) : BeginsNoPacket s t :=
  ⟨fun _ => ⟨ht, hlog⟩, fun h => absurd h (not_inProgress_of_between _ hs)⟩

theorem beginsNoPacket_within {t : State} (hs : s.pk.state ∈ packetInProgress)
    (ht : t.pk.state ∈ packetInProgress ∧ (t.txLog = s.txLog ∨ t.phase = .fatal) ∨
      t.pk.state = .top ∧ ∃ e : TxEntry, t.txLog = s.txLog ++ [e]) : BeginsNoPacket s t :=
  ⟨fun h => absurd hs (not_inProgress_of_between _ h), fun _ => ht⟩

/-- Once CANCEL is set PK_TOP leaves the loop; no other operation begins a packet (R201, R210). -/
theorem effect_beginsNoPacket {s' : State} {r : Result} (h : Inv s) (hcancel : s.cancel = true)
    (hreset : i ≠ .ctlReset) (he : Effect i s s' r) : BeginsNoPacket s s' := by
  cases i with
  | ctlReset => exact absurd rfl hreset
  | ctlStart ok =>
    obtain ⟨hready, -, rfl⟩ := he
    obtain ⟨-, -, hoff, -⟩ := ready_rests h hready
    exact beginsNoPacket_between (by simp [hoff]) (by simp) rfl
  | pkTop =>
    obtain ⟨hp, rfl⟩ := he
    exact beginsNoPacket_between (by simp [hp.2]) (by simp [hcancel]) rfl
  | pkPoll | pkWait =>
    obtain ⟨hp, rfl⟩ := he
    exact beginsNoPacket_within (by simp [hp.2]) (.inl ⟨by simp, .inl rfl⟩)
  | pkDrain =>
    obtain ⟨hp, bytes, -, rfl⟩ := he
    refine beginsNoPacket_within (by simp [hp.2]) (.inl ⟨?_, .inl rfl⟩)
    simp only [Packetizer.after]
    split <;> simp
  | pkSend sent =>
    obtain ⟨hp, -, rfl⟩ := he
    exact beginsNoPacket_within (by simp [hp.2]) (.inr ⟨rfl, _, rfl⟩)
  | pkStop =>
    obtain ⟨hp, -, rfl⟩ := he
    exact beginsNoPacket_between (by simp [hp.2]) (by simp) rfl
  | _ =>
    have hframe := effect_writes he
    exact beginsNoPacket_of_same (congrArg (·.pk.state) hframe) (congrArg (·.txLog) hframe)

/-- Settles O52: only effects move the loop, but a short PK_SEND logs its datagram and traps. -/
theorem cancellationStopsTheLoop : Obligations.CancellationStopsTheLoop := by
  intro i s t h hcancel hexec hreset
  have hout := exec_outcomes hexec
  obtain ⟨hflag, -⟩ := outcomes_flags hout
  refine ⟨?cancel, show BeginsNoPacket s t from ?loop⟩
  case cancel =>
    rcases hflag with hsame | ⟨-, hset⟩ | ⟨hi, -⟩
    · exact hsame.trans hcancel
    · exact hset
    · exact absurd hi hreset
  case loop =>
    rcases hout with ⟨rfl, -⟩ | ⟨-, -, x, kept, hkept, rfl⟩ | ⟨-, -, s', r, heff, rfl⟩ | ⟨-, -, -, rfl⟩
    · exact beginsNoPacket_of_same rfl rfl
    · rcases hkept with rfl | ⟨sent, -, -, -, hp, rfl⟩
      · exact beginsNoPacket_of_same rfl rfl
      · exact beginsNoPacket_within (by simp [hp.2]) (.inl ⟨by simp [hp.2], .inr rfl⟩)
    · have hmoves := effect_beginsNoPacket h hcancel hreset heff
      exact hmoves
    · exact beginsNoPacket_of_same rfl rfl

end Sys2Proof.Machine
end

section
/-! What a CTL operation comes to when its owner issues it (44_control.md R230–R234), after the checks of
60_exceptions.md R268; what the CTL operations leave unchanged, and that a configuration stays (R239). -/

namespace Sys2Proof.Machine

open Sys2Proof

variable {s : State} {i : Instr}

/-! ## Reset, socket, start and cancel -/

/-- Settles O30: what another agent's reset raises, and what the HOST's leaves. -/
theorem ctlResetRestoresTheBlock : Obligations.CtlResetRestoresTheBlock := by
  refine ⟨fun s hp hi => issueAlways_foreign _ hp ?_, fun s hi => ⟨_, exec_ctlReset hi⟩⟩
  exact decide_eq_false hi

/-- Its checks passed, an operation whose statements are the HOST's answer steps where it succeeds and traps where it
fails. -/
theorem exec_answered {g ok : Bool} {s' : State} {x : Raise}
    (hexec : exec i s = issue i g (if ok = true then .done s' .nothing else .raise s x) s)
    (hlive : isDead s.phase = false) (hown : Owned i s) (hguard : g = true) :
    (ok = false → exec i s = .next (trapped i s x)) ∧ (ok = true → exec i s = .next (stepped i s .nothing s')) := by
  constructor
  · rintro rfl
    exact exec_raises hexec hlive hown hguard rfl
  · rintro rfl
    exact exec_steps hexec hlive hown hguard rfl

theorem socketOpen_guard_iff :
    ((decide (s.phase = .config) || decide (s.phase = .ready)) && !s.socket.isOpen) = true ↔
      (s.phase = .config ∨ s.phase = .ready) ∧ s.socket.isOpen = false := by
  simp

theorem start_guard_iff :
    (decide (s.phase = .ready) && s.socket.isOpen) = true ↔ s.phase = .ready ∧ s.socket.isOpen = true := by
  simp

/-- Settles O32: the HOST answers whether the socket opens. -/
theorem ctlSocketOpenSetsTheDestination : Obligations.CtlSocketOpenSetsTheDestination := by
  refine fun ok addr port => ⟨checksFirst_of_issue (fun _ => rfl) rfl (mayIssue_iff_owner rfl)
    fun _ _ => socketOpen_guard_iff, fun s hi hp hclosed => ?_⟩
  have hlive : isDead s.phase = false := alive_iff.1 (hp.imp_right .inl)
  have hown : Owned (.ctlSocketOpen ok addr port) s := owned_of_issuer 0x82#8 hi rfl rfl
  exact exec_answered rfl hlive hown (socketOpen_guard_iff.2 ⟨hp, hclosed⟩)

/-- Settles O33: the HOST answers whether the stream starts. -/
theorem ctlStartRuns : Obligations.CtlStartRuns := by
  refine fun ok => ⟨checksFirst_of_issue (fun _ => rfl) rfl (mayIssue_iff_owner rfl) fun _ _ => start_guard_iff,
    fun s hi hp hopen => ?_⟩
  have hlive : isDead s.phase = false := alive_iff.1 (.inr (.inl hp))
  have hown : Owned (.ctlStart ok) s := owned_of_issuer 0x83#8 hi rfl rfl
  exact exec_answered rfl hlive hown (start_guard_iff.2 ⟨hp, hopen⟩)

/-- Settles O34: there is no guard beside the live phases. -/
theorem ctlCancelSetsTheFlag : Obligations.CtlCancelSetsTheFlag :=
  ⟨checksFirst_of_issue (fun _ => rfl) rfl (mayIssue_iff_owner rfl) fun _ _ => iff_of_true rfl trivial,
    fun _ hi hlive => exec_steps rfl (alive_iff.1 hlive) (owned_of_issuer 0x84#8 hi rfl rfl) rfl rfl⟩

/-! ## The configuration -/

section
variable {rate cap : Word} {bps : Byte}

/-- A representable rate is at most 127 times the base of its family (42_format_negotiator.md R181). -/
theorem rate_le_of_ok {rc : Byte} (h : rateCode rate = .ok rc) : rate.toNat ≤ 127 * 48000 := by
  obtain ⟨m, -, hm, hrate⟩ := (rateCode_ok_iff rate).1 ⟨rc, h⟩
  omega

/-- The capacity asked for is positive and fits the 32 bits of CAP, the nominal 30 seconds too (R231). -/
theorem requestedCapacity_fits {rc bd : Byte} (hrate : rateCode rate = .ok rc) (hdepth : bitDepth bps = .ok bd) :
    1 ≤ requestedCapacity rate bps cap ∧ requestedCapacity rate bps cap < 2 ^ 32 := by
  obtain ⟨hbps, hbps'⟩ := bitDepth_ok hdepth
  have hle := rate_le_of_ok hrate
  unfold requestedCapacity
  split
  · have hpos : 0 < rate.toNat := Nat.pos_of_ne_zero fun h0 => rateCode_ok hrate (BitVec.eq_of_toNat_eq h0)
    constructor
    · exact Nat.mul_pos (Nat.mul_pos (Nat.mul_pos (by decide) hpos) (by decide)) hbps
    · calc 30 * rate.toNat * 2 * bps.toNat
        _ ≤ 30 * (127 * 48000) * 2 * 4 := by gcongr
        _ < 2 ^ 32 := by decide
  · rename_i hcap
    exact ⟨Nat.pos_of_ne_zero fun h0 => hcap (BitVec.eq_of_toNat_eq h0), cap.isLt⟩

/-- The error of a rate is always NEG_RATE with the rate (R181). -/
theorem rateCode_err_eq {x : Raise} (h : rateCode rate = .err x) : x = ⟨.negRate, rate⟩ := by
  refine FnResult.err.inj (h.symm.trans (rateCode_err fun hrate => ?_))
  obtain ⟨c, hc⟩ := (rateCode_ok_iff rate).2 hrate
  cases hc.symm.trans h

/-- The error of a sample size is always NEG_DEPTH with the size (R182). -/
theorem bitDepth_err_eq {x : Raise} (h : bitDepth bps = .err x) : x = ⟨.negDepth, bps.setWidth 32⟩ := by
  by_cases hc : bps.toNat ∈ [1, 2, 3, 4]
  · cases (bitDepth_of_container hc).symm.trans h
  · exact FnResult.err.inj (h.symm.trans (bitDepth_of_no_container hc))

theorem configure_noFormat (rate : Word) (bps : Byte) (cap : Word) (allocOk : Bool) (s : State) :
    configure false rate bps cap allocOk s = .error ⟨.negNoformat, 0#32⟩ := rfl

theorem configure_badRate {x : Raise} (h : rateCode rate = .err x) (bps : Byte) (cap : Word) (allocOk : Bool)
    (s : State) : configure true rate bps cap allocOk s = .error ⟨.negRate, rate⟩ := by
  simp only [configure, h, rateCode_err_eq h, reduceCtorEq, if_false]

theorem configure_badDepth {rc : Byte} {x : Raise} (hrate : rateCode rate = .ok rc) (h : bitDepth bps = .err x)
    (cap : Word) (allocOk : Bool) (s : State) :
    configure true rate bps cap allocOk s = .error ⟨.negDepth, bps.setWidth 32⟩ := by
  simp only [configure, hrate, h, bitDepth_err_eq h, reduceCtorEq, if_false]

section
variable {rc bd : Byte} (hrate : rateCode rate = .ok rc) (hdepth : bitDepth bps = .ok bd)
include hrate hdepth

theorem configure_noMemory (cap : Word) (s : State) : configure true rate bps cap false s =
    .error ⟨.rbCreateErr, lowWord (requestedCapacity rate bps cap)⟩ := by
  simp only [configure, hrate, hdepth, reduceCtorEq, if_false, if_true]

/-- With a format and the memory, CTL_CONFIGURE writes the whole configuration (R231). -/
theorem configure_ok (cap : Word) (s : State) : configure true rate bps cap true s = .ok { s with
    fmt := ⟨rate, bps, frameBytes bps, headerOf rc bd⟩
    ring := ⟨true, lowWord (requestedCapacity rate bps cap), [], 0, 0, 0, 0⟩
    phase := .ready } := by
  have hfits := requestedCapacity_fits (cap := cap) hrate hdepth
  have hcap : lowWord (requestedCapacity rate bps cap) ≠ 0#32 := fun h0 => by
    have h0 := congrArg BitVec.toNat h0
    rw [lowWord_toNat, Nat.mod_eq_of_lt hfits.2] at h0
    exact absurd h0 (Nat.ne_of_gt hfits.1)
  simp only [configure, hrate, hdepth, ringCreate_ok hcap, reduceCtorEq, if_false]

end
end

/-- Settles O31: each check by the statements it stops, and the configuration by all of them passed. -/
theorem ctlConfigureNegotiates : Obligations.CtlConfigureNegotiates := by
  refine fun found rate bps cap allocOk => ⟨checksFirst_of_issue (fun _ => rfl) rfl (mayIssue_iff_owner rfl)
    fun _ _ => creatable_iff, ?_⟩
  rintro s _ c rfl rfl hi hp habsent
  have hlive : isDead s.phase = false := alive_iff.1 (.inl hp)
  have hown : Owned (.ctlConfigure found rate bps cap allocOk) s := owned_of_issuer 0x81#8 hi rfl rfl
  have hguard := creatable_iff.2 ⟨hp, habsent⟩
  have hraises {x : Raise} (h : configure found rate bps cap allocOk s = .error x) :=
    exec_raises (i := .ctlConfigure found rate bps cap allocOk) rfl hlive hown hguard (congrArg (actOf s) h)
  refine ⟨?noFormat, ?badRate, ?badDepth, ?configures⟩
  case noFormat =>
    rintro rfl
    exact hraises (configure_noFormat _ _ _ _ _)
  case badRate =>
    rintro x rfl hx
    exact hraises (configure_badRate hx _ _ _ _)
  case badDepth =>
    rintro rc x rfl hrate hx
    exact hraises (configure_badDepth hrate hx _ _ _)
  case configures =>
    rintro rc bd rfl hrate hdepth
    have hfits := requestedCapacity_fits (cap := cap) hrate hdepth
    refine ⟨hfits.1, hfits.2, ?_, ?_⟩
    · rintro rfl
      exact hraises (configure_noMemory hrate hdepth _ _)
    · rintro rfl
      have hsteps := exec_steps (i := .ctlConfigure true rate bps cap true) rfl hlive hown hguard
        (congrArg (actOf s) (configure_ok hrate hdepth cap s))
      exact ⟨_, hsteps, rfl, Nat.mod_eq_of_lt hfits.2, rfl, rfl, rfl, rfl, fun _ => rfl⟩

/-! ## The frame of the CTL operations -/

/-- Settles O60: the fields from the frame of every instruction, the logs by what a reset comes to. -/
theorem frameOfControl : Obligations.FrameOfControl := by
  refine ⟨fun i s t hi h _ => ?frame, fun s t h => ?reset⟩
  case frame =>
    rcases hi with rfl | ⟨_, _, _, _, _, rfl⟩ | ⟨_, _, _, rfl⟩ | ⟨_, rfl⟩ | rfl | ⟨_, rfl⟩
    all_goals exact framed_exec h rfl nofun
  case reset =>
    rcases issueAlways_cases h with ⟨-, -, rfl⟩ | ⟨-, -, rfl⟩ | ⟨-, rfl⟩
    · exact ⟨rfl, rfl, .inl rfl⟩
    · exact ⟨rfl, rfl, .inr ⟨_, rfl⟩⟩
    · exact ⟨rfl, rfl, .inl rfl⟩

/-! ## The configuration stays -/

/-- From `s` to `t`, where `s` is configured, the format and CAP stay, CAP but for PK_STOP; so does the destination of
an open socket (R239). -/
def ConfigurationKept (i : Instr) (s t : State) : Prop :=
  (s.phase ≠ .config → t.fmt = s.fmt ∧ (t.ring.cap = s.ring.cap ∨ i = .pkStop)) ∧
  (s.socket.isOpen = true → t.socket.addr = s.socket.addr ∧ t.socket.port = s.socket.port)

theorem configurationKept_of_same {t : State} (hfmt : t.fmt = s.fmt) (hcap : t.ring.cap = s.ring.cap)
    (hsocket : t.socket = s.socket) : ConfigurationKept i s t := by
  rw [ConfigurationKept, hsocket]
  exact ⟨fun _ => ⟨hfmt, .inl hcap⟩, fun _ => ⟨rfl, rfl⟩⟩

theorem configurationKept_of_config {t : State} (hp : s.phase = .config) (hsocket : t.socket = s.socket) :
    ConfigurationKept i s t := by
  rw [ConfigurationKept, hsocket]
  exact ⟨fun h => absurd hp h, fun _ => ⟨rfl, rfl⟩⟩

/-- The operations that write the format or CAP have phase CONFIG as their guard, and the one that writes the
destination a closed socket. -/
theorem effect_configuration {s' : State} {r : Result} (hreset : i ≠ .ctlReset) (he : Effect i s s' r) :
    ConfigurationKept i s s' := by
  have hframe := effect_writes he
  cases i with
  | ctlReset => exact absurd rfl hreset
  | rbCreate | ctlConfigure => exact configurationKept_of_config he.1 (congrArg (·.socket) hframe)
  | rbDestroy => exact configurationKept_of_config he.1.1 (congrArg (·.socket) hframe)
  | ctlSocketOpen =>
    obtain ⟨-, hclosed, rfl⟩ := he
    exact ⟨fun _ => ⟨rfl, .inl rfl⟩, fun hopen => absurd hopen (by simp [hclosed])⟩
  | pkStop =>
    obtain ⟨-, -, rfl⟩ := he
    exact ⟨fun _ => ⟨rfl, .inr rfl⟩, fun _ => ⟨rfl, rfl⟩⟩
  | _ =>
    exact configurationKept_of_same (congrArg (·.fmt) hframe) (congrArg (·.ring.cap) hframe)
      (congrArg (·.socket) hframe)

/-- What is kept of the state before a raise has its configuration. -/
theorem kept_configuration {kept : State} {x : Raise} (h : Kept i s kept x) : ConfigurationKept i s kept := by
  rcases h with rfl | ⟨_, -, -, -, -, rfl⟩
  · exact configurationKept_of_same rfl rfl rfl
  · exact configurationKept_of_same rfl rfl rfl

theorem exec_configuration {t : State} (h : exec i s = .next t) (hreset : i ≠ .ctlReset) :
    ConfigurationKept i s t := by
  rcases exec_outcomes h with ⟨rfl, -⟩ | ⟨-, -, x, kept, hkept, rfl⟩ | ⟨-, -, s', r, heff, rfl⟩ | ⟨-, -, -, rfl⟩
  · exact configurationKept_of_same rfl rfl rfl
  · have hconf := kept_configuration hkept
    exact hconf
  · have hconf := effect_configuration hreset heff
    exact hconf
  · exact configurationKept_of_same rfl rfl rfl

/-- Settles O46: the configuration is kept, and the invariant says whose header it is. -/
theorem configurationIsImmutable : Obligations.ConfigurationIsImmutable := by
  intro i s t hinv h hreset
  obtain ⟨hkept, hsocket⟩ := exec_configuration h hreset
  refine ⟨fun hp => ?_, hsocket⟩
  obtain ⟨-, hset, hbuilt⟩ := hinv.config
  obtain ⟨hfmt, hcap⟩ := hkept fun hconfig => by simp [hconfig] at hp
  rw [hfmt]
  exact ⟨rfl, (hbuilt (hset hp)).1, hcap⟩

end Sys2Proof.Machine
end

section
/-! That no engine operation stays enabled for ever under fair engines (44_control.md R238): issued where it is enabled,
an operation leaves its engine state or lowers the frames its invocation awaits, and nothing raises them meanwhile. -/

namespace Sys2Proof.Machine

open Sys2Proof

variable {s t : State} {i j : Instr}

/-! ## An engine operation by its code -/

/-- Where an operation code finds its engine (R238): `engineEnabled` does not depend on the operands. -/
def codeEnabled (c : Byte) (s : State) : Prop :=
  match unitOf c, fnOf c with
  | 1, 1 => CpIn .check s
  | 1, 2 | 1, 3 | 1, 4 => CpIn .reading s
  | 1, 5 => CpIn .commit s
  | 3, 0 => PkIn .top s
  | 3, 1 => PkIn .poll s
  | 3, 2 => PkIn .drain s
  | 3, 3 => PkIn .wait s
  | 3, 4 => PkIn .send s
  | 3, 5 => PkIn .stopping s ∧ s.cp.state = .idle
  | _, _ => False

theorem codeEnabled_of_engineEnabled (h : engineEnabled i s) : codeEnabled (recordOf i).code s := by
  cases i with
  | rate44k1 | rate48k => exact h.elim
  | _ =>
    dsimp only [recordOf]
    exact h

theorem engineEnabled_of_codeEnabled (hw : i.isWire = false) (h : codeEnabled (recordOf i).code s) :
    engineEnabled i s := by
  cases i with
  | rate44k1 | rate48k => cases hw
  | _ =>
    dsimp only [recordOf] at h
    exact h

/-- An operation of the same code is enabled where this one is. -/
theorem engineEnabled_of_code (hw : j.isWire = false) (hc : (recordOf j).code = (recordOf i).code)
    (h : engineEnabled i s) : engineEnabled j s :=
  engineEnabled_of_codeEnabled hw (hc ▸ codeEnabled_of_engineEnabled h)

theorem not_wire_of_decodeTxn {x : Txn} (h : decodeTxn x = .ok i) : i.isWire = false := by
  have he := encode_of_decodeTxn h
  by_contra hw
  rw [encode, if_pos (by simpa using hw)] at he
  cases he

theorem running_of_engineEnabled (h : engineEnabled i s) : s.phase = .running := by
  cases i with
  | cpCheck | cpSubreadHole | cpSubreadAreas | cpSubreadErr | cpCommit | pkTop | pkPoll | pkDrain | pkWait | pkSend =>
    exact h.1
  | pkStop => exact h.1.1
  | _ => exact h.elim

theorem owner_of_engineEnabled (h : engineEnabled i s) : ∃ a, ownerOf (recordOf i).code = some a := by
  cases i with
  | cpCheck | cpSubreadHole | cpSubreadAreas | cpSubreadErr | cpCommit | pkTop | pkPoll | pkDrain | pkWait | pkSend
  | pkStop => exact ⟨_, by dsimp only [recordOf]; rfl⟩
  | _ => exact h.elim

/-! ## The frames an answer is awaited for -/

/-- The frames an operation of this code is to answer before its engine state is left: a sub-read's alone are more than
one operation's work (41_capture_producer.md R153, R154). -/
def framesAwaited (c : Byte) (s : State) : Nat :=
  match unitOf c, fnOf c with
  | 1, 2 | 1, 3 | 1, 4 => s.cp.framesLeft
  | _, _ => 0

theorem framesLeft_after (p : Producer) (k : Nat) : (p.after k).framesLeft = p.framesLeft - k :=
  Nat.sub_add_eq p.wf p.done k

/-- While READING lasts, no effect adds to the frames left. -/
theorem effect_framesLeft {s' : State} {r : Result} (he : Effect i s s' r) (hs : s.cp.state = .reading)
    (hs' : s'.cp.state = .reading) : s'.cp.framesLeft ≤ s.cp.framesLeft := by
  cases i with
  | cpInvoke | cpCheck =>
    obtain ⟨hc, -⟩ := he
    exact absurd (hs.symm.trans hc.2) nofun
  | cpSubreadHole | cpSubreadAreas =>
    obtain ⟨-, -, -, -, rfl⟩ := he
    exact (framesLeft_after _ _).trans_le (Nat.sub_le _ _)
  | cpCommit =>
    obtain ⟨-, -, rfl⟩ := he
    cases hs'
  | ctlReset =>
    obtain rfl := he
    cases hs'
  | _ =>
    have hframe := effect_writes he
    exact (congrArg (·.cp.framesLeft) hframe).le

/-- What is kept of the state before a raise has its producer. -/
theorem kept_cp {kept : State} {x : Raise} (h : Kept i s kept x) : kept.cp = s.cp := by
  rcases h with rfl | ⟨_, -, -, -, -, rfl⟩
  · rfl
  · rfl

theorem exec_framesLeft (h : exec i s = .next t) (hs : s.cp.state = .reading) (ht : t.cp.state = .reading) :
    t.cp.framesLeft ≤ s.cp.framesLeft := by
  rcases exec_outcomes h with ⟨rfl, -⟩ | ⟨-, -, x, kept, hkept, rfl⟩ | ⟨-, -, s', r, heff, rfl⟩ | ⟨-, -, -, rfl⟩
  · exact le_rfl
  · rw [record_cp, trapEntry_cp, kept_cp hkept]
  · exact effect_framesLeft (s' := s') heff hs ht
  · exact le_rfl

theorem illegalOp_cp (x : Txn) (s : State) : (illegalOp x s).cp = s.cp := by
  unfold illegalOp
  split <;> rfl

theorem moves_framesLeft {a : Agent} {x : Txn} (h : Moves s a x t) (hs : s.cp.state = .reading)
    (ht : t.cp.state = .reading) : t.cp.framesLeft ≤ s.cp.framesLeft := by
  rcases moves_cases h with ⟨j, -, he⟩ | ⟨-, rfl⟩
  · exact exec_framesLeft (s := withIssuer a s) he hs ht
  · rw [illegalOp_cp]
    exact le_rfl

/-- A move that leaves an operation enabled adds nothing to the frames it awaits. -/
theorem moves_framesAwaited {a : Agent} {x : Txn} (h : Moves s a x t) (hs : engineEnabled i s)
    (ht : engineEnabled i t) : framesAwaited (recordOf i).code t ≤ framesAwaited (recordOf i).code s := by
  cases i with
  | cpSubreadHole | cpSubreadAreas | cpSubreadErr =>
    dsimp only [recordOf]
    exact moves_framesLeft h hs.2 ht.2
  | rate44k1 | rate48k => exact hs.elim
  | _ =>
    dsimp only [recordOf]
    exact le_rfl

/-! ## Progress -/

/-- An effect that leaves its own operation enabled is a sub-read's, which has answered a frame. -/
theorem effect_progress {s' : State} {r : Result} (he : Effect i s s' r) (hs : engineEnabled i s)
    (hs' : engineEnabled i s') : framesAwaited (recordOf i).code s' < framesAwaited (recordOf i).code s := by
  cases i with
  | cpSubreadHole | cpSubreadAreas =>
    obtain ⟨-, hk, hk', -, rfl⟩ := he
    dsimp only [recordOf]
    exact (framesLeft_after _ _).trans_lt (Nat.sub_lt (hk.trans hk') hk)
  | cpSubreadErr => exact he.elim
  | cpCheck =>
    obtain ⟨-, -, rfl⟩ := he
    exact absurd hs'.2 (by dsimp only; split <;> exact nofun)
  | pkTop =>
    obtain ⟨-, rfl⟩ := he
    exact absurd hs'.2 (by dsimp only; split <;> exact nofun)
  | pkDrain =>
    obtain ⟨-, _, -, rfl⟩ := he
    exact absurd hs'.2 (by simp only [Packetizer.after]; split <;> exact nofun)
  | pkPoll | pkWait =>
    obtain ⟨-, rfl⟩ := he
    exact absurd hs'.2 nofun
  | cpCommit | pkSend =>
    obtain ⟨-, -, rfl⟩ := he
    exact absurd hs'.2 nofun
  | pkStop =>
    obtain ⟨-, -, rfl⟩ := he
    exact absurd hs'.1.1 nofun
  | _ => exact hs.elim

/-- Executed where it is enabled, an operation is enabled no more, or awaits fewer frames. -/
theorem exec_progress (h : exec i s = .next t) (hs : engineEnabled i s) (ht : engineEnabled i t) :
    framesAwaited (recordOf i).code t < framesAwaited (recordOf i).code s := by
  have hrunning := running_of_engineEnabled hs
  rcases exec_outcomes h with ⟨-, hdead | ⟨_, _, rfl, -⟩⟩ | ⟨-, -, x, kept, -, rfl⟩ | ⟨-, -, s', r, heff, rfl⟩
    | ⟨rfl, -, hbusy, -⟩
  · exact absurd (.inr (.inr hrunning)) hdead
  · exact hs.elim
  · cases running_of_engineEnabled ht
  · have hlt := effect_progress (s' := s') heff hs
    exact hlt ht
  · exact absurd hs.2 hbusy

/-- Whoever issues an operation's code where it is enabled, the operation is enabled no more, or awaits fewer frames. -/
theorem moves_progress {a : Agent} {x : Txn} (h : Moves s a x t) (hc : x.code = (recordOf i).code)
    (hs : engineEnabled i s) (ht : engineEnabled i t) :
    framesAwaited (recordOf i).code t < framesAwaited (recordOf i).code s := by
  rcases moves_cases h with ⟨j, hj, he⟩ | ⟨-, rfl⟩
  · have hjw := not_wire_of_decodeTxn hj
    have hjc : (recordOf j).code = (recordOf i).code := (code_of_decodeTxn hj).trans hc
    rw [← hjc]
    exact exec_progress (s := withIssuer a s) he (engineEnabled_of_code hjw hjc hs) (engineEnabled_of_code hjw hjc ht)
  · rw [illegalOp_alive (s := withIssuer a s) _ (.inr (.inr (running_of_engineEnabled hs)))] at ht
    cases running_of_engineEnabled ht

/-- Along a run that leaves an operation enabled, nothing adds to the frames it awaits. -/
theorem run_framesAwaited {state : Nat → State} {issued : Nat → Agent × Txn} {n m : Nat} (hrun : IsRun state issued)
    (hs : ∀ m, n ≤ m → engineEnabled i (state m)) (hm : n ≤ m) :
    framesAwaited (recordOf i).code (state m) ≤ framesAwaited (recordOf i).code (state n) := by
  induction m, hm using Nat.le_induction with
  | base => exact le_rfl
  | succ m hm ih => exact (moves_framesAwaited (hrun m) (hs m hm) (hs (m + 1) (by omega))).trans ih

/-- No operation stays enabled for ever: fairness has it issued time and again, and each time it awaits fewer frames. -/
theorem not_always_enabled {state : Nat → State} {issued : Nat → Agent × Txn} (hrun : IsRun state issued)
    (hfair : FairEngines state issued) (n : Nat) : ¬ ∀ m, n ≤ m → engineEnabled i (state m) := by
  intro hs
  induction hk : framesAwaited (recordOf i).code (state n) using Nat.strong_induction_on generalizing n with
  | h k ih =>
    obtain ⟨a, ha⟩ := owner_of_engineEnabled (hs n le_rfl)
    obtain ⟨m, hm, -, hc⟩ := hfair a i ha n hs
    have hlt := moves_progress (hrun m) hc (hs m hm) (hs (m + 1) (by omega))
    have hle := run_framesAwaited hrun hs hm
    exact ih _ (by omega) (m + 1) (fun m' hm' => hs m' (by omega)) rfl

/-- Settles O55. -/
theorem enginesMoveOn : Obligations.EnginesMoveOn := by
  intro state issued hrun hfair i n
  by_contra hnone
  push Not at hnone
  exact not_always_enabled hrun hfair n hnone

end Sys2Proof.Machine
end

section
/-! The owner of every operation (60_exceptions.md R271), what a dead phase leaves of an operation (R264, R265), and
what a trap performs and why (R261–R263): which errors an instruction raises is said once, by its error's name. -/

namespace Sys2Proof.Machine

open Sys2Proof

variable {i : Instr} {s t : State}

/-! ## Owners -/

/-- Every operation but CTL_RESET and CTL_CSR_READ is issued by the checks of R268, the dead phases' first. -/
theorem exec_eq_issue (hw : i.isWire = false) (hreset : i ≠ .ctlReset) (hcsr : ∀ n, i ≠ .ctlCsrRead n) (s : State) :
    ∃ g b, exec i s = issue i g b s := by
  cases i with
  | ctlReset => exact absurd rfl hreset
  | ctlCsrRead n => exact absurd rfl (hcsr n)
  | rate44k1 | rate48k => cases hw
  | _ => exact ⟨_, _, rfl⟩

theorem ctlCsrRead_owned (n : Byte) (s : State) : Owned (.ctlCsrRead n) s :=
  mayIssue_any (show ownerOf 0x85#8 = none from rfl) _

/-- Settles O36: OWNERSHIP by whether the operation steps in dead phases too, the owners by the owner column. -/
theorem ownersOfOperations : Obligations.OwnersOfOperations := by
  refine ⟨fun i s hw hlive hforeign => ?raises, fun i a hw => ?owners⟩
  case raises =>
    have hforeign : mayIssue (recordOf i).code s.env.issuer = false := Bool.eq_false_iff.2 hforeign
    by_cases hreset : i = .ctlReset
    · subst hreset
      have hp : s.phase ≠ .fatal := fun hp => by simp [Alive, hp] at hlive
      exact issueAlways_foreign _ hp hforeign
    · have hlive : Alive s := hlive.resolve_right fun h => hreset h.1
      have hcsr (n : Byte) : i ≠ .ctlCsrRead n := by
        rintro rfl
        exact Bool.false_ne_true (hforeign.symm.trans (ctlCsrRead_owned n s))
      obtain ⟨g, b, hexec⟩ := exec_eq_issue hw hreset hcsr s
      rw [hexec, issue_foreign g b (alive_iff.1 hlive) hforeign]
      rfl
  case owners =>
    cases i with
    | rate44k1 | rate48k => cases hw
    | rbCapacity | ctlCsrRead =>
      simp only [recordOf]
      exact iff_of_true rfl trivial
    | _ =>
      simp only [recordOf]
      exact decide_eq_true_iff

/-! ## Dead phases -/

/-- Settles O41: the dead-phase check comes first, but for the two operations without it. -/
theorem deadPhasesHaveNoSteps : Obligations.DeadPhasesHaveNoSteps := by
  intro s hp
  have hdead : ¬ Alive s := by rcases hp with hp | hp <;> simp [Alive, hp]
  refine ⟨fun i hw hreset hcsr => ?_, fun n => ⟨_, exec_ctlCsrRead n s⟩, fun hi => ⟨_, exec_ctlReset hi, rfl, rfl⟩,
    fun a x hx => ?_⟩
  · obtain ⟨g, b, hexec⟩ := exec_eq_issue hw hreset hcsr s
    exact hexec.trans (issue_dead i g b (not_alive_iff.1 hdead))
  · rw [step_issueNext_of_reserved s a hx]
    exact congrArg _ (illegalOp_dead (s := withIssuer a s) x hdead)

/-- Settles O42: in FATAL an instruction has no step, reads a register, or is the HOST's reset. -/
theorem onlyResetLeavesFatal : Obligations.OnlyResetLeavesFatal := by
  intro i s t hp h
  have hdead : ¬ Alive s := by simp [Alive, hp]
  rcases exec_outcomes h with ⟨rfl, -⟩ | ⟨hlive, -⟩ | ⟨hlive, howner, s', r, heff, rfl⟩ | ⟨-, hpk, -⟩
  · exact .inl ⟨hp, rfl, rfl, rfl⟩
  · rcases hlive with hlive | ⟨-, hstopped⟩
    · exact absurd hlive hdead
    · cases hp.symm.trans hstopped
  · rcases hlive with hlive | rfl | ⟨n, rfl⟩
    · exact absurd hlive hdead
    · exact .inr ⟨rfl, of_decide_eq_true (howner rfl)⟩
    · obtain rfl : s' = s := heff
      exact .inl ⟨hp, rfl, rfl, rfl⟩
  · cases hp.symm.trans hpk.1

/-! ## The errors of the ring's statements -/

section
variable {q : Ring} {x : Raise}

theorem ringCreate_error {cap : Word} (h : ringCreate cap = .error x) : cap = 0#32 ∧ x = ⟨.rbCreateErr, 0#32⟩ := by
  by_cases hc : cap = 0#32
  · subst hc
    exact ⟨rfl, Except.error.inj (h.symm.trans ringCreate_raises)⟩
  · cases h.symm.trans (ringCreate_ok hc)

theorem ringStore_error {k : Nat} {b : Byte} (h : ringStore k b q = .error x) : x = ⟨.storeRange, lowWord k⟩ := by
  rcases Nat.lt_or_ge k q.freeProd with hk | hk
  · cases h.symm.trans (ringStore_ok hk)
  · exact Except.error.inj (h.symm.trans (ringStore_raises hk))

theorem ringAdvanceWrite_error {n : Nat} (h : ringAdvanceWrite n q = .error x) : x = ⟨.advWriteRange, lowWord n⟩ := by
  rcases Nat.lt_or_ge q.freeProd n with hn | hn
  · exact Except.error.inj (h.symm.trans (ringAdvanceWrite_raises hn))
  · cases h.symm.trans (ringAdvanceWrite_ok hn)

theorem ringAdvanceRead_error {n : Nat} (h : ringAdvanceRead n q = .error x) : x = ⟨.advReadRange, lowWord n⟩ := by
  rcases Nat.lt_or_ge q.fillCons n with hn | hn
  · exact Except.error.inj (h.symm.trans (ringAdvanceRead_raises hn))
  · cases h.symm.trans (ringAdvanceRead_ok hn)

/-- A load raises LOAD_RANGE outside CONS's view, and LOAD_UNWRITTEN inside it (40_ring_buffer.md R129). -/
theorem ringLoad_error {k : Nat} (h : ringLoad k q = .error x) :
    (q.fillCons ≤ k ∧ x = ⟨.loadRange, lowWord k⟩) ∨ x = ⟨.loadUnwritten, lowWord (q.r + k)⟩ := by
  rcases Nat.lt_or_ge k q.fillCons with hk | hk
  · right
    cases hc : q.at (q.readCell k) with
    | none => exact Except.error.inj (h.symm.trans (ringLoad_unwritten hk hc))
    | some b => cases h.symm.trans (ringLoad_ok hk hc)
  · exact .inl ⟨hk, Except.error.inj (h.symm.trans (ringLoad_raises hk))⟩

theorem ringStoreAll_error {l : List (Nat × Byte)} (h : ringStoreAll l q = .error x) :
    x.err = .storeRange := by
  induction l generalizing q with
  | nil => cases h
  | cons p l ih =>
    rw [ringStoreAll] at h
    cases hp : ringStore p.1 p.2 q with
    | error y =>
      rw [hp] at h
      cases h
      rw [ringStore_error hp]
    | ok u =>
      rw [hp] at h
      exact ih h

/-- Loads inside CONS's view raise nothing but LOAD_UNWRITTEN (43_packetizer.md R203). -/
theorem ringLoadAll_error {k n : Nat} (hn : k + n ≤ q.fillCons) (h : ringLoadAll k n q = .error x) :
    x.err = .loadUnwritten := by
  induction n generalizing k with
  | zero => cases h
  | succ n ih =>
    rw [ringLoadAll] at h
    cases hb : ringLoad k q with
    | error y =>
      rw [hb] at h
      cases h
      rcases ringLoad_error hb with ⟨hk, -⟩ | hx
      · omega
      · rw [hx]
    | ok b =>
      rw [hb] at h
      cases hrest : ringLoadAll (k + 1) n q with
      | error y =>
        simp only [hrest] at h
        cases h
        exact ih (by omega) hrest
      | ok bytes => simp only [hrest] at h; cases h

theorem drain_error (h : drain s = .error x) : x.err = .loadUnwritten := by
  cases hloads : ringLoadAll 0 s.drainCount s.ring with
  | error y =>
    rw [drain, hloads] at h
    cases h
    exact ringLoadAll_error ((Nat.zero_add _).trans_le (drainCount_le s)) hloads
  | ok bytes => cases h.symm.trans (drain_ok hloads)

end

/-! ## What raises each error -/

/-- The causes of each error in an instruction's own checks and statements (R261); ILLEGAL_OP is the decoder's. -/
def MayRaise (i : Instr) (s : State) (x : Raise) : Prop :=
  match x.err with
  | .negNoformat => ∃ rate bps cap ok, i = .ctlConfigure false rate bps cap ok ∧ x.info = 0#32
  | .negRate => ∃ rate bps cap ok, i = .ctlConfigure true rate bps cap ok ∧ x.info = rate
  | .negDepth => ∃ rate bps cap ok, i = .ctlConfigure true rate bps cap ok ∧ x.info = bps.setWidth 32
  | .rbCreateErr => i = .rbCreate 0#32 ∧ x.info = 0#32 ∨
      ∃ rate bps cap, i = .ctlConfigure true rate bps cap false ∧ (cap ≠ 0#32 → x.info = cap)
  | .streamStartErr => i = .ctlStart false ∧ x.info = 0#32
  | .rbOverflow => i = .cpCheck ∧ x.info = lowWord s.freeFrames
  | .captureReadErr => i = .cpSubreadErr x.info
  | .txSocket => ∃ addr port, i = .ctlSocketOpen false addr port ∧ x.info = 0#32
  | .txShort => i = .pkSend x.info ∧ x.info ≠ 1157#32
  | .advWriteRange => (∃ n, i = .rbAdvanceWrite n ∧ x.info = lowWord n) ∨ i = .cpCommit
  | .advReadRange => ∃ n, i = .rbAdvanceRead n ∧ x.info = lowWord n
  | .storeRange => (∃ k b, i = .rbStore k b ∧ x.info = lowWord k) ∨ (∃ k, i = .cpSubreadHole k) ∨
      ∃ k p0 s0 p1 s1, i = .cpSubreadAreas k p0 s0 p1 s1
  | .loadRange => ∃ k, i = .rbLoad k ∧ x.info = lowWord k
  | .loadUnwritten => (∃ k, i = .rbLoad k ∧ x.info = lowWord (s.ring.r + k)) ∨ i = .pkDrain
  | .ownership => mayIssue (recordOf i).code s.env.issuer = false ∧ x.info = zextByte (recordOf i).code
  | .illegalOp => False
  | .seqErr => x.info = zextByte (recordOf i).code
  | .hostProto => (∃ min max, i = .cpInvoke min max ∧ x.info = 0x20#32) ∨
      (∃ k, i = .cpSubreadHole k ∧ x.info = lowWord k) ∨
      ∃ k p0 s0 p1 s1, i = .cpSubreadAreas k p0 s0 p1 s1 ∧ x.info = lowWord k

/-- The instruction raised an error that it may raise, and all it came to is the trap (R262, R263). -/
def Traps (i : Instr) (s t : State) : Prop :=
  ∃ x kept, Kept i s kept x ∧ MayRaise i s x ∧
    t = record (.agent s.env.issuer) (recordOf i) (.raised x) (trapEntry x kept)

/-- Statements enter FATAL only by a raise of an error that the instruction may raise. -/
def ActTraps (i : Instr) (s : State) : Act → Prop
  | .done s' _ => s'.phase ≠ .fatal
  | .raise kept x => Kept i s kept x ∧ MayRaise i s x
  | .noStep => True
  | .hold => True

theorem actTraps_ring {e : Except Raise Ring} (hs : s.phase ≠ .fatal) (h : ∀ x, e = .error x → MayRaise i s x) :
    ActTraps i s (ringActOf s e) := by
  cases e with
  | error x => exact ⟨.inl rfl, h x rfl⟩
  | ok q => exact hs

theorem actTraps_subread {k : Nat} {l : List (Nat × Byte)} (hs : s.phase ≠ .fatal)
    (hk : MayRaise i s ⟨.hostProto, lowWord k⟩) (hl : ∀ x : Raise, x.err = .storeRange → MayRaise i s x) :
    ActTraps i s (subread k l s) := by
  unfold subread
  split
  · exact ⟨.inl rfl, hk⟩
  · cases hstores : ringStoreAll l s.ring with
    | error x => exact ⟨.inl rfl, hl x (ringStoreAll_error hstores)⟩
    | ok q => exact hs

/-- The errors of CTL_CONFIGURE, by the check that raises them (44_control.md R231). -/
theorem mayRaise_of_configure {found : Bool} {rate cap : Word} {bps : Byte} {allocOk : Bool} {x : Raise}
    (h : configure found rate bps cap allocOk s = .error x) :
    MayRaise (.ctlConfigure found rate bps cap allocOk) s x := by
  cases found with
  | false =>
    obtain rfl := Except.error.inj (h.symm.trans (configure_noFormat _ _ _ _ _))
    exact ⟨_, _, _, _, rfl, rfl⟩
  | true =>
    cases hrate : rateCode rate with
    | err y =>
      obtain rfl := Except.error.inj (h.symm.trans (configure_badRate hrate _ _ _ _))
      exact ⟨_, _, _, _, rfl, rfl⟩
    | ok rc =>
      cases hdepth : bitDepth bps with
      | err y =>
        obtain rfl := Except.error.inj (h.symm.trans (configure_badDepth hrate hdepth _ _ _))
        exact ⟨_, _, _, _, rfl, rfl⟩
      | ok bd =>
        cases allocOk with
        | false =>
          obtain rfl := Except.error.inj (h.symm.trans (configure_noMemory hrate hdepth _ _))
          refine .inr ⟨_, _, _, rfl, fun hcap => ?_⟩
          rw [requestedCapacity, if_neg hcap]
          exact BitVec.ofNat_toNat 32 cap
        | true => cases h.symm.trans (configure_ok hrate hdepth cap s)

/-! ## From a state in FATAL back to the error -/

section
variable (hs : s.phase ≠ .fatal) (ht : t.phase = .fatal)
include hs ht

theorem traps_of_settle {b : Act} (h : t = settle (recordOf i) s b) (hb : ActTraps i s b) : Traps i s t := by
  subst h
  cases b with
  | done s' r => exact absurd ht hb
  | raise kept x => exact ⟨x, kept, hb.1, hb.2, rfl⟩
  | noStep => exact absurd ht hs
  | hold => exact absurd ht hs

theorem traps_of_issue {g : Bool} {b : Act} (h : issue i g b s = .next t) (hb : g = true → ActTraps i s b) :
    Traps i s t := by
  refine traps_of_settle hs ht (Host.Outcome.next.inj h).symm ?_
  split
  · trivial
  · unfold checked
    split
    · split
      · exact hb ‹_›
      · exact ⟨.inl rfl, rfl⟩
    · exact ⟨.inl rfl, Bool.eq_false_iff.2 ‹_›, rfl⟩

theorem traps_of_issueAlways {s' : State} {r : Result} (h : issueAlways i (.done s' r) s = .next t)
    (hlive : s'.phase ≠ .fatal) : Traps i s t := by
  rcases issueAlways_cases h with ⟨hp, -⟩ | ⟨-, hforeign, rfl⟩ | ⟨-, rfl⟩
  · exact absurd hp hs
  · exact ⟨⟨.ownership, _⟩, s, .inl rfl, ⟨hforeign, rfl⟩, rfl⟩
  · exact absurd ht hlive

/-- An instruction that enters FATAL traps: each step of its statements stays out of FATAL, each raise has its cause. -/
theorem exec_traps (h : exec i s = .next t) : Traps i s t := by
  cases i with
  | rate44k1 | rate48k =>
    cases h
    exact absurd ht hs
  | ctlReset => exact traps_of_issueAlways hs ht h nofun
  | ctlCsrRead n => exact traps_of_issueAlways hs ht h hs
  | rbCapacity | rbWritePtr | rbFreeCount | rbReadPtr | rbFillCount | rbSyncR2p | rbSyncW2c | rbDestroy
  | fnRateCode | fnBitDepth | fnBuildHeader | fnDecodeRate | cpOvfNotify | pkTop | pkPoll | pkWait | ctlCancel =>
    exact traps_of_issue hs ht h fun _ => hs
  | rbCreate cap =>
    refine traps_of_issue hs ht h fun _ => actTraps_ring hs fun x hx => ?_
    obtain ⟨rfl, rfl⟩ := ringCreate_error hx
    exact .inl ⟨rfl, rfl⟩
  | rbStore k b =>
    refine traps_of_issue hs ht h fun _ => actTraps_ring hs fun x hx => ?_
    obtain rfl := ringStore_error hx
    exact .inl ⟨k, b, rfl, rfl⟩
  | rbAdvanceWrite n =>
    refine traps_of_issue hs ht h fun _ => actTraps_ring hs fun x hx => ?_
    obtain rfl := ringAdvanceWrite_error hx
    exact .inl ⟨n, rfl, rfl⟩
  | rbAdvanceRead n =>
    refine traps_of_issue hs ht h fun _ => actTraps_ring hs fun x hx => ?_
    obtain rfl := ringAdvanceRead_error hx
    exact ⟨n, rfl, rfl⟩
  | rbLoad k =>
    refine traps_of_issue hs ht h fun _ => ?_
    cases hload : ringLoad k s.ring with
    | ok b => exact hs
    | error x =>
      rcases ringLoad_error hload with ⟨-, rfl⟩ | rfl
      · exact ⟨.inl rfl, k, rfl, rfl⟩
      · exact ⟨.inl rfl, .inl ⟨k, rfl, rfl⟩⟩
  | cpInvoke min max =>
    refine traps_of_issue hs ht h fun _ => ?_
    split
    · trivial
    · split
      · exact ⟨.inl rfl, .inl ⟨min, max, rfl, rfl⟩⟩
      · exact hs
  | cpCheck =>
    refine traps_of_issue hs ht h fun _ => ?_
    split
    · exact ⟨.inl rfl, rfl, rfl⟩
    · exact hs
  | cpSubreadHole k =>
    exact traps_of_issue hs ht h fun _ => actTraps_subread hs (.inr (.inl ⟨k, rfl, rfl⟩)) fun x hx => by
      rw [MayRaise, hx]
      exact .inr (.inl ⟨k, rfl⟩)
  | cpSubreadAreas k p0 s0 p1 s1 =>
    exact traps_of_issue hs ht h fun _ => actTraps_subread hs (.inr (.inr ⟨k, p0, s0, p1, s1, rfl, rfl⟩)) fun x hx => by
      rw [MayRaise, hx]
      exact .inr (.inr ⟨k, p0, s0, p1, s1, rfl⟩)
  | cpSubreadErr e => exact traps_of_issue hs ht h fun _ => ⟨.inl rfl, rfl⟩
  | cpCommit =>
    refine traps_of_issue hs ht h fun _ => ?_
    cases hadvance : ringAdvanceWrite (s.cp.wf * s.fmt.bytesPerFrame) s.ring with
    | ok q => exact hs
    | error x =>
      obtain rfl := ringAdvanceWrite_error hadvance
      exact ⟨.inl rfl, .inr rfl⟩
  | pkDrain =>
    refine traps_of_issue hs ht h fun _ => ?_
    cases hdrain : drain s with
    | ok s' =>
      obtain ⟨bytes, -, rfl⟩ := drain_inv hdrain
      exact hs
    | error x =>
      refine ⟨.inl rfl, ?_⟩
      rw [MayRaise, drain_error hdrain]
      exact .inr rfl
  | pkSend sent =>
    refine traps_of_issue hs ht h fun hg => ?_
    split
    · exact hs
    · rename_i hsent
      exact ⟨.inr ⟨sent, rfl, rfl, hsent, pkIn_iff.1 hg, rfl⟩, rfl, hsent⟩
  | pkStop =>
    refine traps_of_issue hs ht h fun _ => ?_
    split
    · exact nofun
    · trivial
  | ctlConfigure found rate bps cap allocOk =>
    refine traps_of_issue hs ht h fun hg => ?_
    cases hconf : configure found rate bps cap allocOk s with
    | ok s' =>
      obtain ⟨-, -, _, _, -, -, -, rfl⟩ := actSays_configure hconf (creatable_iff.1 hg).1 (creatable_iff.1 hg).2
      exact nofun
    | error x => exact ⟨.inl rfl, mayRaise_of_configure hconf⟩
  | ctlSocketOpen ok addr port =>
    refine traps_of_issue hs ht h fun _ => ?_
    cases ok with
    | true => exact hs
    | false => exact ⟨.inl rfl, addr, port, rfl, rfl⟩
  | ctlStart ok =>
    refine traps_of_issue hs ht h fun _ => ?_
    cases ok with
    | true => exact nofun
    | false => exact ⟨.inl rfl, rfl, rfl⟩

end

/-- Settles O43: what is kept of the raising step is the state before it, or what PK_SEND had sent. -/
theorem trapsArePrecise : Obligations.TrapsArePrecise := by
  intro i s t hs h ht
  obtain ⟨x, kept, rfl | ⟨sent, hi, hx, -, -, rfl⟩, -, rfl⟩ := exec_traps hs ht h
  · exact ⟨x, kept, rfl, .inl rfl⟩
  · exact ⟨x, _, rfl, .inr ⟨sent, s.datagram, hi, hx, rfl⟩⟩

/-- Settles O44: the code of each error is that of its name, and the causes are the name's. -/
theorem errorsHaveTheirCauses : Obligations.ErrorsHaveTheirCauses := by
  intro i s t hs h ht
  obtain ⟨⟨e, info⟩, kept, -, hcause, rfl⟩ := exec_traps hs ht h
  cases e <;> exact hcause

end Sys2Proof.Machine
end
